-- ==== Sys2Proof/Word.lean ====
section
/-! DEFINITION. The widths of the values the block moves (spec/00_scope.md R5, R6, R10). -/

namespace Sys2Proof

/-- A byte: one beat of DIN or DOUT (R6 `DIN_W`, `DOUT_W`). -/
abbrev Byte := BitVec 8

/-- A 32-bit value: a command word (R6 `CMD_W`) or an input word (R5 `WORD_W`). -/
abbrev Word32 := BitVec 32

/-- A 64-bit value: an accumulator (R5 `ACC_W`) or a response beat (R6 `RSP_W`). -/
abbrev Word64 := BitVec 64

end Sys2Proof
end

