-- ==== Sys2Proof/Config.lean ====
section
/-! DEFINITION. What is fixed for every instance of the block (spec/00_scope.md R5, R6; spec/10_state.md R30). The one
parameter the spec leaves open, `PIPELINED` (R7), is an argument of the port level's `edge`. The spec leaves no result
of a command open (R130), so there is no free value. -/

namespace Sys2Proof

/-- `LEN_MAX`, the largest encodable length (R6). -/
def Config.lenMax : Nat := 268435455

/-- The largest length a `WRITE` completes with, a multiple of 4 (R6, R136). -/
def Config.lenMaxLegal : Nat := 268435452

/-- `WORD_BYTES`, the bytes of an input word (R5). -/
def Config.wordBytes : Nat := 4

/-- `DIGEST_BYTES`, the bytes of a digest (R5). -/
def Config.digestBytes : Nat := 32

/-- `SIZE_CONST`, hardwired (R30, R170). -/
def Config.sizeConst : Word64 := 32#64

/-- `BLKSZ_CONST`, hardwired (R30, R171); kept as the spec gives it (R172). -/
def Config.blkszConst : Word64 := 4#64

end Sys2Proof
end

