-- ==== Sys2Proof/Syntax.lean ====
section
/-! DEFINITION. The six commands (spec/30_encoding.md R82): one constructor per row of spec/opcode_table.json. -/

namespace Sys2Proof

/-- A command. `write` carries its one operand, the payload length in bytes, as the unsigned number R81 takes it for. -/
inductive Instr where
  | reset
  | write (len : Nat)
  | sum
  | sumw
  | size
  | blksz
  deriving DecidableEq, Repr

end Sys2Proof
end

