-- ==== Sys2Proof/WellFormed.lean ====
section
/-! DEFINITION. Which terms of `Instr` are commands: those some command word holds. -/

namespace Sys2Proof

/-- The length of a `WRITE` is at most `LEN_MAX` (R81, R87). A length that is no multiple of 4 is well-formed: it is a
legal encoding that faults when it is executed (R85). -/
def Instr.wellFormed : Instr → Bool
  | .reset => true
  | .write len => decide (len ≤ Config.lenMax)
  | .sum => true
  | .sumw => true
  | .size => true
  | .blksz => true

/-- The proposition of `Instr.wellFormed`. -/
abbrev Instr.WellFormed (i : Instr) : Prop := i.wellFormed = true

end Sys2Proof
end

