-- ==== Sys2Proof/Decode.lean ====
section
/-! DEFINITION. The decoder (spec/30_encoding.md R86), total on all 2^32 command words, and the encoder (R87). A
command word is one number on 32 wires (R58), so there is no byte order to lay it out in. -/

namespace Sys2Proof

/-- Why a word is `ILLEGAL`, with the fields that make it so. -/
inductive Illegal where
  /-- `OP` is 0x0 or one of 0x7 to 0xF (R83). -/
  | reservedOpcode (op : BitVec 4)
  /-- `LEN` is not 0 on an opcode other than that of `WRITE` (R84). -/
  | reservedLen (op : BitVec 4) (len : Nat)
  deriving DecidableEq, Repr

/-- The field `OP`, bits 31:28 (R80). -/
def opField (c : Word32) : BitVec 4 := c.extractLsb' 28 4

/-- The field `LEN`, bits 27:0, as an unsigned number of bytes (R80, R81). -/
def lenField (c : Word32) : Nat := (c.extractLsb' 0 28).toNat

/-- A command whose `LEN` must be 0 (R84). -/
def decodePlain (i : Instr) (op : BitVec 4) (len : Nat) : Except Illegal Instr :=
  if len = 0 then .ok i else .error (.reservedLen op len)

/-- `Decode` of R86; an error is its `ILLEGAL`, with the reason. -/
def decode (c : Word32) : Except Illegal Instr :=
  let op := opField c
  let len := lenField c
  if op = 0x2#4 then .ok (.write len)
  else if op = 0x1#4 then decodePlain .reset op len
  else if op = 0x3#4 then decodePlain .sum op len
  else if op = 0x4#4 then decodePlain .sumw op len
  else if op = 0x5#4 then decodePlain .size op len
  else if op = 0x6#4 then decodePlain .blksz op len
  else .error (.reservedOpcode op)

/-- `Encode` of R87. -/
def encode : Instr → Word32
  | .reset => 0x10000000#32
  | .write len => BitVec.ofNat 32 (0x20000000 + len)
  | .sum => 0x30000000#32
  | .sumw => 0x40000000#32
  | .size => 0x50000000#32
  | .blksz => 0x60000000#32

/-- The command word whose low `nbits` bits are those of `w` and whose other bits are 0. -/
def tableWord (nbits w : Nat) : Word32 := BitVec.ofNat 32 (w % 2 ^ nbits)

/-- What the decoder reads from the command word numbered as spec/opcode_table.json numbers its bits: bit 0 is
`cmd_word[0]`, and the table's rows are whole words (R80). -/
def decodeTableWord (nbits w : Nat) : Option Instr := (decode (tableWord nbits w)).toOption

end Sys2Proof
end

