-- ==== Sys2Proof/Machine/State.lean ====
section
/-! DEFINITION. The state of the block and of its channels, as plain data (spec/10_state.md R20 to R40,
spec/20_memory.md R50), its reset value (R40), and the reasons a step can stop. -/

namespace Sys2Proof.Machine

/-- The state register: the four accumulators `x[0]` to `x[3]` (R20). -/
structure Acc where
  a : Word64
  b : Word64
  c : Word64
  d : Word64
  deriving DecidableEq, Repr

/-- `(0, 0, 0, 0)` (R40, R111). -/
def Acc.zero : Acc := { a := 0#64, b := 0#64, c := 0#64, d := 0#64 }

/-- The sequencer's phases (R37). Halted is not among them: it is the same fact as `FAULT = 1`, which has its one home
in `State.fault`. -/
inductive Phase where
  /-- No command in progress: a command boundary. -/
  | idle
  /-- The command word is held and not yet decoded; only the port level stays here. -/
  | decode
  /-- Inside `WRITE`, taking payload or draining the adder stage. -/
  | payload
  /-- A response beat of the current command is owed. -/
  | response
  /-- Inside `SUM`, a digest byte is owed. -/
  | digest
  deriving DecidableEq, Repr

/-- The hidden state (R33 to R37): no command reads it, and it is idle at every command boundary (R39). -/
structure Hidden where
  /-- Sequencer phase (R37). -/
  phase : Phase
  /-- The current command word, held while the command runs; none when no command is in progress (R37: "which command, if
  any, is in progress"; log entry 6). -/
  cmdWord : Option Word32
  /-- The bytes the word assembler holds, oldest first; the list's length is R33's count of bytes held. -/
  held : List Byte
  /-- Remaining-length counter, `LEN_W` bits (R34). -/
  remaining : BitVec 28
  /-- Serializer index over the digest bytes inside `SUM` (R35). -/
  sumIdx : BitVec 5
  /-- Serializer index over the response beats inside `SUMW` (R35). -/
  sumwIdx : BitVec 2
  /-- The `b` stage owes an addition (R36, R132). -/
  va : Bool
  /-- The `c` stage owes an addition. -/
  vb : Bool
  /-- The `d` stage owes an addition. -/
  vc : Bool
  /-- `rsp_valid` or `dout_valid` was raised for the beat owed, which has not been transferred: it stays raised (R51; log
  entry 12). -/
  offered : Bool
  deriving DecidableEq, Repr

/-- The hidden state at a command boundary (R39). -/
def Hidden.idle : Hidden :=
  { phase := .idle, cmdWord := none, held := [], remaining := 0#28, sumIdx := 0#5, sumwIdx := 0#2,
    va := false, vb := false, vc := false, offered := false }

/-- The block with its four channels and the pins the host drives. The pins `cmd_valid` and `din_valid` are 1 exactly
while `cmd` and `din` hold a beat, and `cmd_word` and `din_byte` are its oldest (log entry 4). -/
structure State where
  /-- The accumulators (R20). -/
  acc : Acc
  /-- `FAULT`: the block is halted (R27). -/
  fault : Bool
  /-- `CAUSE` (R28). -/
  cause : BitVec 2
  /-- `FINFO` (R29). -/
  finfo : Word32
  /-- Command index: how many command words were accepted since hardware reset (R25). -/
  ci : Nat
  /-- The hidden state (R33 to R37). -/
  hid : Hidden
  /-- The model's own record that a fault has happened, which no step and no move clears (R195; log entry 5). -/
  faultSeen : Bool
  /-- The pin `rst` (R210). -/
  rst : Bool
  /-- Hardware reset has been taken while `rst` is 1: what lets the host withdraw a beat (R212; log entry 13). -/
  resetTaken : Bool
  /-- The pin `dout_ready` (R50). -/
  doutReady : Bool
  /-- The pin `rsp_ready` (R50). -/
  rspReady : Bool
  /-- CMD: command words presented and not yet accepted, oldest first. -/
  cmd : List Word32
  /-- DIN: payload bytes presented and not yet consumed, oldest first. -/
  din : List Byte
  /-- DOUT: digest bytes transferred, oldest first: the sink's buffer (R71). -/
  dout : List Byte
  /-- RSP: response beats transferred, oldest first, since the sink last emptied its buffer (log entry 17). -/
  rsp : List Word64
  deriving DecidableEq, Repr

/-- The block right after hardware reset (R40), no beat presented or transferred yet. DESIGN CHOICE (log entry 3): `rst`
is released and both sinks are ready. -/
def State.reset : State :=
  { acc := Acc.zero, fault := false, cause := 0#2, finfo := 0#32, ci := 0, hid := Hidden.idle, faultSeen := false,
    rst := false, resetTaken := false, doutReady := true, rspReady := true, cmd := [], din := [], dout := [], rsp := [] }

/-- Why the machine stops with a fault: for nothing. Both faults of the spec (R180) are entered as the spec says (R186),
which gives a next state; a halted block (R187) and a waiting one (R194) have next states too. So nothing raises a
constructor of this type, and it has none (safe; log entry 2). -/
inductive Fault : Type
  deriving DecidableEq, Repr

/-- Why an instruction has no meaning. -/
inductive Refusal where
  /-- Raised by an arm of `exec` whose instruction has no meaning yet; no arm does so now. Safe: nothing is claimed. -/
  | notModelled (mnemonic : String)
  /-- Raised by the meaning of `WRITE` on a length above `LEN_MAX`, which no command word holds: the term is no command,
  and no decoded word gives it. Safe: no run of the machine reaches it. -/
  | illFormed (mnemonic : String)
  deriving DecidableEq, Repr

end Sys2Proof.Machine
end

