-- ==== Sys2Proof/Machine/Flags.lean ====
section
/-! DEFINITION. What the block has for flags: none (spec/10_state.md R26). Each adder drops its carry here, and the only
status is the latch `FAULT` with `CAUSE` and `FINFO`, on their pins. -/

namespace Sys2Proof.Machine

/-- `x +_64 y = (x + y) mod 2^64` (R10): the exact sum, narrowed; the carry out of bit 63 is recorded nowhere (R26,
R134). -/
def add64 (x y : Word64) : Word64 := BitVec.ofNat 64 (x.toNat + y.toNat)

/-- The status outputs (R50): `fault`, `fault_cause`, `fault_info`. -/
structure StatusPins where
  fault : Bool
  faultCause : BitVec 2
  faultInfo : Word32
  deriving DecidableEq, Repr

/-- The status outputs show the three registers continuously (R27, R28, R29). -/
def statusPins (s : State) : StatusPins := { fault := s.fault, faultCause := s.cause, faultInfo := s.finfo }

end Sys2Proof.Machine
end

