-- ==== Sys2Proof/Machine/Operands.lean ====
section
/-! DEFINITION. The forms operands take: the immediate `LEN` (spec/30_encoding.md R81), the payload bytes that make
input words (spec/20_memory.md R56, spec/41_write.md R122), the accumulators by number (spec/00_scope.md R12). No
command names a register. -/

namespace Sys2Proof.Machine

/-- `zext_64` (R10) of an input word: never sign-extended (R133). -/
def zext64 (w : Word32) : Word64 := w.setWidth 64

/-- `zext_64(LEN)`, the count a `WRITE` answers with (R125). -/
def lenBeat (len : Nat) : Word64 := BitVec.ofNat 64 len

/-- `LEN mod 4 != 0` (R60, R121). -/
def misaligned (len : Nat) : Bool := len % Config.wordBytes != 0

/-- `LE32(b0, b1, b2, b3)`, the value whose bits are those of `b3, b2, b1, b0`, most significant first (R11). -/
def le32 (b0 b1 b2 b3 : Byte) : Word32 := ((b3 ++ b2) ++ b1) ++ b0

/-- The input words of a payload, in order: four consecutive bytes each, not overlapping (R122). Bytes after the last
whole word make none. -/
def wordsOf : List Byte → List Word32
  | b0 :: b1 :: b2 :: b3 :: rest => le32 b0 b1 b2 b3 :: wordsOf rest
  | _ => []

/-- `x[i]`: accumulator number `i` (R12, R20). -/
def Acc.get (x : Acc) (i : Fin 4) : Word64 :=
  match i with
  | 0 => x.a
  | 1 => x.b
  | 2 => x.c
  | 3 => x.d

end Sys2Proof.Machine
end

