-- ==== Sys2Proof/Machine/Pace.lean ====
section
/-! DEFINITION. What a block does of its own accord at a clock edge. The spec fixes no number of edges for anything
(spec/70_reset_and_hazards.md R240) and has a model quantify over it (spec/00_scope.md R7, U13): every edge takes a pace,
and statements hold for every sequence of paces. -/

namespace Sys2Proof.Machine

/-- Which of the things it may do the block does at an edge. What it may not do at that edge it does not do, whatever the
pace (R53, R132), and a valid once raised stays raised (R51). -/
structure Pace where
  /-- Raises `cmd_ready`. -/
  accept : Bool
  /-- Decodes the command word, the one accepted at this edge or the one held since an earlier edge (R37). -/
  decode : Bool
  /-- Raises `din_ready`. -/
  take : Bool
  /-- Raises `dout_valid` or `rsp_valid` for the beat owed. -/
  offer : Bool
  /-- The `b` stage of the pipeline makes the addition it owes. -/
  addB : Bool
  /-- The `c` stage does. -/
  addC : Bool
  /-- The `d` stage does. -/
  addD : Bool
  deriving DecidableEq, Repr

/-- The block that never holds back. -/
def Pace.full : Pace :=
  { accept := true, decode := true, take := true, offer := true, addB := true, addC := true, addD := true }

end Sys2Proof.Machine
end

