-- ==== Sys2Proof/Machine/Adders.lean ====
section
/-! DEFINITION. The stage of four 64-bit adders (spec/41_write.md section 4 and section 6): the atomic word step `Fold`
of the transaction level, the parallel stage and the four-stage pipeline of the port level. -/

namespace Sys2Proof.Machine

/-- `Fold(a, b, c, d, w)` (R123): each line uses the value the line before it has just computed. -/
def fold (x : Acc) (w : Word32) : Acc :=
  let a' := add64 x.a (zext64 w)
  let b' := add64 x.b a'
  let c' := add64 x.c b'
  let d' := add64 x.d c'
  { a := a', b := b', c := c', d := d' }

/-- `FoldAll` (R22): the words in order, the first first (R124). -/
def foldAll (x : Acc) : List Word32 → Acc
  | [] => x
  | w :: ws => foldAll (fold x w) ws

/-- The parallel stage (R131): the four sums of one word from the old register values. -/
def parallelStep (x : Acc) (w : Word32) : Acc :=
  let z := zext64 w
  { a := add64 x.a z
    b := add64 (add64 x.b x.a) z
    c := add64 (add64 (add64 x.c x.b) x.a) z
    d := add64 (add64 (add64 (add64 x.d x.c) x.b) x.a) z }

/-- The registers of the adder stage: the accumulators and the pipeline valid bits (R36). -/
structure AdderStage where
  acc : Acc
  va : Bool
  vb : Bool
  vc : Bool
  deriving DecidableEq, Repr

/-- No addition is owed. -/
def AdderStage.settled (p : AdderStage) : Bool := !p.va && !p.vb && !p.vc

/-- `PipeEdge(w_in)` (R132): all lines use the values from before the edge. -/
def pipeEdge (win : Option Word32) (p : AdderStage) : AdderStage :=
  { acc :=
      { a := match win with
          | some w => add64 p.acc.a (zext64 w)
          | none => p.acc.a
        b := if p.va then add64 p.acc.b p.acc.a else p.acc.b
        c := if p.vb then add64 p.acc.c p.acc.b else p.acc.c
        d := if p.vc then add64 p.acc.d p.acc.c else p.acc.d }
    va := win.isSome
    vb := p.va
    vc := p.vb }

/-- The drain (R132): three edges with no word. -/
def drain (p : AdderStage) : AdderStage := pipeEdge none (pipeEdge none (pipeEdge none p))

/-- The `d` stage makes its addition at this edge. -/
def AdderStage.addsD (p : AdderStage) (k : Pace) : Bool := p.vc && k.addD

/-- The `c` stage does: never before `d` has taken the value `c` holds (R132: each addition uses the left neighbour's value
after the same word). -/
def AdderStage.addsC (p : AdderStage) (k : Pace) : Bool := p.vb && k.addC && (!p.vc || p.addsD k)

/-- The `b` stage does, likewise. -/
def AdderStage.addsB (p : AdderStage) (k : Pace) : Bool := p.va && k.addB && (!p.vb || p.addsC k)

/-- A word may enter at this edge: `b` does not still wait for the value `a` holds. -/
def AdderStage.takesWord (p : AdderStage) (k : Pace) : Bool := !p.va || p.addsB k

/-- An edge of the pipeline at any pace (R132: "any schedule is allowed"). At full pace it is `pipeEdge`. -/
def stagesEdge (k : Pace) (win : Option Word32) (p : AdderStage) : AdderStage :=
  { acc :=
      { a := match win with
          | some w => add64 p.acc.a (zext64 w)
          | none => p.acc.a
        b := if p.addsB k then add64 p.acc.b p.acc.a else p.acc.b
        c := if p.addsC k then add64 p.acc.c p.acc.b else p.acc.c
        d := if p.addsD k then add64 p.acc.d p.acc.c else p.acc.d }
    va := win.isSome || (p.va && !p.addsB k)
    vb := p.addsB k || (p.vb && !p.addsC k)
    vc := p.addsC k || (p.vc && !p.addsD k) }

/-- One edge of the adder stage in either organisation (R7 `PIPELINED`, R131, R132). -/
def addersEdge (pipelined : Bool) (k : Pace) (win : Option Word32) (p : AdderStage) : AdderStage :=
  if pipelined then stagesEdge k win p
  else
    match win with
    | some w => { p with acc := parallelStep p.acc w }
    | none => p

/-- The adder stage's registers in the state. -/
def State.adders (s : State) : AdderStage := { acc := s.acc, va := s.hid.va, vb := s.hid.vb, vc := s.hid.vc }

/-- Write the adder stage's registers back. -/
def State.setAdders (s : State) (p : AdderStage) : State :=
  { s with acc := p.acc, hid := { s.hid with va := p.va, vb := p.vb, vc := p.vc } }

end Sys2Proof.Machine
end

