-- ==== Sys2Proof/Machine/Serializer.lean ====
section
/-! DEFINITION. The word serializer (spec/42_readout.md R155, R156) and the response beats of each command
(spec/20_memory.md R62). -/

namespace Sys2Proof.Machine

/-- `LE64(v)` (R11): the eight bytes of `v`, the least significant first. -/
def le64 (v : Word64) : List Byte :=
  [v.extractLsb' 0 8, v.extractLsb' 8 8, v.extractLsb' 16 8, v.extractLsb' 24 8,
   v.extractLsb' 32 8, v.extractLsb' 40 8, v.extractLsb' 48 8, v.extractLsb' 56 8]

/-- Digest byte `k` (R155): bits `8*(k mod 8) + 7` to `8*(k mod 8)` of accumulator `k div 8`. -/
def digestByte (x : Acc) (k : Nat) : Byte := (x.get (Fin.ofNat 4 (k / 8))).extractLsb' (8 * (k % 8)) 8

/-- The digest of R155: its 32 bytes, byte 0 first. -/
def digest (x : Acc) : List Byte := (List.range Config.digestBytes).map (digestByte x)

/-- The response beats the command with word `c` produces, in order, from the accumulators it reads (R62, R65): one for
`WRITE` (R125), four for `SUMW` (R151), one each for `SIZE` and `BLKSZ` (R170, R171). -/
def responseBeats (x : Acc) (c : Word32) : List Word64 :=
  match decode c with
  | .ok (.write len) => [lenBeat len]
  | .ok .sumw => [x.a, x.b, x.c, x.d]
  | .ok .size => [Config.sizeConst]
  | .ok .blksz => [Config.blkszConst]
  | .ok .reset => []
  | .ok .sum => []
  | .error _ => []

/-- The response beats of the command held, if any. -/
def State.answer (s : State) : List Word64 :=
  match s.hid.cmdWord with
  | some c => responseBeats s.acc c
  | none => []

/-- The response beats the current command still owes. -/
def State.owedRsp (s : State) : List Word64 := s.answer.drop s.hid.sumwIdx.toNat

/-- The digest bytes the current `SUM` still owes. -/
def State.owedDout (s : State) : List Byte := (digest s.acc).drop s.hid.sumIdx.toNat

end Sys2Proof.Machine
end

