-- ==== Sys2Proof/Machine/Ops.lean ====
section
/-! DEFINITION. The operations the commands share: the stream primitives (spec/00_scope.md R12), the fault entry
(spec/60_exceptions.md R186), hardware reset (spec/70_reset_and_hazards.md R210), the start and the end of a command, and
`advance`, which carries the current command as far as the channels let it. -/

namespace Sys2Proof.Machine

/-- `raise Fault(cause, info)` (R186): the latch is set, the accumulators and the channels are kept, the command is over.
`faultSeen` is the model's record of it (R195). -/
def raiseFault (cause : BitVec 2) (info : Word32) (s : State) : State :=
  { s with fault := true, cause := cause, finfo := info, hid := Hidden.idle, faultSeen := true }

/-- Hardware reset (R210, R40): every register of the block takes its reset value, whatever the block was doing. The
channels are the host's: beats already transferred stay transferred, and beats not yet consumed stay with the host, which
may now withdraw them (R212). There is no return from a fault but this (R187). -/
def hwReset (s : State) : State :=
  { s with
    acc := Acc.zero, fault := false, cause := 0#2, finfo := 0#32, ci := 0, hid := Hidden.idle, resetTaken := true }

/-- Enter phase `p` of the command `c`, whose word is held while it runs (R37). -/
def startCommand (p : Phase) (c : Word32) (s : State) : State :=
  { s with hid := { Hidden.idle with phase := p, cmdWord := some c } }

/-- The command is complete: the hidden state is idle (R39). -/
def finishCommand (s : State) : State := { s with hid := Hidden.idle }

/-- `RspPush` (R12), once for each beat of `vs`, in order. -/
def pushRsp (vs : List Word64) (s : State) : State := { s with rsp := s.rsp ++ vs }

/-- `DoutPush` (R12), once for each byte of `bs`, in order: appended after what the sink holds (R71, R158). -/
def pushDout (bs : List Byte) (s : State) : State := { s with dout := s.dout ++ bs }

/-- One payload byte into the word assembler (R122): the fourth byte makes a word, which is folded (R123). -/
def feedByte (p : Acc × List Byte) (b : Byte) : Acc × List Byte :=
  match p.2 with
  | [b0, b1, b2] => (fold p.1 (le32 b0 b1 b2 b), [])
  | held => (p.1, held ++ [b])

/-- Payload bytes into the word assembler, in order. -/
def feedBytes (p : Acc × List Byte) : List Byte → Acc × List Byte
  | [] => p
  | b :: bs => feedBytes (feedByte p b) bs

/-- How many payload bytes the current `WRITE` can take now: those it still wants, of those presented (R137, R138). -/
def State.payloadNow (s : State) : Nat := min s.hid.remaining.toNat s.din.length

/-- `DinPop` (R12) for every payload byte that is there and still wanted, each fed to the word assembler. -/
def consumePayload (s : State) : State :=
  let p := feedBytes (s.acc, s.hid.held) (s.din.take s.payloadNow)
  { s with
    acc := p.1
    din := s.din.drop s.payloadNow
    hid := { s.hid with held := p.2, remaining := BitVec.ofNat 28 (s.hid.remaining.toNat - s.payloadNow) } }

/-- Every addition the adder stage owes is done (R132); nothing at the transaction level, where none is ever owed. -/
def settleAdders (s : State) : State := s.setAdders (drain s.adders)

/-- The beat owed is offered: its valid is raised, and stays so until the transfer (R51). -/
def offerBeat (s : State) : State := { s with hid := { s.hid with offered := true } }

/-- The response phase: if the sink is ready every beat owed is transferred and the command is complete; if not, the beat
is offered and waits (R64, R194). -/
def advanceResponse (s : State) : State :=
  if s.rspReady then finishCommand (pushRsp s.owedRsp s) else offerBeat s

/-- The digest phase, likewise on DOUT. -/
def advanceDigest (s : State) : State :=
  if s.doutReady then finishCommand (pushDout s.owedDout s) else offerBeat s

/-- Leave the payload phase for the response phase once the last byte is consumed (R65, R125). -/
def payloadDone (s : State) : State := { s with hid := { s.hid with phase := .response } }

/-- The payload phase: what is presented is consumed; after the last byte the count is answered (R120), and with bytes
still missing the command waits (R137). -/
def advancePayload (s : State) : State :=
  let t := consumePayload (settleAdders s)
  if t.hid.remaining = 0#28 then advanceResponse (payloadDone t) else t

/-- Carry the current command, once decoded, as far as the channels let it: to its end, or to where it waits for the host
(R194). -/
def advance (s : State) : State :=
  match s.hid.phase with
  | .idle => s
  | .decode => s
  | .payload => advancePayload s
  | .response => advanceResponse s
  | .digest => advanceDigest s

end Sys2Proof.Machine
end

