-- ==== Sys2Proof/Machine/ConstCmd.lean ====
section
/-! DEFINITION. The constant commands `SIZE` (spec/43_constants.md R170) and `BLKSZ` (R171). -/

namespace Sys2Proof.Machine

/-- `SIZE` at its decode: the response phase begins (R170). -/
def beginSize (s : State) : State := startCommand .response (encode .size) s

/-- The meaning of `SIZE` (R170). -/
def execSize (s : State) : Host.Outcome State Fault Refusal := .next (advance (beginSize s))

/-- `BLKSZ` at its decode: the response phase begins (R171). -/
def beginBlksz (s : State) : State := startCommand .response (encode .blksz) s

/-- The meaning of `BLKSZ` (R171). -/
def execBlksz (s : State) : Host.Outcome State Fault Refusal := .next (advance (beginBlksz s))

end Sys2Proof.Machine
end

