-- ==== Sys2Proof/Machine/ReadoutCmd.lean ====
section
/-! DEFINITION. The read-out commands `SUMW` (spec/42_readout.md R151) and `SUM` (R155). -/

namespace Sys2Proof.Machine

/-- `SUM` at its decode: the digest phase begins (R155). -/
def beginSum (s : State) : State := startCommand .digest (encode .sum) s

/-- The meaning of `SUM` (R155). -/
def execSum (s : State) : Host.Outcome State Fault Refusal := .next (advance (beginSum s))

/-- `SUMW` at its decode: the response phase begins (R151). -/
def beginSumw (s : State) : State := startCommand .response (encode .sumw) s

/-- The meaning of `SUMW` (R151). -/
def execSumw (s : State) : Host.Outcome State Fault Refusal := .next (advance (beginSumw s))

end Sys2Proof.Machine
end

