-- ==== Sys2Proof/Machine/ResetCmd.lean ====
section
/-! DEFINITION. The command `RESET` (spec/40_reset_cmd.md R111). -/

namespace Sys2Proof.Machine

/-- `RESET` at its decode: the four accumulators become 0, and it is complete; no channel but CMD is touched (R111). -/
def beginReset (s : State) : State := finishCommand { s with acc := Acc.zero }

/-- The meaning of `RESET` (R111). -/
def execReset (s : State) : Host.Outcome State Fault Refusal := .next (beginReset s)

end Sys2Proof.Machine
end

