-- ==== Sys2Proof/Machine/WriteCmd.lean ====
section
/-! DEFINITION. The command `WRITE` (spec/41_write.md R120 to R127). -/

namespace Sys2Proof.Machine

/-- `WRITE` at its decode: the length is tested first, before a payload byte is taken (R121); then the remaining-length
counter is loaded (R34) and the payload phase begins. With no payload the response is owed at once (R126). -/
def beginWrite (len : Nat) (s : State) : State :=
  if misaligned len then raiseFault 1#2 (encode (.write len)) s
  else if len = 0 then startCommand .response (encode (.write len)) s
  else
    let t := startCommand .payload (encode (.write len)) s
    { t with hid := { t.hid with remaining := BitVec.ofNat 28 len } }

/-- The meaning of `WRITE` (R120). A length above `LEN_MAX` is no command: no word holds it. -/
def execWrite (len : Nat) (s : State) : Host.Outcome State Fault Refusal :=
  if Config.lenMax < len then .refused (.illFormed "WRITE") else .next (advance (beginWrite len s))

end Sys2Proof.Machine
end

