-- ==== Sys2Proof/Machine/Dispatch.lean ====
section
/-! DEFINITION. One arm per command: the `case` of `Execute` (spec/30_encoding.md R86). -/

namespace Sys2Proof.Machine

def exec (i : Instr) (s : State) : Host.Outcome State Fault Refusal :=
  match i with
  | .reset => Sys2Proof.Machine.execReset s
  | .write len => Sys2Proof.Machine.execWrite len s
  | .sum => Sys2Proof.Machine.execSum s
  | .sumw => Sys2Proof.Machine.execSumw s
  | .size => Sys2Proof.Machine.execSize s
  | .blksz => Sys2Proof.Machine.execBlksz s

end Sys2Proof.Machine
end

