-- ==== Sys2Proof/Machine/Sequencer.lean ====
section
/-! DEFINITION. The command sequencer (spec/30_encoding.md R86; spec/20_memory.md R64; spec/60_exceptions.md R187): what one
step of the transaction level does, and where it takes its next command from. -/

namespace Sys2Proof.Machine

/-- Accept the oldest command word: it leaves CMD, and the command index counts it, whether it then completes or faults
(R25, R86). -/
def acceptCommand (rest : List Word32) (s : State) : State := { s with cmd := rest, ci := s.ci + 1 }

/-- `Execute` of R86 after the command is counted: an `ILLEGAL` word raises IllegalCommand with the word in `FINFO`
(R182), any other runs its command. -/
def executeWord (c : Word32) (s : State) : Host.Outcome State Fault Refusal :=
  match decode c with
  | .error _ => .next (raiseFault 2#2 c s)
  | .ok i => exec i s

/-- The command `i` at its decode, before any of its beats but the one on CMD. -/
def beginInstr (i : Instr) (s : State) : State :=
  match i with
  | .reset => beginReset s
  | .write len => beginWrite len s
  | .sum => beginSum s
  | .sumw => beginSumw s
  | .size => beginSize s
  | .blksz => beginBlksz s

/-- The command word `c` is decoded (R86): it begins its command, or, `ILLEGAL`, raises IllegalCommand. -/
def decodeWord (c : Word32) (s : State) : State :=
  match decode c with
  | .error _ => raiseFault 2#2 c s
  | .ok i => beginInstr i s

/-- The command word held in the decode phase is decoded; in any other phase it has been. -/
def decodeHeld (s : State) : State :=
  match s.hid.phase, s.hid.cmdWord with
  | .decode, some c => decodeWord c s
  | _, _ => s

/-- Carry the command in progress on from wherever it is. -/
def resume (s : State) : State := advance (decodeHeld s)

/-- One step. Hardware reset has priority over everything (R184, R210); a halted block does nothing (R187); at a command
boundary the oldest command word is accepted and executed, or, with none presented, the block waits; inside a command it
goes on from where it waited (R194). -/
def sequencerStep (s : State) : Host.Outcome State Fault Refusal :=
  if s.rst then .next (hwReset s)
  else if s.fault then .next s
  else
    match s.hid.phase with
    | .idle =>
      match s.cmd with
      | [] => .next s
      | c :: rest => executeWord c (acceptCommand rest s)
    | .decode => .next (resume s)
    | .payload => .next (resume s)
    | .response => .next (resume s)
    | .digest => .next (resume s)

/-- The state in which the next step accepts the command word `c`: it is the oldest on CMD, and the block is at a command
boundary, running and out of hardware reset. A state that already is so is changed on CMD alone. -/
def placeCommand (c : Word32) (s : State) : State :=
  { s with
    cmd := c :: s.cmd, rst := false, resetTaken := false, fault := false, cause := 0#2, finfo := 0#32,
    hid := Hidden.idle }

end Sys2Proof.Machine
end

