-- ==== Sys2Proof/Machine/Step.lean ====
section
/-! DEFINITION. One step of the transaction level (spec/00_scope.md R8: "execute one command"), and how a command is put
where the step takes it from. -/

namespace Sys2Proof.Machine

/-- One step: the sequencer's. -/
def step (s : State) : Host.Outcome State Fault Refusal := sequencerStep s

/-- The command word `w` of `nbits` bits as the host presents it, the oldest on CMD (log entry 1). -/
def State.withFetchWord (s : State) (nbits w : Nat) : State := placeCommand (tableWord nbits w) s

end Sys2Proof.Machine
end

