-- ==== Sys2Proof/Machine/Port.lean ====
section
/-! DEFINITION. The port level (spec/00_scope.md R8; spec/20_memory.md R50 to R53; spec/70_reset_and_hazards.md R210 to
R212): the same block seen at the rising edges of `clk`. The pins the host drives are in the state; one application of
`edge` is one rising edge, at any pace the block likes (R240; log entry 10). -/

namespace Sys2Proof.Machine

/-- The pins the block drives (R50), but for the status pins. A data pin has a value only while its `valid` is 1; while it
is 0 the pin has no meaning (R51, U4), and the model gives none (log entry 9). -/
structure PinsOut where
  /-- `cmd_ready`. -/
  cmdReady : Bool
  /-- `din_ready`. -/
  dinReady : Bool
  /-- `dout_valid` and `dout_byte`. -/
  dout : Option Byte
  /-- `rsp_valid` and `rsp_data`. -/
  rsp : Option Word64
  /-- `fault`, `fault_cause`, `fault_info`. -/
  status : StatusPins
  deriving DecidableEq, Repr

/-- `cmd_ready` (R53): only when idle, not in hardware reset, not halted. -/
def cmdReady (k : Pace) (s : State) : Bool := k.accept && !s.rst && !s.fault && s.hid.phase == .idle

/-- The byte that completes a word waits while the adder stage cannot take the word (R132, R33). -/
def wordMayEnter (k : Pace) (s : State) : Bool := s.hid.held.length != 3 || s.adders.takesWord k

/-- `din_ready` (R53): only in the payload phase of a `WRITE` whose remaining-length counter is not 0. -/
def dinReady (k : Pace) (s : State) : Bool :=
  k.take && !s.fault && s.hid.phase == .payload && s.hid.remaining != 0#28 && wordMayEnter k s

/-- The beat owed is offered at this edge: newly, or since an earlier edge (R51). -/
def offers (k : Pace) (s : State) : Bool := k.offer || s.hid.offered

/-- The digest byte on `dout_byte` while `dout_valid` is 1 (R53): the next one owed. -/
def doutPin (k : Pace) (s : State) : Option Byte :=
  if !s.fault && s.hid.phase == .digest && offers k s then s.owedDout.head? else none

/-- The beat on `rsp_data` while `rsp_valid` is 1 (R53): the next one owed. -/
def rspPin (k : Pace) (s : State) : Option Word64 :=
  if !s.fault && s.hid.phase == .response && offers k s then s.owedRsp.head? else none

/-- The pins the block drives. -/
def pinsOut (k : Pace) (s : State) : PinsOut :=
  { cmdReady := cmdReady k s, dinReady := dinReady k s, dout := doutPin k s, rsp := rspPin k s, status := statusPins s }

/-- The beats transferred at one edge, at most one a channel (R51). -/
structure Transfers where
  cmd : Option Word32
  din : Option Byte
  dout : Option Byte
  rsp : Option Word64
  deriving DecidableEq, Repr

/-- The handshake (R51): a channel transfers its beat at an edge at which its `valid` and its `ready` are both 1 and
`rst` is 0. `cmd_valid` and `din_valid` are 1 while the host has a beat presented (log entry 4). -/
def transfers (k : Pace) (s : State) : Transfers :=
  { cmd := if !s.rst && cmdReady k s then s.cmd.head? else none
    din := if !s.rst && dinReady k s then s.din.head? else none
    dout := if !s.rst && s.doutReady then doutPin k s else none
    rsp := if !s.rst && s.rspReady then rspPin k s else none }

/-- The edge at which a command word is transferred: it is counted and held (R86, R37), and decoded at this edge or at a
later one. -/
def acceptEdge (k : Pace) (c : Word32) (rest : List Word32) (s : State) : State :=
  let t := startCommand .decode c (acceptCommand rest s)
  if k.decode then decodeHeld t else t

/-- An edge with the command word held and not yet decoded. -/
def decodeEdge (k : Pace) (s : State) : State := if k.decode then decodeHeld s else s

/-- One byte has left DIN, which now holds `rest`; the assembler holds `held`, and one byte less is missing (R33, R34). -/
def holdBytes (held rest : List Byte) (s : State) : State :=
  { s with din := rest, hid := { s.hid with held := held, remaining := s.hid.remaining - 1#28 } }

/-- The word assembler at one edge (R122, R33): the byte transferred on DIN, if there is one; with it, the word it
completes. -/
def takeByte (k : Pace) (s : State) : Option Word32 × State :=
  if dinReady k s then
    match s.din with
    | [] => (none, s)
    | b :: rest =>
      match s.hid.held with
      | [b0, b1, b2] => (some (le32 b0 b1 b2 b), holdBytes [] rest s)
      | held => (none, holdBytes (held ++ [b]) rest s)
  else (none, s)

/-- An edge in the payload phase: a byte into the assembler, an edge of the adder stage, and the end of the phase when no
byte is missing and no addition is owed (R132). -/
def payloadEdge (pipelined : Bool) (k : Pace) (s : State) : State :=
  let p := takeByte k s
  let t := p.2.setAdders (addersEdge pipelined k p.1 p.2.adders)
  if t.hid.remaining = 0#28 ∧ t.adders.settled = true then payloadDone t else t

/-- The beat sent is counted (R35), and the next one is not offered yet. -/
def countRsp (s : State) : State := { s with hid := { s.hid with sumwIdx := s.hid.sumwIdx + 1#2, offered := false } }

/-- The byte sent is counted (R35), and the next one is not offered yet. -/
def countDout (s : State) : State := { s with hid := { s.hid with sumIdx := s.hid.sumIdx + 1#5, offered := false } }

/-- The next response beat owed is transferred; after the last the command is complete. -/
def sendRsp (s : State) : State :=
  match s.owedRsp with
  | [] => finishCommand s
  | [v] => finishCommand (pushRsp [v] s)
  | v :: _ :: _ => pushRsp [v] (countRsp s)

/-- The next digest byte owed is transferred; after the last the command is complete. -/
def sendDout (s : State) : State :=
  match s.owedDout with
  | [] => finishCommand s
  | [b] => finishCommand (pushDout [b] s)
  | b :: _ :: _ => pushDout [b] (countDout s)

/-- An edge in the response phase: the beat offered is transferred to a ready sink and otherwise stays offered (R51). -/
def responseEdge (k : Pace) (s : State) : State :=
  if offers k s then if s.rspReady then sendRsp s else offerBeat s else s

/-- An edge in the digest phase, likewise on DOUT. -/
def digestEdge (k : Pace) (s : State) : State :=
  if offers k s then if s.doutReady then sendDout s else offerBeat s else s

/-- An edge at a command boundary: the oldest command word is accepted, if there is one and the block is ready. -/
def idleEdge (k : Pace) (s : State) : State :=
  match s.cmd with
  | [] => s
  | c :: rest => if cmdReady k s then acceptEdge k c rest s else s

/-- One rising edge of `clk`, in either adder organisation (R7) and at any pace (R240). -/
def edge (pipelined : Bool) (k : Pace) (s : State) : State :=
  if s.rst then hwReset s
  else if s.fault then s
  else
    match s.hid.phase with
    | .idle => idleEdge k s
    | .decode => decodeEdge k s
    | .payload => payloadEdge pipelined k s
    | .response => responseEdge k s
    | .digest => digestEdge k s

/-- A rising edge at each of the paces `ks` in turn, the pins the host drives held. -/
def edges (pipelined : Bool) : List Pace → State → State
  | [], s => s
  | k :: ks, s => edges pipelined ks (edge pipelined k s)

end Sys2Proof.Machine
end

