-- ==== Sys2Proof/Machine/HostSide.lean ====
section
/-! DEFINITION. The host (spec/00_scope.md R9; spec/70_reset_and_hazards.md R230): a move for each liberty, and none that
breaks a duty of the handshake (HD6, HD9, HD12). DESIGN CHOICE (log entry 18): the other duties are not built into the
moves, since the spec says what the block does where the host breaks them. -/

namespace Sys2Proof.Machine

/-- What the host may do between two steps, or between two edges. -/
inductive HostMove where
  /-- Present a command word on CMD: any word (HD1), also that of a `WRITE` whose length is no multiple of 4, which HD11
  forbids and which faults (log entry 18). -/
  | presentCmd (c : Word32)
  /-- Present a payload byte on DIN (HD2). -/
  | presentDin (b : Byte)
  /-- Drive `dout_ready` (HD3). -/
  | setDoutReady (v : Bool)
  /-- Drive `rsp_ready` (HD3). -/
  | setRspReady (v : Bool)
  /-- Drive `rst` (HD4). It may be lowered with stale beats left on CMD and DIN, which HD13 forbids (log entry 18). -/
  | setRst (v : Bool)
  /-- Withdraw what is presented on CMD; only while `rst` is 1 and hardware reset has been taken (R212; log entry 13). -/
  | withdrawCmd
  /-- Withdraw what is presented on DIN, likewise (R212, HD13). -/
  | withdrawDin
  /-- The DOUT sink empties its buffer, at any time (R71). It is also how a fragment is discarded (R212, HD13), with all
  that the sink holds before it: DESIGN CHOICE, log entry 19. -/
  | emptyDout
  /-- The RSP sink empties its buffer, likewise at any time, also inside a run: DESIGN CHOICE, log entry 17; to discard a
  fragment (R212, HD13), log entry 19. -/
  | emptyRsp
  deriving DecidableEq, Repr

/-- The state after a move, or none where the host has no such move. A presented beat stays the oldest until it is
transferred, so `valid` and the data are stable as R51 asks (HD9); a hardware reset suspends that duty (R212) from the
edge that takes it to the end of `rst`, so that raising and lowering `rst` between two edges withdraws nothing (R235, U2;
log entry 13). What the spec leaves open here is the model's choice: the RSP sink's emptying (log entry 17), the duties that
bind no move (log entry 18), and that a fragment goes only with the whole buffer (log entry 19). -/
def hostMove (m : HostMove) (s : State) : Option State :=
  match m with
  | .presentCmd c => some { s with cmd := s.cmd ++ [c] }
  | .presentDin b => some { s with din := s.din ++ [b] }
  | .setDoutReady v => some { s with doutReady := v }
  | .setRspReady v => some { s with rspReady := v }
  | .setRst v => some { s with rst := v, resetTaken := s.resetTaken && v }
  | .withdrawCmd => if s.resetTaken then some { s with cmd := [] } else none
  | .withdrawDin => if s.resetTaken then some { s with din := [] } else none
  | .emptyDout => some { s with dout := [] }
  | .emptyRsp => some { s with rsp := [] }

/-- What happens next in a system of one host and one block: a move of the host, a step of the transaction level, or a
rising edge of the port level at a pace of the block's. -/
inductive Event where
  | host (m : HostMove)
  | block
  | clock (k : Pace)
  deriving DecidableEq, Repr

/-- The state after an event; none where there is no such move, or where the step gives no next state. The adder
organisation is a parameter of the block (R7 `PIPELINED`), so it stands before the event: a run has one for all its edges
(log entry 16). -/
def event (pipelined : Bool) (e : Event) (s : State) : Option State :=
  match e with
  | .host m => hostMove m s
  | .block =>
    match step s with
    | .next t => some t
    | .fault _ => none
    | .refused _ => none
  | .clock k => some (edge pipelined k s)

/-- The state after a list of events, in order. -/
def events (pipelined : Bool) : List Event → State → Option State
  | [], s => some s
  | e :: es, s =>
    match event pipelined e s with
    | some t => events pipelined es t
    | none => none

end Sys2Proof.Machine
end

