-- ==== Sys2Proof/Machine/Assembler.lean ====
section
/-! DEFINITION. The assembler's lines (spec/30_encoding.md R89) and pseudo-instructions (R90), each as what the host
does for it. None adds behaviour. Their text form is in Machine/AsmText.lean. -/

namespace Sys2Proof.Machine

/-- A line of a program. -/
inductive AsmLine where
  | reset
  /-- `WRITE <len> : <bytes>`; that there are `len` of them is not checked (R89). -/
  | write (len : Nat) (bytes : List Byte)
  | sum
  | sumw
  | size
  | blksz
  /-- `.word <c>`. -/
  | word (c : Word32)
  /-- `HWRESET`: `rst` for one clock edge. -/
  | hwreset
  | update (bytes : List Byte)
  | writew (ws : List Word32)
  | writel (bytes : List Byte)
  | digest
  | words
  deriving DecidableEq, Repr

/-- The four bytes of an input word, least significant first (R90 `WRITEW`, R56). -/
def bytesOfWord (w : Word32) : List Byte :=
  [w.extractLsb' 0 8, w.extractLsb' 8 8, w.extractLsb' 16 8, w.extractLsb' 24 8]

/-- A command word and its payload, as a pair of what goes on CMD and what goes on DIN. -/
abbrev Presented := Word32 × List Byte

/-- `WRITE` with as many bytes as are listed (R90 `UPDATE`). -/
def updateOf (bytes : List Byte) : Presented := (encode (.write bytes.length), bytes)

/-- `WRITEL` (R90): `WRITE` commands of the largest legal length, the last with what is left; `fuel` bounds their
number. -/
def writelOf : Nat → List Byte → List Presented
  | 0, _ => []
  | fuel + 1, bytes =>
    if bytes.length ≤ Config.lenMaxLegal then [updateOf bytes]
    else updateOf (bytes.take Config.lenMaxLegal) :: writelOf fuel (bytes.drop Config.lenMaxLegal)

/-- What a line presents on CMD and DIN. -/
def AsmLine.presents : AsmLine → List Presented
  | .reset => [(encode .reset, [])]
  | .write len bytes => [(encode (.write len), bytes)]
  | .sum => [(encode .sum, [])]
  | .sumw => [(encode .sumw, [])]
  | .size => [(encode .size, [])]
  | .blksz => [(encode .blksz, [])]
  | .word c => [(c, [])]
  | .hwreset => []
  | .update bytes => [updateOf bytes]
  | .writew ws => [updateOf (ws.flatMap bytesOfWord)]
  | .writel bytes => writelOf (bytes.length / Config.lenMaxLegal + 1) bytes
  | .digest => [(encode .sum, [])]
  | .words => [(encode .sumw, [])]

/-- The host's moves and the block's step for one command with its payload. One step for each command presented: where a
short `WRITE` takes the bytes of later lines, their words lag behind on CMD, and an `HWRESET` comes before them. DESIGN
CHOICE: R89 does not say how lines and waiting commands interleave (log entry 15). -/
def presentEvents (p : Presented) : List Event :=
  .host (.presentCmd p.1) :: p.2.map (fun b => Event.host (.presentDin b)) ++ [.block]

/-- The events of a line: `HWRESET` holds `rst` for one edge; any other presents its commands, each followed by a step
of the block. DESIGN CHOICE (log entry 15): `HWRESET` withdraws nothing, so the words and bytes that a line that faults,
or a short `WRITE`, leaves on CMD and DIN are still there after it, and the step of the next line runs the oldest word
left over. -/
def AsmLine.events : AsmLine → List Event
  | .hwreset => [.host (.setRst true), .block, .host (.setRst false)]
  | line => line.presents.flatMap presentEvents

/-- A program's events, its lines top to bottom (R89). -/
def assemble (lines : List AsmLine) : List Event := lines.flatMap AsmLine.events

end Sys2Proof.Machine
end

