-- ==== Sys2Proof/Machine/Fairness.lean ====
section
/-! DEFINITION. Runs without end at the port level, weak fairness of what the block does of its own accord, and the host's
duties about time (spec/70_reset_and_hazards.md R241, R230 HD7 and HD8). -/

namespace Sys2Proof.Machine

/-- What the block does of its own accord, as `Pace` lists it. -/
inductive OwnAction where
  | accept
  | decode
  | take
  | offer
  | addB
  | addC
  | addD
  deriving DecidableEq, Repr

/-- The pace has the block do it. -/
def Pace.grants (k : Pace) : OwnAction → Bool
  | .accept => k.accept
  | .decode => k.decode
  | .take => k.take
  | .offer => k.offer
  | .addB => k.addB
  | .addC => k.addC
  | .addD => k.addD

/-- The block may do it now: raise a ready or a valid (R53), decode the word held (R37), or make an addition owed whose
right neighbour does not still wait for the old value (R132). -/
def OwnAction.enabled (a : OwnAction) (s : State) : Bool :=
  !s.rst && !s.fault &&
    match a with
    | .accept => s.hid.phase == .idle
    | .decode => s.hid.phase == .decode
    | .take => s.hid.phase == .payload && s.hid.remaining != 0#28 && (s.hid.held.length != 3 || !s.hid.va)
    | .offer => s.hid.phase == .response || s.hid.phase == .digest
    | .addB => s.hid.va && !s.hid.vb
    | .addC => s.hid.vb && !s.hid.vc
    | .addD => s.hid.vc

/-- The event is a rising edge of `clk`. -/
def Event.isEdge : Event → Bool
  | .host _ => false
  | .block => false
  | .clock _ => true

/-- A run without end at the port level: `es n` is the event that leads from `ss n` to `ss (n + 1)`, no event is a step of
the transaction level, and `clk` never stops. -/
structure PortRun (pipelined : Bool) (es : Nat → Event) (ss : Nat → State) : Prop where
  next : ∀ n, event pipelined (es n) (ss n) = some (ss (n + 1))
  port : ∀ n, es n ≠ .block
  clock : ∀ n, ∃ m, n ≤ m ∧ (es m).isEdge = true

/-- Weak fairness of the block's own steps (R241): none stays possible for ever without being done at some edge. -/
def WeaklyFair (es : Nat → Event) (ss : Nat → State) : Prop :=
  ∀ (a : OwnAction) (n : Nat), ∃ m, n ≤ m ∧
    (a.enabled (ss m) = false ∨ ∃ k, es m = .clock k ∧ k.grants a = true)

/-- The sink of the beat owed is ready. -/
def State.sinkReady (s : State) : Bool :=
  match s.hid.phase with
  | .idle => true
  | .decode => true
  | .payload => true
  | .response => s.rspReady
  | .digest => s.doutReady

/-- HD7: a `WRITE` that wants payload is not left without it for ever. -/
def SuppliesPayload (ss : Nat → State) : Prop :=
  ∀ n, ∃ m, n ≤ m ∧ ((ss m).din ≠ [] ∨ (ss m).hid.phase ≠ .payload ∨ (ss m).hid.remaining = 0#28)

/-- HD8: a beat offered is not left waiting for ever. -/
def AcceptsBeats (es : Nat → Event) (ss : Nat → State) : Prop :=
  ∀ n, ∃ m, n ≤ m ∧ ((ss m).hid.offered = false ∨ ((es m).isEdge = true ∧ (ss m).sinkReady = true))

end Sys2Proof.Machine
end

