-- ==== Sys2Proof/Safety.lean ====
section
/-! DEFINITION. The terms claims are stated in: command boundary, halted, stuck, ended well (spec/60_exceptions.md R187,
R194, R195), the invariant of the state (spec/10_state.md R27 to R29, R39), and the words written so far (R22). -/

namespace Sys2Proof.Machine

/-- A command boundary of a running block out of hardware reset: the state in which the sequencer accepts a command
(R53, R64). -/
structure State.AtBoundary (s : State) : Prop where
  rst : s.rst = false
  fault : s.fault = false
  hid : s.hid = Hidden.idle

/-- Halted (R187). -/
abbrev State.Halted (s : State) : Prop := s.fault = true

/-- Waiting for payload inside a `WRITE` (R137). -/
abbrev State.WaitsForPayload (s : State) : Prop :=
  s.hid.phase = .payload ∧ s.din = [] ∧ s.hid.remaining ≠ 0#28

/-- Waiting with a beat offered for a sink that is not ready (R194). -/
abbrev State.WaitsForSink (s : State) : Prop :=
  s.hid.offered = true ∧
    ((s.hid.phase = .response ∧ s.rspReady = false) ∨ (s.hid.phase = .digest ∧ s.doutReady = false))

/-- Stuck unless the host acts (R194): not halted, in a command, and waiting, with no addition owed. -/
abbrev State.Stuck (s : State) : Prop :=
  s.rst = false ∧ s.fault = false ∧ (s.WaitsForPayload ∨ s.WaitsForSink) ∧ s.adders.settled = true

/-- A run has ended well here (R195): every command word presented was accepted, the last one is complete, and no fault
has ever been recorded. DESIGN CHOICE (log entry 14): R195 has hardware reset start a new run, and the run judged here is
of the words presented and not withdrawn, those accepted before a hardware reset counted as over even where the reset
abandoned the last of them. -/
abbrev State.EndedWell (s : State) : Prop :=
  s.cmd = [] ∧ s.hid.phase = .idle ∧ s.fault = false ∧ s.faultSeen = false

/-- The held word is that of a `WRITE` with a legal length (R121). -/
def alignedWriteWord (c : Word32) : Bool := opField c == 0x2#4 && !misaligned (lenField c)

/-- The word decodes to `ILLEGAL` (R86). -/
def illegalWord (c : Word32) : Bool :=
  match decode c with
  | .ok _ => false
  | .error _ => true

/-- The word is that of a `WRITE` with a length that is no multiple of 4 (R121). -/
def misalignedWriteWord (c : Word32) : Bool := opField c == 0x2#4 && misaligned (lenField c)

/-- The hidden state inside the decode phase: the command word is held, and the rest is as at a command boundary. -/
def Hidden.DecodeOk (h : Hidden) : Prop := ∃ c, h = { Hidden.idle with phase := .decode, cmdWord := some c }

/-- The hidden state inside the payload phase: a legal `WRITE` is held, the bytes held and the bytes missing are together
a multiple of 4 and no more than `LEN`, the assembler holds at most 3 bytes (R33, R34, R122), and no beat is offered. -/
structure Hidden.PayloadOk (h : Hidden) : Prop where
  word : ∃ c, h.cmdWord = some c ∧ alignedWriteWord c = true ∧ h.held.length + h.remaining.toNat ≤ lenField c
  held : h.held.length ≤ 3
  whole : (h.held.length + h.remaining.toNat) % 4 = 0
  sumIdx : h.sumIdx = 0#5
  sumwIdx : h.sumwIdx = 0#2
  offered : h.offered = false

/-- Outside the payload phase the assembler is empty, the counter is 0 and no addition is owed (R122, R132). -/
structure Hidden.WriteIdle (h : Hidden) : Prop where
  held : h.held = []
  remaining : h.remaining = 0#28
  va : h.va = false
  vb : h.vb = false
  vc : h.vc = false

/-- The hidden state inside the response phase: a command that answers on RSP is held, and only `SUMW` counts its beats
(R35). -/
structure Hidden.ResponseOk (h : Hidden) : Prop where
  word : (∃ c, h.cmdWord = some c ∧ alignedWriteWord c = true) ∨ h.cmdWord = some (encode .sumw) ∨
    h.cmdWord = some (encode .size) ∨ h.cmdWord = some (encode .blksz)
  idx : h.cmdWord ≠ some (encode .sumw) → h.sumwIdx = 0#2
  sumIdx : h.sumIdx = 0#5
  idle : h.WriteIdle

/-- The hidden state inside the digest phase: `SUM` is held. -/
structure Hidden.DigestOk (h : Hidden) : Prop where
  word : h.cmdWord = some (encode .sum)
  sumwIdx : h.sumwIdx = 0#2
  idle : h.WriteIdle

/-- What every state of the machine meets: the fault registers agree (R27, R28, R29, R180), a fault is on record (R195),
beats can be withdrawn only while `rst` is 1 (R212), and the hidden state is idle when halted and at a command boundary,
and fits its phase inside a command (R39). -/
structure State.Inv (s : State) : Prop where
  clear : s.fault = false → s.cause = 0#2 ∧ s.finfo = 0#32
  latched : s.fault = true → (s.cause = 1#2 ∧ misalignedWriteWord s.finfo = true) ∨
    (s.cause = 2#2 ∧ illegalWord s.finfo = true)
  seen : s.fault = true → s.faultSeen = true
  taken : s.resetTaken = true → s.rst = true
  halted : s.fault = true → s.hid = Hidden.idle
  idle : s.hid.phase = .idle → s.hid = Hidden.idle
  decode : s.hid.phase = .decode → s.hid.DecodeOk
  payload : s.hid.phase = .payload → s.hid.PayloadOk
  response : s.hid.phase = .response → s.hid.ResponseOk
  digest : s.hid.phase = .digest → s.hid.DigestOk

/-- The parallel stage never owes an addition (R131); the pipeline may (R132). -/
abbrev State.Fits (pipelined : Bool) (s : State) : Prop := pipelined = false → s.adders.settled = true

/-- `n` steps of the block with no move of the host between them; none where one of them gives no next state. -/
def steps : Nat → State → Option State
  | 0, s => some s
  | n + 1, s =>
    match step s with
    | .next t => steps n t
    | .fault _ => none
    | .refused _ => none

/-- The pipeline over a list of edges, each with its pace and the word that is there for it: a word enters only at an edge
that takes one (R132). The registers at the end, and the words that entered. -/
def feedStages : List (Pace × Option Word32) → AdderStage → AdderStage × List Word32
  | [], q => (q, [])
  | (k, w) :: rest, q =>
    let win := if q.takesWord k then w else none
    let r := feedStages rest (stagesEdge k win q)
    (r.1, win.toList ++ r.2)

/-- What happens at the ports out of hardware reset: the host presents beats and drives the ready pins (HD1, HD2, HD3), and
clock edges come at any pace. -/
def Event.atPorts : Event → Bool
  | .host (.presentCmd _) => true
  | .host (.presentDin _) => true
  | .host (.setDoutReady _) => true
  | .host (.setRspReady _) => true
  | .host (.setRst _) => false
  | .host .withdrawCmd => false
  | .host .withdrawDin => false
  | .host .emptyDout => false
  | .host .emptyRsp => false
  | .block => false
  | .clock _ => true

/-- The command words presented in a list of events. -/
def commandsIn : List Event → List Word32
  | [] => []
  | .host (.presentCmd c) :: es => c :: commandsIn es
  | _ :: es => commandsIn es

/-- The payload bytes presented in a list of events. -/
def bytesIn : List Event → List Byte
  | [] => []
  | .host (.presentDin b) :: es => b :: bytesIn es
  | _ :: es => bytesIn es

/-- The state with `cs` and `bs` presented as well and both sinks ready: the transaction level's lists (R8). -/
def State.supplied (s : State) (cs : List Word32) (bs : List Byte) : State :=
  { s with cmd := s.cmd ++ cs, din := s.din ++ bs, doutReady := true, rspReady := true }

/-- The word and the bytes of a line of one command (R89, R90, R82); none for `HWRESET`, which presents none, and for
`WRITEL`, which may present several. -/
def AsmLine.oneCommand : AsmLine → Option (Word32 × List Byte)
  | .reset => some (0x10000000#32, [])
  | .write len bytes => some (0x20000000#32 + BitVec.ofNat 32 len, bytes)
  | .sum => some (0x30000000#32, [])
  | .sumw => some (0x40000000#32, [])
  | .size => some (0x50000000#32, [])
  | .blksz => some (0x60000000#32, [])
  | .word c => some (c, [])
  | .hwreset => none
  | .update bytes => some (0x20000000#32 + BitVec.ofNat 32 bytes.length, bytes)
  | .writew ws => some (0x20000000#32 + BitVec.ofNat 32 (4 * ws.length), ws.flatMap bytesOfWord)
  | .writel _ => none
  | .digest => some (0x30000000#32, [])
  | .words => some (0x40000000#32, [])

/-- How many payload bytes a list of commands takes from DIN, up to the first that faults. -/
def payloadOf : List Instr → Nat
  | [] => 0
  | .write len :: is => if misaligned len then 0 else len + payloadOf is
  | .reset :: is => payloadOf is
  | .sum :: is => payloadOf is
  | .sumw :: is => payloadOf is
  | .size :: is => payloadOf is
  | .blksz :: is => payloadOf is

/-- The input words of every `WRITE` completed since the last `RESET` (R22), when the commands `is` run over the payload
`din` after the words `ws`: a faulting `WRITE` adds none, and nothing runs after it. -/
def wordsSince (ws : List Word32) : List Instr → List Byte → List Word32
  | [], _ => ws
  | .reset :: is, din => wordsSince [] is din
  | .write len :: is, din =>
    if misaligned len then ws else wordsSince (ws ++ wordsOf (din.take len)) is (din.drop len)
  | .sum :: is, din => wordsSince ws is din
  | .sumw :: is, din => wordsSince ws is din
  | .size :: is, din => wordsSince ws is din
  | .blksz :: is, din => wordsSince ws is din

/-- The sum over the words, numbered as R129 numbers them from 1 to `n`, of `C(n-i+k, k) * w_i`. -/
def weightedSum (k : Nat) : List Word32 → Nat
  | [] => 0
  | w :: ws => Nat.choose (ws.length + k) k * w.toNat + weightedSum k ws

end Sys2Proof.Machine
end

