-- ==== Sys2Proof/Certificates/Slice0/Obligations.lean ====
section
/-! DEFINITION. The statements for the provers. Each docstring names the rule of spec/ it formalises.

In a whole next state `faultSeen` is the record of a fault that R195 asks of a model with a reset move, `offered` says
that a beat's valid has been raised (R51; log entry 12), and `resetTaken` that the host may withdraw beats (R212; log entry
13). `p` is the adder organisation and `k` the block's pace at an edge: statements hold for every one (R7, R240). -/

open Sys2Proof Sys2Proof.Machine

/-! ### The word step and the adder stage -/

/-- R123: the four additions, each modulo 2^64 and each with the value just computed; the same with the old values only;
the rule's example. -/
def Obligations.FoldCascadesModulo64 : Prop :=
  (∀ (x : Acc) (w : Word32),
    (fold x w).a.toNat = (x.a.toNat + w.toNat) % 2 ^ 64 ∧
    (fold x w).b.toNat = (x.b.toNat + (fold x w).a.toNat) % 2 ^ 64 ∧
    (fold x w).c.toNat = (x.c.toNat + (fold x w).b.toNat) % 2 ^ 64 ∧
    (fold x w).d.toNat = (x.d.toNat + (fold x w).c.toNat) % 2 ^ 64 ∧
    (fold x w).b.toNat = (x.b.toNat + x.a.toNat + w.toNat) % 2 ^ 64 ∧
    (fold x w).c.toNat = (x.c.toNat + x.b.toNat + x.a.toNat + w.toNat) % 2 ^ 64 ∧
    (fold x w).d.toNat = (x.d.toNat + x.c.toNat + x.b.toNat + x.a.toNat + w.toNat) % 2 ^ 64) ∧
  fold { a := 1#64, b := 2#64, c := 3#64, d := 4#64 } 0#32 = { a := 1#64, b := 3#64, c := 6#64, d := 10#64 }

/-- R133: the input word is added with its upper 32 bits 0, never sign-extended; the other three adders add two 64-bit
values. -/
def Obligations.InputWordIsZeroExtended : Prop :=
  (∀ (x : Acc) (w : Word32),
    (zext64 w).toNat = w.toNat ∧ (zext64 w).extractLsb' 32 32 = 0#32 ∧
    (fold x w).a = x.a + zext64 w ∧ (fold x w).b = x.b + (fold x w).a ∧
    (fold x w).c = x.c + (fold x w).b ∧ (fold x w).d = x.d + (fold x w).c) ∧
  (fold Acc.zero 0xFFFFFFFF#32).a = 0x00000000FFFFFFFF#64 ∧
  (fold Acc.zero 0x80000000#32).a = 0x0000000080000000#64

/-- R134: every addition is modulo 2^64 with the carry dropped; no payload raises a fault or another beat; from a fresh
state and words 0xFFFFFFFF, `d` is the exact sum before the 566th word and not at it, `a` before the 4294967298th and not
at it. -/
def Obligations.OverflowWrapsSilently : Prop :=
  (∀ x y : Word64, (add64 x y).toNat = (x.toNat + y.toNat) % 2 ^ 64) ∧
  (∀ (s : State) (len : Nat), s.AtBoundary → s.rspReady = true → len % 4 = 0 → len ≤ 268435455 → len ≤ s.din.length →
    ∃ t, exec (.write len) s = .next t ∧ t.fault = false ∧ t.rsp = s.rsp ++ [BitVec.ofNat 64 len]) ∧
  fold { a := BitVec.allOnes 64, b := BitVec.allOnes 64, c := BitVec.allOnes 64, d := BitVec.allOnes 64 } 1#32 =
    { a := 0#64, b := BitVec.allOnes 64, c := BitVec.allOnes 64 - 1#64, d := BitVec.allOnes 64 - 2#64 } ∧
  fold { a := BitVec.allOnes 64, b := 0#64, c := 0#64, d := 0#64 } 1#32 = Acc.zero ∧
  (∀ n, n < 566 → (foldAll Acc.zero (List.replicate n 0xFFFFFFFF#32)).d.toNat = Nat.choose (n + 3) 4 * 4294967295) ∧
  2 ^ 64 ≤ Nat.choose (566 + 3) 4 * 4294967295 ∧
  (∀ n, n < 4294967298 → (foldAll Acc.zero (List.replicate n 0xFFFFFFFF#32)).a.toNat = n * 4294967295) ∧
  2 ^ 64 ≤ 4294967298 * 4294967295

/-- R129: the closed form of the four sums after any list of words from any state; the two-word case; the
weight of a word with `j` words after it is no smaller than that of one with `i ≤ j`, and the last word's is 1. -/
def Obligations.FoldAllClosedForm : Prop :=
  (∀ (x : Acc) (ws : List Word32),
    (foldAll x ws).a.toNat = (x.a.toNat + weightedSum 0 ws) % 2 ^ 64 ∧
    (foldAll x ws).b.toNat = (x.b.toNat + ws.length * x.a.toNat + weightedSum 1 ws) % 2 ^ 64 ∧
    (foldAll x ws).c.toNat =
      (x.c.toNat + ws.length * x.b.toNat + Nat.choose (ws.length + 1) 2 * x.a.toNat + weightedSum 2 ws) % 2 ^ 64 ∧
    (foldAll x ws).d.toNat =
      (x.d.toNat + ws.length * x.c.toNat + Nat.choose (ws.length + 1) 2 * x.b.toNat +
        Nat.choose (ws.length + 2) 3 * x.a.toNat + weightedSum 3 ws) % 2 ^ 64) ∧
  (∀ v w : Word32, weightedSum 0 [v, w] = v.toNat + w.toNat ∧ weightedSum 1 [v, w] = 2 * v.toNat + w.toNat ∧
    weightedSum 2 [v, w] = 3 * v.toNat + w.toNat ∧ weightedSum 3 [v, w] = 4 * v.toNat + w.toNat) ∧
  (∀ k i j : Nat, i ≤ j → Nat.choose (i + k) k ≤ Nat.choose (j + k) k ∧ Nat.choose (0 + k) k = 1)

/-- R131: the parallel stage gives the word step, and in that organisation an edge loads all four registers with it. -/
def Obligations.ParallelStageIsFold : Prop :=
  ∀ (p : AdderStage) (w : Word32) (k : Pace),
    parallelStep p.acc w = fold p.acc w ∧
    parallelStep p.acc w =
      { a := p.acc.a + zext64 w
        b := p.acc.b + p.acc.a + zext64 w
        c := p.acc.c + p.acc.b + p.acc.a + zext64 w
        d := p.acc.d + p.acc.c + p.acc.b + p.acc.a + zext64 w } ∧
    addersEdge false k (some w) p = { p with acc := fold p.acc w } ∧ addersEdge false k none p = p

/-- R132: whatever words enter the pipeline at whatever edges, after the three edges of the drain nothing is owed and the
registers hold `FoldAll` of the words; the same at every pace of the stages, where a word enters only at an edge that takes
one; at full pace an edge is the rule's `PipeEdge` and takes any word. -/
def Obligations.PipelineDrainsToFoldAll : Prop :=
  ∀ (p : AdderStage), p.settled = true →
    (∀ ins : List (Option Word32),
      (drain (ins.foldl (fun q w => pipeEdge w q) p)).acc = foldAll p.acc (ins.filterMap id) ∧
      (drain (ins.foldl (fun q w => pipeEdge w q) p)).settled = true) ∧
    (∀ ins : List (Pace × Option Word32),
      (drain (feedStages ins p).1).acc = foldAll p.acc (feedStages ins p).2 ∧
      (drain (feedStages ins p).1).settled = true) ∧
    (∀ (win : Option Word32) (q : AdderStage),
      stagesEdge Pace.full win q = pipeEdge win q ∧ q.takesWord Pace.full = true)

/-! ### Byte order: the word assembler and the serializer -/

/-- R56: four bytes make a little-endian word, the first byte its bits 7:0, the fourth its bits 31:24; the rule's
example. -/
def Obligations.InputWordsAreLittleEndian : Prop :=
  (∀ (b0 b1 b2 b3 : Byte) (rest : List Byte),
    (wordsOf (b0 :: b1 :: b2 :: b3 :: rest)).head? = some (le32 b0 b1 b2 b3) ∧
    (le32 b0 b1 b2 b3).extractLsb' 0 8 = b0 ∧ (le32 b0 b1 b2 b3).extractLsb' 8 8 = b1 ∧
    (le32 b0 b1 b2 b3).extractLsb' 16 8 = b2 ∧ (le32 b0 b1 b2 b3).extractLsb' 24 8 = b3 ∧
    (le32 b0 b1 b2 b3).toNat = b0.toNat + 2 ^ 8 * b1.toNat + 2 ^ 16 * b2.toNat + 2 ^ 24 * b3.toNat) ∧
  wordsOf [1#8, 2#8, 3#8, 4#8] = [0x04030201#32]

/-- R122: word `i` of a payload is made of its bytes `4i` to `4i+3`; the assembler, fed the payload byte by byte from
empty, folds exactly these words, holds at most 3 bytes at any time, and is empty after a multiple of 4 bytes and at
every command boundary. -/
def Obligations.AssemblerMakesConsecutiveWords : Prop :=
  (∀ s : State, s.Inv → s.hid.phase = .idle → s.hid.held = []) ∧
  ∀ (x : Acc) (p : List Byte),
    (wordsOf p).length = p.length / 4 ∧
    (∀ i, (h : 4 * i + 3 < p.length) →
      (wordsOf p)[i]? = some (le32 p[4 * i] p[4 * i + 1] p[4 * i + 2] p[4 * i + 3])) ∧
    (feedBytes (x, []) p).1 = foldAll x (wordsOf p) ∧
    (feedBytes (x, []) p).2.length ≤ 3 ∧
    (p.length % 4 = 0 → (feedBytes (x, []) p).2 = [])

/-- R57 and R161: the digest is LE64 of the four sums in order, byte `k` is bits `8(k mod 8)+7 : 8(k mod 8)` of
accumulator `k div 8`, it always has 32 bytes, the number `SIZE` reports, and `SUM` transfers it on DOUT byte 0 first. -/
def Obligations.DigestIsLittleEndianAndThirtyTwoBytes : Prop :=
  (∀ x : Acc,
    digest x = le64 x.a ++ le64 x.b ++ le64 x.c ++ le64 x.d ∧
    (∀ k : Fin 8, (digest x)[k.val]? = some (x.a.extractLsb' (8 * k.val) 8) ∧
      (digest x)[8 + k.val]? = some (x.b.extractLsb' (8 * k.val) 8) ∧
      (digest x)[16 + k.val]? = some (x.c.extractLsb' (8 * k.val) 8) ∧
      (digest x)[24 + k.val]? = some (x.d.extractLsb' (8 * k.val) 8)) ∧
    (digest x).length = 32) ∧
  (∀ s : State, s.AtBoundary → s.rspReady = true → s.doutReady = true →
    exec .size s = .next { s with rsp := s.rsp ++ [32#64] } ∧
    exec .sum s = .next { s with dout := s.dout ++ digest s.acc })

/-! ### Decoding -/

/-- R87: the encoder's words, and that decoding and encoding are inverse both ways; what is decoded is well-formed. -/
def Obligations.DecodeAndEncodeAreInverse : Prop :=
  (encode .reset = 0x10000000#32 ∧ (∀ len, len ≤ 268435455 → (encode (.write len)).toNat = 0x20000000 + len) ∧
    encode .sum = 0x30000000#32 ∧ encode .sumw = 0x40000000#32 ∧ encode .size = 0x50000000#32 ∧
    encode .blksz = 0x60000000#32) ∧
  (∀ i : Instr, i.WellFormed → decode (encode i) = .ok i) ∧
  (∀ (c : Word32) (i : Instr), decode c = .ok i → encode i = c ∧ i.WellFormed)

/-- R82: a word selects a row of the opcode map exactly when its masked bits match; no two rows overlap (a word decodes
to one command); the words no row selects are those of R83 and R84. -/
def Obligations.OpcodeMapCoversAllWords : Prop :=
  ∀ c : Word32,
    (decode c = .ok .reset ↔ c &&& 0xFFFFFFFF#32 = 0x10000000#32) ∧
    (decode c = .ok (.write (lenField c)) ↔ c &&& 0xF0000000#32 = 0x20000000#32) ∧
    (decode c = .ok .sum ↔ c &&& 0xFFFFFFFF#32 = 0x30000000#32) ∧
    (decode c = .ok .sumw ↔ c &&& 0xFFFFFFFF#32 = 0x40000000#32) ∧
    (decode c = .ok .size ↔ c &&& 0xFFFFFFFF#32 = 0x50000000#32) ∧
    (decode c = .ok .blksz ↔ c &&& 0xFFFFFFFF#32 = 0x60000000#32) ∧
    (illegalWord c = true ↔
      (opField c = 0x0#4 ∨ 0x7#4 ≤ opField c) ∨
      ((opField c = 0x1#4 ∨ opField c = 0x3#4 ∨ opField c = 0x4#4 ∨ opField c = 0x5#4 ∨ opField c = 0x6#4) ∧
        lenField c ≠ 0))

/-- Sanity: words written out from the spec's encodings (30_encoding.md R82; vectors E1, E4, E8, E20) decode as it
says. -/
def Obligations.SpecWordsDecode : Prop :=
  decode 0x10000000#32 = .ok .reset ∧ decode 0x20000004#32 = .ok (.write 4) ∧ decode 0x2000000C#32 = .ok (.write 12) ∧
  decode 0x30000000#32 = .ok .sum ∧ decode 0x40000000#32 = .ok .sumw ∧ decode 0x50000000#32 = .ok .size ∧
  decode 0x60000000#32 = .ok .blksz ∧ illegalWord 0x00000000#32 = true ∧ illegalWord 0x10000001#32 = true ∧
  illegalWord 0x70000000#32 = true

/-! ### The sequencer -/

/-- A step at a command boundary runs the decoded command: the word leaves CMD, the command index counts it, and the
rest is `exec` (R25, R86). A clock edge that accepts the word counts it too and, by its pace, decodes it or only holds it
(R37), and the edge that decodes a word held begins its command; a step runs a word held as one just accepted. That
the pace decides which edge decodes is the model's choice, log entry 10. -/
def Obligations.StepRunsDecodedCommand : Prop :=
  (∀ (s : State) (c : Word32) (rest : List Word32) (i : Instr), s.AtBoundary → s.cmd = c :: rest → decode c = .ok i →
    i.WellFormed ∧ step s = exec i { s with cmd := rest, ci := s.ci + 1 } ∧
    ∀ (p : Bool) (k : Pace), k.accept = true →
      edge p k s =
        if k.decode then beginInstr i { s with cmd := rest, ci := s.ci + 1 }
        else
          { s with
            cmd := rest, ci := s.ci + 1, hid := { Hidden.idle with phase := .decode, cmdWord := some c } }) ∧
  (∀ (s : State) (c : Word32) (i : Instr), s.rst = false → s.fault = false → s.hid.phase = .decode →
    s.hid.cmdWord = some c → decode c = .ok i →
    step s = exec i { s with hid := Hidden.idle } ∧
    ∀ (p : Bool) (k : Pace), edge p k s = if k.decode then beginInstr i { s with hid := Hidden.idle } else s)

/-- R83: a reserved opcode, whatever its length, raises IllegalCommand and has no other effect; the all-zero word is
one. -/
def Obligations.ReservedOpcodeRaisesIllegalCommand : Prop :=
  (∀ (s : State) (c : Word32) (rest : List Word32), s.AtBoundary → s.cmd = c :: rest →
    (opField c = 0x0#4 ∨ 0x7#4 ≤ opField c) →
    step s = .next { s with cmd := rest, ci := s.ci + 1, fault := true, cause := 2#2, finfo := c, faultSeen := true }) ∧
  opField 0x00000000#32 = 0x0#4

/-- R84: a nonzero length on an opcode other than that of `WRITE` raises IllegalCommand and has no other effect. -/
def Obligations.ReservedLengthRaisesIllegalCommand : Prop :=
  ∀ (s : State) (c : Word32) (rest : List Word32), s.AtBoundary → s.cmd = c :: rest →
    (opField c = 0x1#4 ∨ opField c = 0x3#4 ∨ opField c = 0x4#4 ∨ opField c = 0x5#4 ∨ opField c = 0x6#4) →
    lenField c ≠ 0 →
    step s = .next { s with cmd := rest, ci := s.ci + 1, fault := true, cause := 2#2, finfo := c, faultSeen := true }

/-- The command index counts every command word accepted, completed or faulting, and nothing else but hardware reset
changes it: no other step, no clock edge but by the words it transfers on CMD, and no move of the host (10_state.md section
2). -/
def Obligations.CommandIndexCountsAcceptedWords : Prop :=
  (∀ (s : State) (c : Word32) (rest : List Word32), s.AtBoundary → s.cmd = c :: rest →
    ∃ t, step s = .next t ∧ t.ci = s.ci + 1 ∧ t.cmd = rest) ∧
  (∀ s t : State, step s = .next t → s.rst = false → s.cmd = t.cmd → t.ci = s.ci) ∧
  (∀ s t : State, step s = .next t → s.rst = true → t.ci = 0) ∧
  (∀ (s : State) (p : Bool) (k : Pace),
    (s.rst = false → (edge p k s).ci = s.ci + (transfers k s).cmd.toList.length) ∧
    (s.rst = true → (edge p k s).ci = 0)) ∧
  (∀ (s t : State) (m : HostMove), hostMove m s = some t → t.ci = s.ci)

/-- Every step, and every command a word holds, answers a next state: no state stops the machine (60_exceptions.md
sections 1, 4, 7). That a halted, an idle and a waiting block have a next state, where the spec lets a model have no step,
is the model's choice, and so is the refusal, by name, of the one term of `Instr` that is no command, a length above
`LEN_MAX`: log entry 2. No word holds such a length (30_encoding.md section 2, R81). -/
def Obligations.EveryStepHasNextState : Prop :=
  (∀ s : State, ∃ t, step s = .next t) ∧
  (∀ (s : State) (c : Word32) (i : Instr), decode c = .ok i → ∃ t, exec i s = .next t) ∧
  (∀ (s : State) (len : Nat), 268435455 < len →
    exec (.write len) s = .refused (.illFormed "WRITE") ∧ ∀ c : Word32, decode c ≠ .ok (.write len))

/-! ### RESET -/

/-- R111: `RESET` sets the four accumulators to 0 and changes nothing else; twice is once; with a length it is illegal; a
halted block does not accept it; the rule's worked example with the `SUMW` that follows. -/
def Obligations.ResetZeroesAccumulators : Prop :=
  decode 0x10000000#32 = .ok .reset ∧
  (∀ c : Word32, opField c = 0x1#4 → lenField c ≠ 0 → illegalWord c = true) ∧
  (∀ s : State, s.AtBoundary → exec .reset s = .next { s with acc := { a := 0#64, b := 0#64, c := 0#64, d := 0#64 } }) ∧
  (∀ s t : State, s.AtBoundary → exec .reset s = .next t → exec .reset t = .next t) ∧
  (∀ (s : State) (rest : List Word32), s.rst = false → s.fault = true → s.cmd = 0x10000000#32 :: rest →
    step s = .next s) ∧
  (∀ (s : State) (rest : List Word32), s.AtBoundary → s.rspReady = true →
    s.acc = { a := 0x0c0a0806#64, b := 0x100d0a07#64, c := 0x14100c08#64, d := 0x18130e09#64 } →
    s.cmd = 0x10000000#32 :: 0x40000000#32 :: rest →
    steps 2 s =
      some { s with acc := Acc.zero, cmd := rest, ci := s.ci + 2, rsp := s.rsp ++ [0#64, 0#64, 0#64, 0#64] })

/-- `RESET` and hardware reset leave the same block, but for the command index (40_reset_cmd.md section 2, R112); only after
hardware reset may the host withdraw beats. -/
def Obligations.ResetCommandMatchesHardwareReset : Prop :=
  ∀ s : State, s.Inv → s.AtBoundary →
    exec .reset s = .next { hwReset s with ci := s.ci, resetTaken := false } ∧
    exec .reset s = .next { s with acc := Acc.zero }

/-! ### WRITE -/

/-- `WRITE` with its whole payload presented and a ready sink: the words folded in order, exactly `LEN` bytes consumed,
one beat with the count, nothing else changed (41_write.md sections 1 to 4). -/
def Obligations.WriteFoldsItsPayload : Prop :=
  ∀ (s : State) (len : Nat), s.AtBoundary → s.rspReady = true → len % 4 = 0 → len ≤ 268435455 → len ≤ s.din.length →
    exec (.write len) s = .next
      { s with
        acc := foldAll s.acc (wordsOf (s.din.take len))
        din := s.din.drop len
        rsp := s.rsp ++ [BitVec.ofNat 64 len] }

/-- R124: the words of one `WRITE` in payload order, those of successive ones in command order; the order matters. -/
def Obligations.WordsFoldInStreamOrder : Prop :=
  (∀ (s : State) (m n : Nat), s.AtBoundary → s.rspReady = true → m % 4 = 0 → n % 4 = 0 → m ≤ 268435455 →
    n ≤ 268435455 → m + n ≤ s.din.length →
    ∃ t u, exec (.write m) s = .next t ∧ exec (.write n) t = .next u ∧
      t.acc = foldAll s.acc (wordsOf (s.din.take m)) ∧
      u.acc = foldAll s.acc (wordsOf (s.din.take m) ++ wordsOf ((s.din.drop m).take n))) ∧
  foldAll Acc.zero [1#32, 2#32] = { a := 3#64, b := 4#64, c := 5#64, d := 6#64 } ∧
  foldAll Acc.zero [2#32, 1#32] = { a := 3#64, b := 5#64, c := 7#64, d := 9#64 }

/-- R126: `LEN = 0` is legal; the word 0x20000000 takes no byte, changes no accumulator and answers 0. -/
def Obligations.ZeroLengthWriteAnswersZero : Prop :=
  ∀ (s : State) (rest : List Word32), s.AtBoundary → s.rspReady = true → s.cmd = 0x20000000#32 :: rest →
    step s = .next { s with cmd := rest, ci := s.ci + 1, rsp := s.rsp ++ [0x0000000000000000#64] }

/-- R121: a length that is no multiple of 4 raises MisalignedWrite before anything else: no byte is consumed, no word
folded, no beat produced, the accumulators kept. The same holds at the clock edges from the one at which the word is
presented on, however many there are and at whatever paces: the block never raises `din_ready` or a valid for it, and once
`FAULT` is 1 it is in the state of the step. -/
def Obligations.MisalignedWriteChangesNothingElse : Prop :=
  (∀ (s : State) (len : Nat), s.AtBoundary → len ≤ 268435455 → len % 4 ≠ 0 →
    exec (.write len) s = .next
      { s with fault := true, cause := 1#2, finfo := BitVec.ofNat 32 (0x20000000 + len), faultSeen := true }) ∧
  (∀ (s : State) (c : Word32) (rest : List Word32), s.AtBoundary → s.cmd = c :: rest →
    opField c = 0x2#4 → c.extractLsb' 0 2 ≠ 0b00#2 →
    step s = .next
      { s with cmd := rest, ci := s.ci + 1, fault := true, cause := 1#2, finfo := c, faultSeen := true } ∧
    ∀ (p : Bool) (ks : List Pace) (k : Pace),
      (edges p ks s).acc = s.acc ∧ (edges p ks s).din = s.din ∧ (edges p ks s).rsp = s.rsp ∧
      (edges p ks s).dout = s.dout ∧ dinReady k (edges p ks s) = false ∧ rspPin k (edges p ks s) = none ∧
      doutPin k (edges p ks s) = none ∧ ((edges p ks s).fault = true → step s = .next (edges p ks s)))

/-- R128: a payload written in pieces, each of a multiple of 4 bytes, and written in one command leaves the same
accumulators and takes the same bytes; the response beats differ, one a piece against one for the whole. -/
def Obligations.SplitWritesAreEquivalent : Prop :=
  ∀ (s : State) (ps : List (List Byte)) (rest : List Byte), s.AtBoundary → s.rspReady = true →
    (∀ p ∈ ps, p.length % 4 = 0) → ps.flatten.length ≤ 268435452 → s.din = ps.flatten ++ rest →
    ∃ t u, steps ps.length { s with cmd := ps.map fun p => encode (.write p.length) } = some t ∧
      exec (.write ps.flatten.length) s = .next u ∧ t.acc = u.acc ∧ t.din = rest ∧ u.din = rest ∧
      t.rsp = s.rsp ++ ps.map (fun p => BitVec.ofNat 64 p.length) ∧
      u.rsp = s.rsp ++ [BitVec.ofNat 64 ps.flatten.length]

/-- A payload shorter than `LEN`: the whole words that are there are folded, the odd bytes are held, and the command
waits inside its payload phase; it is no fault (41_write.md section 7, R137). -/
def Obligations.ShortPayloadWaits : Prop :=
  ∀ (s : State) (len : Nat), s.AtBoundary → len % 4 = 0 → len ≤ 268435455 → s.din.length < len →
    exec (.write len) s = .next
      { s with
        acc := foldAll s.acc (wordsOf s.din)
        din := []
        hid :=
          { Hidden.idle with
            phase := .payload
            cmdWord := some (BitVec.ofNat 32 (0x20000000 + len))
            held := s.din.drop (4 * (s.din.length / 4))
            remaining := BitVec.ofNat 28 (len - s.din.length) } }

/-- A payload that arrives in two pieces, wherever it is cut, gives what it gives in one piece (41_write.md section 7,
R137; R130). -/
def Obligations.LatePayloadCompletesTheWrite : Prop :=
  ∀ (s : State) (len : Nat) (q : List Byte), s.AtBoundary → s.rspReady = true → len % 4 = 0 → len ≤ 268435455 →
    s.din.length < len → len ≤ s.din.length + q.length →
    ∃ t, exec (.write len) s = .next t ∧ step { t with din := q } = exec (.write len) { s with din := s.din ++ q }

/-- The count of a `WRITE` waits for a sink that is not ready, with the payload already folded, and is transferred when
the sink is (60_exceptions.md section 7, R194; R52). -/
def Obligations.WriteResponseWaitsForSink : Prop :=
  ∀ (s : State) (len : Nat), s.AtBoundary → s.rspReady = false → len % 4 = 0 → len ≤ 268435455 → len ≤ s.din.length →
    ∃ t, exec (.write len) s = .next t ∧
      t = { s with
        acc := foldAll s.acc (wordsOf (s.din.take len))
        din := s.din.drop len
        hid :=
          { Hidden.idle with
            phase := .response, cmdWord := some (BitVec.ofNat 32 (0x20000000 + len)), offered := true } } ∧
      step { t with rspReady := true } = exec (.write len) { s with rspReady := true }

/-! ### The read-out and constant commands -/

/-- R151: `SUMW` answers with the four accumulators in order and writes no state; with a length it is illegal. -/
def Obligations.SumwAnswersFourWords : Prop :=
  decode 0x40000000#32 = .ok .sumw ∧
  (∀ c : Word32, opField c = 0x4#4 → lenField c ≠ 0 → illegalWord c = true) ∧
  (∀ s : State, s.AtBoundary → s.rspReady = true →
    exec .sumw s = .next { s with rsp := s.rsp ++ [s.acc.a, s.acc.b, s.acc.c, s.acc.d] }) ∧
  (∀ s : State, s.AtBoundary → s.rspReady = true →
    s.acc = { a := 0x0c0a0806#64, b := 0x100d0a07#64, c := 0x14100c08#64, d := 0x18130e09#64 } →
    exec .sumw s = .next { s with
      rsp := s.rsp ++ [0x000000000c0a0806#64, 0x00000000100d0a07#64, 0x0000000014100c08#64, 0x0000000018130e09#64] })

/-- R155: `SUM` emits the 32 bytes of the state's digest on DOUT and writes no state; with a length it is illegal; the
rule's worked example. -/
def Obligations.SumEmitsDigest : Prop :=
  decode 0x30000000#32 = .ok .sum ∧
  (∀ c : Word32, opField c = 0x3#4 → lenField c ≠ 0 → illegalWord c = true) ∧
  (∀ s : State, s.AtBoundary → s.doutReady = true →
    exec .sum s = .next { s with
      dout := s.dout ++ (List.range 32).map fun k => (s.acc.get (Fin.ofNat 4 (k / 8))).extractLsb' (8 * (k % 8)) 8 }) ∧
  (∀ s : State, s.AtBoundary → s.doutReady = true →
    s.acc = { a := 0x0c0a0806#64, b := 0x100d0a07#64, c := 0x14100c08#64, d := 0x18130e09#64 } →
    exec .sum s = .next { s with
      dout := s.dout ++
        [0x06#8, 0x08#8, 0x0a#8, 0x0c#8, 0x00#8, 0x00#8, 0x00#8, 0x00#8,
         0x07#8, 0x0a#8, 0x0d#8, 0x10#8, 0x00#8, 0x00#8, 0x00#8, 0x00#8,
         0x08#8, 0x0c#8, 0x10#8, 0x14#8, 0x00#8, 0x00#8, 0x00#8, 0x00#8,
         0x09#8, 0x0e#8, 0x13#8, 0x18#8, 0x00#8, 0x00#8, 0x00#8, 0x00#8] })

/-- R170: `SIZE` answers 32 in any state and writes none; with a length it is illegal. -/
def Obligations.SizeAnswersThirtyTwo : Prop :=
  decode 0x50000000#32 = .ok .size ∧
  (∀ c : Word32, opField c = 0x5#4 → lenField c ≠ 0 → illegalWord c = true) ∧
  (∀ s : State, s.AtBoundary → s.rspReady = true →
    exec .size s = .next { s with rsp := s.rsp ++ [0x0000000000000020#64] }) ∧
  (∀ x : Acc, (digest x).length = 0x20)

/-- R171: `BLKSZ` answers 4 in any state and writes none; with a length it is illegal; it is the number every length of
a `WRITE` must be divisible by. -/
def Obligations.BlkszAnswersFour : Prop :=
  decode 0x60000000#32 = .ok .blksz ∧
  (∀ c : Word32, opField c = 0x6#4 → lenField c ≠ 0 → illegalWord c = true) ∧
  (∀ s : State, s.AtBoundary → s.rspReady = true →
    exec .blksz s = .next { s with rsp := s.rsp ++ [0x0000000000000004#64] }) ∧
  (∀ len, misaligned len = true ↔ len % Config.blkszConst.toNat ≠ 0)

/-- R160: given at the same command boundary, the digest of `SUM` is LE64 of the four beats of `SUMW`, and each beat is
the weighted sum of its eight digest bytes. -/
def Obligations.SumAndSumwAgree : Prop :=
  ∀ s : State, s.AtBoundary → s.rspReady = true → s.doutReady = true →
    ∃ t u v0 v1 v2 v3 bytes, exec .sumw s = .next t ∧ exec .sum s = .next u ∧ t.rsp = s.rsp ++ [v0, v1, v2, v3] ∧
      u.dout = s.dout ++ bytes ∧ bytes = le64 v0 ++ le64 v1 ++ le64 v2 ++ le64 v3 ∧
      ∀ j : Fin 4, ([v0, v1, v2, v3][j.val]?).map BitVec.toNat =
        some (((List.range 8).map fun i => ((bytes.getD (8 * j.val + i) 0#8).toNat) * 2 ^ (8 * i)).sum)

/-- R159: two `SUM` append two digests, equal with nothing between them, and with a `WRITE` between them those of the
prefix and of the longer stream; a `SUMW` after them still reflects only the writes. -/
def Obligations.RepeatedSumAppends : Prop :=
  (∀ s : State, s.AtBoundary → s.rspReady = true → s.doutReady = true →
    ∃ t u v, exec .sum s = .next t ∧ exec .sum t = .next u ∧ exec .sumw u = .next v ∧
      u = { s with dout := s.dout ++ digest s.acc ++ digest s.acc } ∧
      v.rsp = s.rsp ++ [s.acc.a, s.acc.b, s.acc.c, s.acc.d]) ∧
  (∀ (s : State) (len : Nat), s.AtBoundary → s.rspReady = true → s.doutReady = true → len % 4 = 0 →
    len ≤ 268435455 → len ≤ s.din.length →
    ∃ t u v, exec .sum s = .next t ∧ exec (.write len) t = .next u ∧ exec .sum u = .next v ∧
      v.dout = s.dout ++ digest s.acc ++ digest (foldAll s.acc (wordsOf (s.din.take len))))

/-- A read-out or constant command waits for its sink with nothing lost: it is held with its first beat offered, and when
the sink is ready it answers what it answers to a ready sink (60_exceptions.md section 7, R194; R52;
70_reset_and_hazards.md section 3). -/
def Obligations.AnswersWaitForTheirSink : Prop :=
  (∀ (s : State) (i : Instr), i = .sumw ∨ i = .size ∨ i = .blksz → s.AtBoundary → s.rspReady = false →
    ∃ t, exec i s = .next t ∧
      t = { s with hid := { Hidden.idle with phase := .response, cmdWord := some (encode i), offered := true } } ∧
      step { t with rspReady := true } = exec i { s with rspReady := true }) ∧
  (∀ s : State, s.AtBoundary → s.doutReady = false →
    ∃ t, exec .sum s = .next t ∧
      t = { s with hid := { Hidden.idle with phase := .digest, cmdWord := some (encode .sum), offered := true } } ∧
      step { t with doutReady := true } = exec .sum { s with doutReady := true })

/-! ### Lists of commands -/

/-- R22: however commands are strung together, at the end the accumulators are the fold of the words written since the
last reset; a faulting `WRITE` contributes none. -/
def Obligations.AccumulatorsFoldWordsSinceReset : Prop :=
  ∀ (s : State) (cs : List Instr) (ws : List Word32), s.AtBoundary → s.rspReady = true → s.doutReady = true →
    (∀ i ∈ cs, i.WellFormed) → payloadOf cs ≤ s.din.length → s.acc = foldAll Acc.zero ws → s.cmd = cs.map encode →
    ∃ t, steps cs.length s = some t ∧ t.acc = foldAll Acc.zero (wordsSince ws cs s.din)

/-- Deleting every `SUMW`, every `SIZE` or every `BLKSZ` from a list of commands changes no accumulator, no digest byte,
no byte consumed and no fault: it only removes response beats (42_readout.md section 1, R153; 43_constants.md, R173). -/
def Obligations.DeletingResponsesChangesOnlyBeats : Prop :=
  ∀ (s : State) (cs : List Instr) (k : Instr), k = .sumw ∨ k = .size ∨ k = .blksz → s.AtBoundary → s.rspReady = true →
    s.doutReady = true → (∀ i ∈ cs, i.WellFormed) → payloadOf cs ≤ s.din.length →
    ∃ t u, steps cs.length { s with cmd := cs.map encode } = some t ∧
      steps (cs.filter (· ≠ k)).length { s with cmd := (cs.filter (· ≠ k)).map encode } = some u ∧
      u.acc = t.acc ∧ u.dout = t.dout ∧ u.din = t.din ∧ u.fault = t.fault ∧ u.cause = t.cause ∧ u.finfo = t.finfo ∧
      u.rsp.Sublist t.rsp

/-- Deleting every `SUM` changes no accumulator, no response beat, no byte consumed and no fault (42_readout.md section
2, R157). -/
def Obligations.DeletingSumsChangesOnlyDigests : Prop :=
  ∀ (s : State) (cs : List Instr), s.AtBoundary → s.rspReady = true → s.doutReady = true → (∀ i ∈ cs, i.WellFormed) →
    payloadOf cs ≤ s.din.length →
    ∃ t u, steps cs.length { s with cmd := cs.map encode } = some t ∧
      steps (cs.filter (· ≠ .sum)).length { s with cmd := (cs.filter (· ≠ .sum)).map encode } = some u ∧
      u.acc = t.acc ∧ u.rsp = t.rsp ∧ u.din = t.din ∧ u.fault = t.fault ∧ u.cause = t.cause ∧ u.finfo = t.finfo ∧
      u.dout.Sublist t.dout

/-- What a command does depends on the accumulators, the payload it takes and the sinks' readiness alone: not on the
command index, on what was transferred before, or on what else is presented, on DIN after its payload included
(10_state.md section 6, R39; 41_write.md, R130). -/
def Obligations.CommandsIgnoreHistory : Prop :=
  ∀ (s r : State) (i : Instr), i.WellFormed → s.AtBoundary → r.AtBoundary → r.acc = s.acc →
    r.din.take (payloadOf [i]) = s.din.take (payloadOf [i]) → r.rspReady = s.rspReady → r.doutReady = s.doutReady →
    ∃ t u vs bs n, exec i s = .next t ∧ exec i r = .next u ∧ u.acc = t.acc ∧ u.hid = t.hid ∧ u.fault = t.fault ∧
      (t.fault = true → u.cause = t.cause ∧ u.finfo = t.finfo) ∧
      n ≤ s.din.length ∧ n ≤ r.din.length ∧ t.din = s.din.drop n ∧ u.din = r.din.drop n ∧
      t.rsp = s.rsp ++ vs ∧ u.rsp = r.rsp ++ vs ∧ t.dout = s.dout ++ bs ∧ u.dout = r.dout ++ bs

/-! ### Faults, halted, stuck, reset -/

/-- R184: no word is both misaligned and illegal; a halted block raises no second fault; hardware reset has priority over
every command and fault. -/
def Obligations.FaultsAreExclusive : Prop :=
  (∀ c : Word32, ¬(misalignedWriteWord c = true ∧ illegalWord c = true)) ∧
  (∀ s : State, s.rst = false → s.fault = true → step s = .next s) ∧
  (∀ (s : State) (p : Bool) (k : Pace), s.rst = true → step s = .next (edge p k s) ∧ edge p k s =
    { s with
      acc := Acc.zero, fault := false, cause := 0#2, finfo := 0#32, ci := 0, hid := Hidden.idle, resetTaken := true })

/-- R187: a halted block accepts nothing, produces nothing and keeps everything, at a step and at a clock edge; it has
not ended well; no move of the host clears it; hardware reset gives the reset state. -/
def Obligations.HaltedBlockDoesNothing : Prop :=
  (∀ (s : State) (p : Bool) (k : Pace), s.Halted → s.rst = false →
    step s = .next s ∧ edge p k s = s ∧ cmdReady k s = false ∧ dinReady k s = false ∧ doutPin k s = none ∧
    rspPin k s = none ∧ ¬s.EndedWell) ∧
  (∀ (s t : State) (m : HostMove), s.Halted → hostMove m s = some t → t.Halted) ∧
  (∀ s : State, s.Halted → s.rst = true → ∃ t, step s = .next t ∧ t.fault = false ∧ t.cause = 0#2 ∧ t.finfo = 0#32 ∧
    t.acc = Acc.zero ∧ t.ci = 0 ∧ t.hid = Hidden.idle)

/-- A stuck block is not faulted, accepts no command and keeps its partial progress, at a step and at a clock edge
(60_exceptions.md section 7, R194). -/
def Obligations.StuckBlockKeepsItsProgress : Prop :=
  ∀ (s : State) (p : Bool) (k : Pace), s.Stuck →
    s.fault = false ∧ cmdReady k s = false ∧ step s = .next s ∧ edge p k s = s ∧
    transfers k s = { cmd := none, din := none, dout := none, rsp := none }

/-- R210: at an edge with `rst` 1 the block takes the reset state whatever it was doing and no beat is transferred; one
edge is enough, more change nothing; with `rst` back at 0 it is a fresh block at a command boundary. -/
def Obligations.HardwareResetTakesTheResetState : Prop :=
  ∀ (s : State) (p : Bool) (k k' : Pace), s.rst = true →
    edge p k s =
      { s with
        acc := Acc.zero, fault := false, cause := 0#2, finfo := 0#32, ci := 0, hid := Hidden.idle,
        resetTaken := true } ∧
    step s = .next (edge p k s) ∧ transfers k s = { cmd := none, din := none, dout := none, rsp := none } ∧
    edge p k' (edge p k s) = edge p k s ∧
    ∃ t, hostMove (.setRst false) (edge p k s) = some t ∧ t.AtBoundary ∧ t.acc = Acc.zero ∧ t.ci = 0

/-- R211: while `rst` is held at 1, from the first edge that samples it, every ready, valid and status output is 0. -/
def Obligations.OutputsAreZeroInReset : Prop :=
  ∀ (s : State) (p : Bool) (k k' : Pace) (ks : List Pace), s.rst = true →
    pinsOut k' (edges p (k :: ks) s) =
      { cmdReady := false, dinReady := false, dout := none, rsp := none,
        status := { fault := false, faultCause := 0#2, faultInfo := 0#32 } }

/-- R40: the reset values, of the model's reset state and of hardware reset from any state, and what the `RESET` command
sets, for comparison; the two constants are hardwired. -/
def Obligations.ResetValues : Prop :=
  (State.reset.acc = { a := 0#64, b := 0#64, c := 0#64, d := 0#64 } ∧ State.reset.fault = false ∧
    State.reset.cause = 0#2 ∧ State.reset.finfo = 0#32 ∧ State.reset.ci = 0 ∧ State.reset.hid.held = [] ∧
    State.reset.hid.remaining = 0#28 ∧ State.reset.hid.sumIdx = 0#5 ∧ State.reset.hid.sumwIdx = 0#2 ∧
    State.reset.hid.va = false ∧ State.reset.hid.vb = false ∧ State.reset.hid.vc = false ∧
    State.reset.hid.phase = .idle) ∧
  (∀ s : State, s.rst = true → ∃ t, step s = .next t ∧ t.acc = State.reset.acc ∧ t.fault = State.reset.fault ∧
    t.cause = State.reset.cause ∧ t.finfo = State.reset.finfo ∧ t.ci = State.reset.ci ∧ t.hid = State.reset.hid) ∧
  (∀ (s : State) (rest : List Word32), s.AtBoundary → s.cmd = 0x10000000#32 :: rest →
    step s = .next { s with acc := Acc.zero, cmd := rest, ci := s.ci + 1 }) ∧
  Config.sizeConst = 32#64 ∧ Config.blkszConst = 4#64

/-- R41: a fresh block answers `SUMW` with four zeros and `SUM` with 32 zero bytes, and so does any block after
`RESET`. -/
def Obligations.FreshBlockReadsZero : Prop :=
  (∀ s : State, s.AtBoundary → s.rspReady = true → s.doutReady = true → s.acc = State.reset.acc →
    exec .sumw s = .next { s with rsp := s.rsp ++ [0#64, 0#64, 0#64, 0#64] } ∧
    exec .sum s = .next { s with dout := s.dout ++ List.replicate 32 0x00#8 }) ∧
  (∀ s : State, s.AtBoundary → s.rspReady = true → s.doutReady = true →
    ∃ t u v, exec .reset s = .next t ∧ exec .sumw t = .next u ∧ exec .sum t = .next v ∧
      u = { s with acc := Acc.zero, rsp := s.rsp ++ [0#64, 0#64, 0#64, 0#64] } ∧
      v = { s with acc := Acc.zero, dout := s.dout ++ List.replicate 32 0x00#8 })

/-! ### Invariants -/

/-- The invariant holds at reset, and no addition is owed then in either adder organisation. -/
def Obligations.InvariantHoldsAtReset : Prop := State.reset.Inv ∧ ∀ p, State.reset.Fits p

/-- Every step keeps the invariant (10_state.md sections 4 and 6). -/
def Obligations.StepKeepsInvariant : Prop := ∀ s t : State, s.Inv → step s = .next t → t.Inv

/-- Every clock edge keeps the invariant, in either adder organisation, at any pace, and the parallel stage never owes an
addition (41_write.md section 6). -/
def Obligations.EdgeKeepsInvariant : Prop :=
  ∀ (s : State) (p : Bool) (k : Pace), s.Inv → (edge p k s).Inv ∧ (s.Fits p → (edge p k s).Fits p)

/-- Any mixture of host moves, steps and clock edges of one adder organisation keeps the invariant, and the parallel stage
never owes an addition. -/
def Obligations.EventsKeepInvariant : Prop :=
  ∀ (p : Bool) (es : List Event) (s t : State), s.Inv → events p es s = some t → t.Inv ∧ (s.Fits p → t.Fits p)

/-- Once a fault has happened it stays on record through every host move, step and clock edge, hardware reset among them,
so that no such run counts as ended well (60_exceptions.md section 7, R195). -/
def Obligations.FaultStaysOnRecord : Prop :=
  ∀ (p : Bool) (es : List Event) (s t : State), s.Inv → (s.fault = true ∨ s.faultSeen = true) → events p es s = some t →
    t.faultSeen = true ∧ ¬t.EndedWell

/-- In every state of the invariant `CAUSE` is not 0 exactly when `FAULT` is 1, it is never 3, and `FINFO` is 0 while
`FAULT` is 0 (10_state.md section 4, R28, R29); and from reset, a MisalignedWrite latches the word of a `WRITE` whose
length is no multiple of 4, an IllegalCommand a word no command encodes to, and a halted block holds no command
(60_exceptions.md section 1). -/
def Obligations.LatchedWordExplainsCause : Prop :=
  (∀ s : State, s.Inv → (s.cause ≠ 0#2 ↔ s.fault = true) ∧ s.cause ≠ 3#2 ∧ (s.fault = false → s.finfo = 0#32)) ∧
  (∀ (p : Bool) (es : List Event) (t : State), events p es State.reset = some t →
    (t.cause = 1#2 → opField t.finfo = 0x2#4 ∧ lenField t.finfo % 4 ≠ 0) ∧
    (t.cause = 2#2 → ∀ i, encode i = t.finfo → ¬i.WellFormed) ∧
    (t.fault = true → t.hid = Hidden.idle))

/-! ### The port level -/

/-- Each channel moves by exactly the beats its handshake transfers: input channels lose their oldest, output sinks gain
them at the end (20_memory.md section 1, R51, R52); at one edge at most one channel transfers a beat (section 5, R65). A
`valid` of the block's that is 1 stays 1 with the same data until the transfer, whatever the pace, and does not wait for
`ready`; and no move of the host takes a presented beat back but during a hardware reset (R51, R212). -/
def Obligations.EdgeMovesTransferredBeats : Prop :=
  (∀ (s : State) (p : Bool) (k : Pace),
    s.cmd = (transfers k s).cmd.toList ++ (edge p k s).cmd ∧ s.din = (transfers k s).din.toList ++ (edge p k s).din ∧
    (edge p k s).dout = s.dout ++ (transfers k s).dout.toList ∧
    (edge p k s).rsp = s.rsp ++ (transfers k s).rsp.toList ∧
    (transfers k s).cmd.toList.length + (transfers k s).din.toList.length + (transfers k s).dout.toList.length +
      (transfers k s).rsp.toList.length ≤ 1) ∧
  (∀ (s : State) (p : Bool) (k k' : Pace), s.rst = false →
    (∀ b, doutPin k s = some b → (transfers k s).dout = none → doutPin k' (edge p k s) = some b) ∧
    (∀ v, rspPin k s = some v → (transfers k s).rsp = none → rspPin k' (edge p k s) = some v)) ∧
  (∀ (s : State) (k : Pace) (r : Bool),
    doutPin k { s with doutReady := r } = doutPin k s ∧ rspPin k { s with rspReady := r } = rspPin k s) ∧
  (∀ (s t : State) (m : HostMove), s.Inv → s.rst = false → hostMove m s = some t → s.cmd <+: t.cmd ∧ s.din <+: t.din)

/-- When the outputs are 1 (20_memory.md section 1, R53): ready for a command only at a command boundary, for payload only
while a `WRITE` wants it, valid on DOUT and RSP only inside a command that owes a beat there, and all four 0 when halted and
while a command word is held and not yet decoded; a byte presented while `din_ready` is 0 waits. R53 leaves open how long the
block keeps one of them 0 where it may be 1: that is its pace (R240; log entry 10), and a valid once raised stays. -/
def Obligations.ReadyAndValidFollowThePhase : Prop :=
  ∀ (s : State) (p : Bool) (k : Pace), s.Inv →
    (cmdReady k s = true ↔ s.AtBoundary ∧ k.accept = true) ∧
    (s.hid.phase = .decode → pinsOut k s =
      { cmdReady := false, dinReady := false, dout := none, rsp := none, status := statusPins s }) ∧
    (dinReady k s = true ↔
      s.hid.phase = .payload ∧ s.hid.remaining ≠ 0#28 ∧ k.take = true ∧ wordMayEnter k s = true) ∧
    ((doutPin k s).isSome = true ↔ s.hid.phase = .digest ∧ (k.offer = true ∨ s.hid.offered = true)) ∧
    ((rspPin k s).isSome = true ↔ s.hid.phase = .response ∧ (k.offer = true ∨ s.hid.offered = true)) ∧
    (s.hid.phase = .payload → ∃ c, s.hid.cmdWord = some c ∧ opField c = 0x2#4) ∧
    (s.hid.phase = .digest → s.hid.cmdWord = some 0x30000000#32 ∧ s.owedDout ≠ []) ∧
    (s.hid.phase = .response → s.owedRsp ≠ []) ∧
    (s.fault = true → cmdReady k s = false ∧ dinReady k s = false ∧ doutPin k s = none ∧ rspPin k s = none) ∧
    (dinReady k s = false → (edge p k s).din = s.din)

/-- A clock edge inside a command, in either adder organisation and at any pace, does not change where the command ends; and
so, whatever comes at the ports out of hardware reset (beats presented early or late, sinks ready or not, edges at any
pace), the block is where the transaction level's steps over the same lists of words and bytes put it, as many steps as it
has accepted words, once both have carried their last command as far as the lists let it (00_scope.md section 4, R8;
41_write.md section 6). -/
def Obligations.EdgeKeepsTheOutcome : Prop :=
  (∀ (s : State) (p : Bool) (k : Pace), s.Inv → s.Fits p → s.rst = false → s.fault = false → s.hid.phase ≠ .idle →
    resume (edge p k s) = resume s) ∧
  (∀ (p : Bool) (es : List Event) (s t : State), s.Inv → s.Fits p → s.rst = false →
    (∀ e ∈ es, e.atPorts = true) → events p es s = some t →
    s.ci ≤ t.ci ∧
    steps (t.ci - s.ci) (resume (s.supplied (commandsIn es) (bytesIn es))) = some (resume (t.supplied [] [])))

/-- The port level refines the transaction level: from any state, some number of clock edges reaches exactly the state one
step gives, in either adder organisation (00_scope.md section 4, R8; 70_reset_and_hazards.md section 4): those of a block
that never holds back. For the other paces see EdgeKeepsTheOutcome. -/
def Obligations.EdgesReachTheStep : Prop :=
  ∀ (s : State) (p : Bool), s.Inv → s.Fits p →
    ∃ n t, step s = .next t ∧ edges p (List.replicate n Pace.full) s = t

/-- R241. With the payload a command wants presented and ready sinks, one step of a command in progress ends at a command
boundary, and so do finitely many clock edges of a block that never holds back; a word held and not yet decoded counts by
the command it begins, and if it begins none the block is halted instead. In a run without end of the port level, in either adder
organisation, in which the block's own steps are weakly fair, a host that supplies the payload and accepts the beats in its
own time (HD7, HD8), and does not raise `rst`, sees every command completed, and an idle block that is not halted raise
`cmd_ready` (70_reset_and_hazards.md section 4). -/
def Obligations.DutifulHostCompletesCommands : Prop :=
  (∀ (s : State) (p : Bool), s.Inv → s.Fits p → s.rst = false → s.fault = false → s.rspReady = true →
    s.doutReady = true → (decodeHeld s).hid.remaining.toNat ≤ s.din.length → s.hid.phase ≠ .idle →
    ∃ n t, step s = .next t ∧ edges p (List.replicate n Pace.full) s = t ∧
      if (decodeHeld s).fault then t.Halted else t.AtBoundary) ∧
  (∀ (p : Bool) (es : Nat → Event) (ss : Nat → State), (ss 0).Inv → (ss 0).Fits p → PortRun p es ss →
    WeaklyFair es ss → SuppliesPayload ss → AcceptsBeats es ss → (∀ n, (ss n).rst = false) →
    (∀ n, ∃ m, n ≤ m ∧ (ss m).hid.phase = .idle) ∧
    (∀ n, (ss n).AtBoundary →
      ∃ m k, n ≤ m ∧ es m = .clock k ∧ cmdReady k (ss m) = true ∧ (ss m).ci = (ss n).ci))

/-- R242: a channel transfers at most one beat an edge, so `n` edges, at any paces, move at most `n` beats on each. -/
def Obligations.EdgesMoveAtMostOneBeatEach : Prop :=
  ∀ (s : State) (p : Bool) (ks : List Pace),
    s.din.length ≤ (edges p ks s).din.length + ks.length ∧ (edges p ks s).dout.length ≤ s.dout.length + ks.length ∧
    (edges p ks s).rsp.length ≤ s.rsp.length + ks.length ∧ s.cmd.length ≤ (edges p ks s).cmd.length + ks.length

/-! ### The host's notation -/

/-- `WRITEW` presents one command and four bytes a word, least significant first: the word assembler reads back the words
listed, and the command, where its length is legal, is the `WRITE` of as many bytes (30_encoding.md section 6, R90). -/
def Obligations.WritewPresentsItsWords : Prop :=
  ∀ ws : List Word32, ∃ c bytes, (AsmLine.writew ws).presents = [(c, bytes)] ∧
    bytes.length = 4 * ws.length ∧ wordsOf bytes = ws ∧
    (4 * ws.length ≤ 268435452 → decode c = .ok (.write (4 * ws.length)))

/-- `WRITEL` splits a payload into legal writes whose payloads concatenate to it, all but the last of the largest legal
length (30_encoding.md sections 5 and 6, R88, R90). -/
def Obligations.WritelSplitsIntoLegalWrites : Prop :=
  ∀ bytes : List Byte, bytes.length % 4 = 0 →
    ((AsmLine.writel bytes).presents.flatMap Prod.snd) = bytes ∧
    (∀ p ∈ (AsmLine.writel bytes).presents,
      decode p.1 = .ok (.write p.2.length) ∧ p.2.length % 4 = 0 ∧ p.2.length ≤ 268435452) ∧
    (∀ p ∈ (AsmLine.writel bytes).presents.dropLast, p.2.length = 268435452)

/-- A line of one command presents the word and the bytes its rule lists; given to an idle block with nothing presented, it
runs that command over its payload, or, where the word is illegal, faults; `HWRESET` leaves a fresh block (30_encoding.md
section 6, R89, R90). That a command line gives the block one step for each command it presents, and that at an `HWRESET`
line the host withdraws and discards nothing, so that what is on CMD and DIN and in the sinks' lists stays, is the model's
choice, log entry 15: R89 and R90 do not say, R212 lets the host withdraw, and HD13 asks it after a reset inside a command. -/
def Obligations.AssemblerLinesRunTheirCommands : Prop :=
  (∀ (line : AsmLine) (c : Word32) (bytes : List Byte), line.oneCommand = some (c, bytes) →
    line.presents = [(c, bytes)] ∧
    ∀ (p : Bool) (s : State), s.AtBoundary → s.cmd = [] →
      (∀ i, decode c = .ok i →
        ∃ t, events p line.events s = some t ∧ exec i { s with ci := s.ci + 1, din := s.din ++ bytes } = .next t) ∧
      (illegalWord c = true →
        events p line.events s = some
          { s with
            ci := s.ci + 1, din := s.din ++ bytes, fault := true, cause := 2#2, finfo := c, faultSeen := true })) ∧
  (∀ (p : Bool) (s : State),
    events p AsmLine.hwreset.events s = some { hwReset s with rst := false, resetTaken := false })
end

