-- ==== Sys2Proof/Laws/Adders.lean ====
section
/-! SUPPORT. What the adder stage does: `Fold` by register, `FoldAll` over lists of words, and one edge of the pipeline
against the drain. -/

namespace Sys2Proof.Machine

theorem add64_eq (x y : Word64) : add64 x y = x + y := by
  apply BitVec.eq_of_toNat_eq
  simp [add64, BitVec.toNat_add]

theorem fold_a (x : Acc) (w : Word32) : (fold x w).a = x.a + zext64 w := by simp [fold, add64_eq]

theorem fold_b (x : Acc) (w : Word32) : (fold x w).b = x.b + (fold x w).a := by simp [fold, add64_eq]

theorem fold_c (x : Acc) (w : Word32) : (fold x w).c = x.c + (fold x w).b := by simp [fold, add64_eq]

theorem fold_d (x : Acc) (w : Word32) : (fold x w).d = x.d + (fold x w).c := by simp [fold, add64_eq]

theorem Acc.ext_iff' (x y : Acc) : x = y ↔ x.a = y.a ∧ x.b = y.b ∧ x.c = y.c ∧ x.d = y.d := by
  cases x
  cases y
  simp

@[simp] theorem foldAll_nil (x : Acc) : foldAll x [] = x := rfl

@[simp] theorem foldAll_cons (x : Acc) (w : Word32) (ws : List Word32) :
    foldAll x (w :: ws) = foldAll (fold x w) ws := rfl

theorem foldAll_append (x : Acc) (us ws : List Word32) : foldAll x (us ++ ws) = foldAll (foldAll x us) ws := by
  induction us generalizing x with
  | nil => rfl
  | cons u us ih => exact ih (fold x u)

theorem settled_iff (p : AdderStage) : p.settled = true ↔ p.va = false ∧ p.vb = false ∧ p.vc = false := by
  simp [AdderStage.settled, and_assoc]

/-- With nothing owed and no word, an edge changes nothing. -/
theorem pipeEdge_none_settled (p : AdderStage) (h : p.settled = true) : pipeEdge none p = p := by
  obtain ⟨ha, hb, hc⟩ := (settled_iff p).mp h
  cases p
  simp_all [pipeEdge]

theorem drain_of_settled (p : AdderStage) (h : p.settled = true) : drain p = p := by
  simp [drain, pipeEdge_none_settled p h]

/-- After the drain no addition is owed (R132). -/
theorem drain_settled (p : AdderStage) : (drain p).settled = true := by
  simp [drain, pipeEdge, AdderStage.settled]

theorem drain_pipeEdge_none (p : AdderStage) : drain (pipeEdge none p) = drain p := by
  have h : pipeEdge none (drain p) = drain p := pipeEdge_none_settled _ (drain_settled p)
  exact h

/-- A word that enters the pipeline counts, after the drain, as one `Fold` after all that entered before it. -/
theorem drain_pipeEdge_some (w : Word32) (p : AdderStage) :
    drain (pipeEdge (some w) p) = { drain p with acc := fold (drain p).acc w } := by
  obtain ⟨⟨a, b, c, d⟩, va, vb, vc⟩ := p
  cases va <;> cases vb <;> cases vc <;>
    simp [drain, pipeEdge, fold, add64_eq]

/-- At full pace a word may always enter, and an edge is that of R132. -/
@[simp] theorem takesWord_full (p : AdderStage) : p.takesWord Pace.full = true := by
  cases h : p.va <;> cases h' : p.vb <;> cases h'' : p.vc <;>
    simp [AdderStage.takesWord, AdderStage.addsB, AdderStage.addsC, AdderStage.addsD, Pace.full, h, h', h'']

theorem stagesEdge_full (win : Option Word32) (p : AdderStage) : stagesEdge Pace.full win p = pipeEdge win p := by
  obtain ⟨x, va, vb, vc⟩ := p
  cases va <;> cases vb <;> cases vc <;>
    simp [stagesEdge, pipeEdge, AdderStage.addsB, AdderStage.addsC, AdderStage.addsD, Pace.full]

/-- Whichever of the additions owed an edge with no word makes, the drain gives the same (R132: any schedule). -/
theorem drain_stagesEdge_none (k : Pace) (p : AdderStage) : drain (stagesEdge k none p) = drain p := by
  obtain ⟨⟨a, b, c, d⟩, va, vb, vc⟩ := p
  obtain ⟨_, _, _, _, kb, kc, kd⟩ := k
  cases va <;> cases vb <;> cases vc <;> cases kb <;> cases kc <;> cases kd <;>
    simp [drain, pipeEdge, stagesEdge, AdderStage.addsB, AdderStage.addsC, AdderStage.addsD]

/-- A word that may enter counts as one `Fold`, whatever else the edge does. -/
theorem drain_stagesEdge_some (k : Pace) (w : Word32) (p : AdderStage) (h : p.takesWord k = true) :
    drain (stagesEdge k (some w) p) = { drain p with acc := fold (drain p).acc w } := by
  obtain ⟨⟨a, b, c, d⟩, va, vb, vc⟩ := p
  obtain ⟨_, _, _, _, kb, kc, kd⟩ := k
  cases va <;> cases vb <;> cases vc <;> cases kb <;> cases kc <;> cases kd <;>
    simp [AdderStage.takesWord, AdderStage.addsB, AdderStage.addsC, AdderStage.addsD] at h <;>
    simp [drain, pipeEdge, stagesEdge, AdderStage.addsB, AdderStage.addsC, AdderStage.addsD, fold, add64_eq]

/-- The parallel stage computes `Fold` (R131). -/
theorem parallelStep_eq (x : Acc) (w : Word32) :
    parallelStep x w = { a := x.a + zext64 w, b := x.b + x.a + zext64 w, c := x.c + x.b + x.a + zext64 w,
                         d := x.d + x.c + x.b + x.a + zext64 w } := by
  simp [parallelStep, add64_eq]

end Sys2Proof.Machine
end

