-- ==== Sys2Proof/Laws/Decode.lean ====
section
/-! SUPPORT. The fields of a command word as numbers, the encoder's word of each command as a number, and what `decode`
answers for each opcode. -/

namespace Sys2Proof

theorem lenField_eq (c : Word32) : lenField c = c.toNat % 2 ^ 28 := by
  simp [lenField, BitVec.extractLsb'_toNat]

theorem opField_toNat (c : Word32) : (opField c).toNat = c.toNat / 2 ^ 28 := by
  have h := c.isLt
  simp only [opField, BitVec.extractLsb'_toNat, Nat.shiftRight_eq_div_pow]
  omega

theorem opField_eq_iff (c : Word32) (n : Nat) (hn : n < 16) :
    opField c = BitVec.ofNat 4 n ↔ c.toNat / 2 ^ 28 = n := by
  rw [← BitVec.toNat_inj, opField_toNat, BitVec.toNat_ofNat, Nat.mod_eq_of_lt (by omega)]

theorem encode_write_toNat (len : Nat) (h : len ≤ Config.lenMax) : (encode (.write len)).toNat = 0x20000000 + len := by
  simp only [encode, BitVec.toNat_ofNat, Config.lenMax] at *
  omega

theorem opField_encode_write (len : Nat) (h : len ≤ Config.lenMax) : opField (encode (.write len)) = 0x2#4 := by
  rw [opField_eq_iff _ 2 (by omega), encode_write_toNat len h]
  simp only [Config.lenMax] at h
  omega

theorem lenField_encode_write (len : Nat) (h : len ≤ Config.lenMax) : lenField (encode (.write len)) = len := by
  rw [lenField_eq, encode_write_toNat len h]
  simp only [Config.lenMax] at h
  omega

theorem lenField_le (c : Word32) : lenField c ≤ Config.lenMax := by
  rw [lenField_eq]
  simp only [Config.lenMax]
  omega

/-- A word with the opcode of `WRITE` is a `WRITE`, whatever its length (R85). -/
theorem decode_of_write (c : Word32) (h : opField c = 0x2#4) : decode c = .ok (.write (lenField c)) := by
  simp [decode, h]

/-- Only the opcode of `WRITE` gives a `WRITE`. -/
theorem opField_of_decode_write (c : Word32) (len : Nat) (h : decode c = .ok (.write len)) :
    opField c = 0x2#4 ∧ lenField c = len := by
  simp only [decode, decodePlain] at h
  split at h
  · simp_all
  · exfalso
    split_ifs at h <;> simp_all

end Sys2Proof
end

