-- ==== Sys2Proof/Laws/State.lean ====
section
/-! SUPPORT. What each state update does to each field, one lemma a field, so that no proof unfolds a record update. -/

namespace Sys2Proof.Machine

@[simp] theorem raiseFault_acc (k : BitVec 2) (c : Word32) (s : State) : (raiseFault k c s).acc = s.acc := rfl
@[simp] theorem raiseFault_fault (k : BitVec 2) (c : Word32) (s : State) : (raiseFault k c s).fault = true := rfl
@[simp] theorem raiseFault_cause (k : BitVec 2) (c : Word32) (s : State) : (raiseFault k c s).cause = k := rfl
@[simp] theorem raiseFault_finfo (k : BitVec 2) (c : Word32) (s : State) : (raiseFault k c s).finfo = c := rfl
@[simp] theorem raiseFault_ci (k : BitVec 2) (c : Word32) (s : State) : (raiseFault k c s).ci = s.ci := rfl
@[simp] theorem raiseFault_hid (k : BitVec 2) (c : Word32) (s : State) : (raiseFault k c s).hid = Hidden.idle := rfl
@[simp] theorem raiseFault_faultSeen (k : BitVec 2) (c : Word32) (s : State) :
    (raiseFault k c s).faultSeen = true := rfl
@[simp] theorem raiseFault_rst (k : BitVec 2) (c : Word32) (s : State) : (raiseFault k c s).rst = s.rst := rfl
@[simp] theorem raiseFault_resetTaken (k : BitVec 2) (c : Word32) (s : State) :
    (raiseFault k c s).resetTaken = s.resetTaken := rfl
@[simp] theorem raiseFault_doutReady (k : BitVec 2) (c : Word32) (s : State) :
    (raiseFault k c s).doutReady = s.doutReady := rfl
@[simp] theorem raiseFault_rspReady (k : BitVec 2) (c : Word32) (s : State) :
    (raiseFault k c s).rspReady = s.rspReady := rfl
@[simp] theorem raiseFault_cmd (k : BitVec 2) (c : Word32) (s : State) : (raiseFault k c s).cmd = s.cmd := rfl
@[simp] theorem raiseFault_din (k : BitVec 2) (c : Word32) (s : State) : (raiseFault k c s).din = s.din := rfl
@[simp] theorem raiseFault_dout (k : BitVec 2) (c : Word32) (s : State) : (raiseFault k c s).dout = s.dout := rfl
@[simp] theorem raiseFault_rsp (k : BitVec 2) (c : Word32) (s : State) : (raiseFault k c s).rsp = s.rsp := rfl

@[simp] theorem hwReset_acc (s : State) : (hwReset s).acc = Acc.zero := rfl
@[simp] theorem hwReset_fault (s : State) : (hwReset s).fault = false := rfl
@[simp] theorem hwReset_cause (s : State) : (hwReset s).cause = 0#2 := rfl
@[simp] theorem hwReset_finfo (s : State) : (hwReset s).finfo = 0#32 := rfl
@[simp] theorem hwReset_ci (s : State) : (hwReset s).ci = 0 := rfl
@[simp] theorem hwReset_hid (s : State) : (hwReset s).hid = Hidden.idle := rfl
@[simp] theorem hwReset_faultSeen (s : State) : (hwReset s).faultSeen = s.faultSeen := rfl
@[simp] theorem hwReset_rst (s : State) : (hwReset s).rst = s.rst := rfl
@[simp] theorem hwReset_resetTaken (s : State) : (hwReset s).resetTaken = true := rfl
@[simp] theorem hwReset_doutReady (s : State) : (hwReset s).doutReady = s.doutReady := rfl
@[simp] theorem hwReset_rspReady (s : State) : (hwReset s).rspReady = s.rspReady := rfl
@[simp] theorem hwReset_cmd (s : State) : (hwReset s).cmd = s.cmd := rfl
@[simp] theorem hwReset_din (s : State) : (hwReset s).din = s.din := rfl
@[simp] theorem hwReset_dout (s : State) : (hwReset s).dout = s.dout := rfl
@[simp] theorem hwReset_rsp (s : State) : (hwReset s).rsp = s.rsp := rfl

@[simp] theorem startCommand_acc (p : Phase) (c : Word32) (s : State) : (startCommand p c s).acc = s.acc := rfl
@[simp] theorem startCommand_fault (p : Phase) (c : Word32) (s : State) : (startCommand p c s).fault = s.fault := rfl
@[simp] theorem startCommand_cause (p : Phase) (c : Word32) (s : State) : (startCommand p c s).cause = s.cause := rfl
@[simp] theorem startCommand_finfo (p : Phase) (c : Word32) (s : State) : (startCommand p c s).finfo = s.finfo := rfl
@[simp] theorem startCommand_ci (p : Phase) (c : Word32) (s : State) : (startCommand p c s).ci = s.ci := rfl
@[simp] theorem startCommand_hid (p : Phase) (c : Word32) (s : State) :
    (startCommand p c s).hid = { Hidden.idle with phase := p, cmdWord := some c } := rfl
@[simp] theorem startCommand_faultSeen (p : Phase) (c : Word32) (s : State) :
    (startCommand p c s).faultSeen = s.faultSeen := rfl
@[simp] theorem startCommand_rst (p : Phase) (c : Word32) (s : State) : (startCommand p c s).rst = s.rst := rfl
@[simp] theorem startCommand_resetTaken (p : Phase) (c : Word32) (s : State) :
    (startCommand p c s).resetTaken = s.resetTaken := rfl
@[simp] theorem startCommand_doutReady (p : Phase) (c : Word32) (s : State) :
    (startCommand p c s).doutReady = s.doutReady := rfl
@[simp] theorem startCommand_rspReady (p : Phase) (c : Word32) (s : State) :
    (startCommand p c s).rspReady = s.rspReady := rfl
@[simp] theorem startCommand_cmd (p : Phase) (c : Word32) (s : State) : (startCommand p c s).cmd = s.cmd := rfl
@[simp] theorem startCommand_din (p : Phase) (c : Word32) (s : State) : (startCommand p c s).din = s.din := rfl
@[simp] theorem startCommand_dout (p : Phase) (c : Word32) (s : State) : (startCommand p c s).dout = s.dout := rfl
@[simp] theorem startCommand_rsp (p : Phase) (c : Word32) (s : State) : (startCommand p c s).rsp = s.rsp := rfl

@[simp] theorem finishCommand_acc (s : State) : (finishCommand s).acc = s.acc := rfl
@[simp] theorem finishCommand_fault (s : State) : (finishCommand s).fault = s.fault := rfl
@[simp] theorem finishCommand_cause (s : State) : (finishCommand s).cause = s.cause := rfl
@[simp] theorem finishCommand_finfo (s : State) : (finishCommand s).finfo = s.finfo := rfl
@[simp] theorem finishCommand_ci (s : State) : (finishCommand s).ci = s.ci := rfl
@[simp] theorem finishCommand_hid (s : State) : (finishCommand s).hid = Hidden.idle := rfl
@[simp] theorem finishCommand_faultSeen (s : State) : (finishCommand s).faultSeen = s.faultSeen := rfl
@[simp] theorem finishCommand_rst (s : State) : (finishCommand s).rst = s.rst := rfl
@[simp] theorem finishCommand_resetTaken (s : State) : (finishCommand s).resetTaken = s.resetTaken := rfl
@[simp] theorem finishCommand_doutReady (s : State) : (finishCommand s).doutReady = s.doutReady := rfl
@[simp] theorem finishCommand_rspReady (s : State) : (finishCommand s).rspReady = s.rspReady := rfl
@[simp] theorem finishCommand_cmd (s : State) : (finishCommand s).cmd = s.cmd := rfl
@[simp] theorem finishCommand_din (s : State) : (finishCommand s).din = s.din := rfl
@[simp] theorem finishCommand_dout (s : State) : (finishCommand s).dout = s.dout := rfl
@[simp] theorem finishCommand_rsp (s : State) : (finishCommand s).rsp = s.rsp := rfl

@[simp] theorem offerBeat_acc (s : State) : (offerBeat s).acc = s.acc := rfl
@[simp] theorem offerBeat_fault (s : State) : (offerBeat s).fault = s.fault := rfl
@[simp] theorem offerBeat_cause (s : State) : (offerBeat s).cause = s.cause := rfl
@[simp] theorem offerBeat_finfo (s : State) : (offerBeat s).finfo = s.finfo := rfl
@[simp] theorem offerBeat_ci (s : State) : (offerBeat s).ci = s.ci := rfl
@[simp] theorem offerBeat_hid (s : State) : (offerBeat s).hid = { s.hid with offered := true } := rfl
@[simp] theorem offerBeat_faultSeen (s : State) : (offerBeat s).faultSeen = s.faultSeen := rfl
@[simp] theorem offerBeat_rst (s : State) : (offerBeat s).rst = s.rst := rfl
@[simp] theorem offerBeat_resetTaken (s : State) : (offerBeat s).resetTaken = s.resetTaken := rfl
@[simp] theorem offerBeat_doutReady (s : State) : (offerBeat s).doutReady = s.doutReady := rfl
@[simp] theorem offerBeat_rspReady (s : State) : (offerBeat s).rspReady = s.rspReady := rfl
@[simp] theorem offerBeat_cmd (s : State) : (offerBeat s).cmd = s.cmd := rfl
@[simp] theorem offerBeat_din (s : State) : (offerBeat s).din = s.din := rfl
@[simp] theorem offerBeat_dout (s : State) : (offerBeat s).dout = s.dout := rfl
@[simp] theorem offerBeat_rsp (s : State) : (offerBeat s).rsp = s.rsp := rfl

@[simp] theorem pushRsp_acc (vs : List Word64) (s : State) : (pushRsp vs s).acc = s.acc := rfl
@[simp] theorem pushRsp_fault (vs : List Word64) (s : State) : (pushRsp vs s).fault = s.fault := rfl
@[simp] theorem pushRsp_cause (vs : List Word64) (s : State) : (pushRsp vs s).cause = s.cause := rfl
@[simp] theorem pushRsp_finfo (vs : List Word64) (s : State) : (pushRsp vs s).finfo = s.finfo := rfl
@[simp] theorem pushRsp_ci (vs : List Word64) (s : State) : (pushRsp vs s).ci = s.ci := rfl
@[simp] theorem pushRsp_hid (vs : List Word64) (s : State) : (pushRsp vs s).hid = s.hid := rfl
@[simp] theorem pushRsp_faultSeen (vs : List Word64) (s : State) : (pushRsp vs s).faultSeen = s.faultSeen := rfl
@[simp] theorem pushRsp_rst (vs : List Word64) (s : State) : (pushRsp vs s).rst = s.rst := rfl
@[simp] theorem pushRsp_resetTaken (vs : List Word64) (s : State) : (pushRsp vs s).resetTaken = s.resetTaken := rfl
@[simp] theorem pushRsp_doutReady (vs : List Word64) (s : State) : (pushRsp vs s).doutReady = s.doutReady := rfl
@[simp] theorem pushRsp_rspReady (vs : List Word64) (s : State) : (pushRsp vs s).rspReady = s.rspReady := rfl
@[simp] theorem pushRsp_cmd (vs : List Word64) (s : State) : (pushRsp vs s).cmd = s.cmd := rfl
@[simp] theorem pushRsp_din (vs : List Word64) (s : State) : (pushRsp vs s).din = s.din := rfl
@[simp] theorem pushRsp_dout (vs : List Word64) (s : State) : (pushRsp vs s).dout = s.dout := rfl
@[simp] theorem pushRsp_rsp (vs : List Word64) (s : State) : (pushRsp vs s).rsp = s.rsp ++ vs := rfl

@[simp] theorem pushDout_acc (bs : List Byte) (s : State) : (pushDout bs s).acc = s.acc := rfl
@[simp] theorem pushDout_fault (bs : List Byte) (s : State) : (pushDout bs s).fault = s.fault := rfl
@[simp] theorem pushDout_cause (bs : List Byte) (s : State) : (pushDout bs s).cause = s.cause := rfl
@[simp] theorem pushDout_finfo (bs : List Byte) (s : State) : (pushDout bs s).finfo = s.finfo := rfl
@[simp] theorem pushDout_ci (bs : List Byte) (s : State) : (pushDout bs s).ci = s.ci := rfl
@[simp] theorem pushDout_hid (bs : List Byte) (s : State) : (pushDout bs s).hid = s.hid := rfl
@[simp] theorem pushDout_faultSeen (bs : List Byte) (s : State) : (pushDout bs s).faultSeen = s.faultSeen := rfl
@[simp] theorem pushDout_rst (bs : List Byte) (s : State) : (pushDout bs s).rst = s.rst := rfl
@[simp] theorem pushDout_resetTaken (bs : List Byte) (s : State) : (pushDout bs s).resetTaken = s.resetTaken := rfl
@[simp] theorem pushDout_doutReady (bs : List Byte) (s : State) : (pushDout bs s).doutReady = s.doutReady := rfl
@[simp] theorem pushDout_rspReady (bs : List Byte) (s : State) : (pushDout bs s).rspReady = s.rspReady := rfl
@[simp] theorem pushDout_cmd (bs : List Byte) (s : State) : (pushDout bs s).cmd = s.cmd := rfl
@[simp] theorem pushDout_din (bs : List Byte) (s : State) : (pushDout bs s).din = s.din := rfl
@[simp] theorem pushDout_dout (bs : List Byte) (s : State) : (pushDout bs s).dout = s.dout ++ bs := rfl
@[simp] theorem pushDout_rsp (bs : List Byte) (s : State) : (pushDout bs s).rsp = s.rsp := rfl

@[simp] theorem setAdders_acc (s : State) (p : AdderStage) : (s.setAdders p).acc = p.acc := rfl
@[simp] theorem setAdders_fault (s : State) (p : AdderStage) : (s.setAdders p).fault = s.fault := rfl
@[simp] theorem setAdders_cause (s : State) (p : AdderStage) : (s.setAdders p).cause = s.cause := rfl
@[simp] theorem setAdders_finfo (s : State) (p : AdderStage) : (s.setAdders p).finfo = s.finfo := rfl
@[simp] theorem setAdders_ci (s : State) (p : AdderStage) : (s.setAdders p).ci = s.ci := rfl
@[simp] theorem setAdders_hid (s : State) (p : AdderStage) :
    (s.setAdders p).hid = { s.hid with va := p.va, vb := p.vb, vc := p.vc } := rfl
@[simp] theorem setAdders_faultSeen (s : State) (p : AdderStage) : (s.setAdders p).faultSeen = s.faultSeen := rfl
@[simp] theorem setAdders_rst (s : State) (p : AdderStage) : (s.setAdders p).rst = s.rst := rfl
@[simp] theorem setAdders_resetTaken (s : State) (p : AdderStage) : (s.setAdders p).resetTaken = s.resetTaken := rfl
@[simp] theorem setAdders_doutReady (s : State) (p : AdderStage) : (s.setAdders p).doutReady = s.doutReady := rfl
@[simp] theorem setAdders_rspReady (s : State) (p : AdderStage) : (s.setAdders p).rspReady = s.rspReady := rfl
@[simp] theorem setAdders_cmd (s : State) (p : AdderStage) : (s.setAdders p).cmd = s.cmd := rfl
@[simp] theorem setAdders_din (s : State) (p : AdderStage) : (s.setAdders p).din = s.din := rfl
@[simp] theorem setAdders_dout (s : State) (p : AdderStage) : (s.setAdders p).dout = s.dout := rfl
@[simp] theorem setAdders_rsp (s : State) (p : AdderStage) : (s.setAdders p).rsp = s.rsp := rfl

@[simp] theorem payloadDone_acc (s : State) : (payloadDone s).acc = s.acc := rfl
@[simp] theorem payloadDone_fault (s : State) : (payloadDone s).fault = s.fault := rfl
@[simp] theorem payloadDone_cause (s : State) : (payloadDone s).cause = s.cause := rfl
@[simp] theorem payloadDone_finfo (s : State) : (payloadDone s).finfo = s.finfo := rfl
@[simp] theorem payloadDone_ci (s : State) : (payloadDone s).ci = s.ci := rfl
@[simp] theorem payloadDone_hid (s : State) : (payloadDone s).hid = { s.hid with phase := .response } := rfl
@[simp] theorem payloadDone_faultSeen (s : State) : (payloadDone s).faultSeen = s.faultSeen := rfl
@[simp] theorem payloadDone_rst (s : State) : (payloadDone s).rst = s.rst := rfl
@[simp] theorem payloadDone_resetTaken (s : State) : (payloadDone s).resetTaken = s.resetTaken := rfl
@[simp] theorem payloadDone_doutReady (s : State) : (payloadDone s).doutReady = s.doutReady := rfl
@[simp] theorem payloadDone_rspReady (s : State) : (payloadDone s).rspReady = s.rspReady := rfl
@[simp] theorem payloadDone_cmd (s : State) : (payloadDone s).cmd = s.cmd := rfl
@[simp] theorem payloadDone_din (s : State) : (payloadDone s).din = s.din := rfl
@[simp] theorem payloadDone_dout (s : State) : (payloadDone s).dout = s.dout := rfl
@[simp] theorem payloadDone_rsp (s : State) : (payloadDone s).rsp = s.rsp := rfl

@[simp] theorem acceptCommand_acc (rest : List Word32) (s : State) : (acceptCommand rest s).acc = s.acc := rfl
@[simp] theorem acceptCommand_fault (rest : List Word32) (s : State) : (acceptCommand rest s).fault = s.fault := rfl
@[simp] theorem acceptCommand_cause (rest : List Word32) (s : State) : (acceptCommand rest s).cause = s.cause := rfl
@[simp] theorem acceptCommand_finfo (rest : List Word32) (s : State) : (acceptCommand rest s).finfo = s.finfo := rfl
@[simp] theorem acceptCommand_ci (rest : List Word32) (s : State) : (acceptCommand rest s).ci = s.ci + 1 := rfl
@[simp] theorem acceptCommand_hid (rest : List Word32) (s : State) : (acceptCommand rest s).hid = s.hid := rfl
@[simp] theorem acceptCommand_faultSeen (rest : List Word32) (s : State) :
    (acceptCommand rest s).faultSeen = s.faultSeen := rfl
@[simp] theorem acceptCommand_rst (rest : List Word32) (s : State) : (acceptCommand rest s).rst = s.rst := rfl
@[simp] theorem acceptCommand_resetTaken (rest : List Word32) (s : State) :
    (acceptCommand rest s).resetTaken = s.resetTaken := rfl
@[simp] theorem acceptCommand_doutReady (rest : List Word32) (s : State) :
    (acceptCommand rest s).doutReady = s.doutReady := rfl
@[simp] theorem acceptCommand_rspReady (rest : List Word32) (s : State) :
    (acceptCommand rest s).rspReady = s.rspReady := rfl
@[simp] theorem acceptCommand_cmd (rest : List Word32) (s : State) : (acceptCommand rest s).cmd = rest := rfl
@[simp] theorem acceptCommand_din (rest : List Word32) (s : State) : (acceptCommand rest s).din = s.din := rfl
@[simp] theorem acceptCommand_dout (rest : List Word32) (s : State) : (acceptCommand rest s).dout = s.dout := rfl
@[simp] theorem acceptCommand_rsp (rest : List Word32) (s : State) : (acceptCommand rest s).rsp = s.rsp := rfl

@[simp] theorem placeCommand_acc (c : Word32) (s : State) : (placeCommand c s).acc = s.acc := rfl
@[simp] theorem placeCommand_fault (c : Word32) (s : State) : (placeCommand c s).fault = false := rfl
@[simp] theorem placeCommand_cause (c : Word32) (s : State) : (placeCommand c s).cause = 0#2 := rfl
@[simp] theorem placeCommand_finfo (c : Word32) (s : State) : (placeCommand c s).finfo = 0#32 := rfl
@[simp] theorem placeCommand_ci (c : Word32) (s : State) : (placeCommand c s).ci = s.ci := rfl
@[simp] theorem placeCommand_hid (c : Word32) (s : State) : (placeCommand c s).hid = Hidden.idle := rfl
@[simp] theorem placeCommand_faultSeen (c : Word32) (s : State) : (placeCommand c s).faultSeen = s.faultSeen := rfl
@[simp] theorem placeCommand_rst (c : Word32) (s : State) : (placeCommand c s).rst = false := rfl
@[simp] theorem placeCommand_resetTaken (c : Word32) (s : State) : (placeCommand c s).resetTaken = false := rfl
@[simp] theorem placeCommand_doutReady (c : Word32) (s : State) : (placeCommand c s).doutReady = s.doutReady := rfl
@[simp] theorem placeCommand_rspReady (c : Word32) (s : State) : (placeCommand c s).rspReady = s.rspReady := rfl
@[simp] theorem placeCommand_cmd (c : Word32) (s : State) : (placeCommand c s).cmd = c :: s.cmd := rfl
@[simp] theorem placeCommand_din (c : Word32) (s : State) : (placeCommand c s).din = s.din := rfl
@[simp] theorem placeCommand_dout (c : Word32) (s : State) : (placeCommand c s).dout = s.dout := rfl
@[simp] theorem placeCommand_rsp (c : Word32) (s : State) : (placeCommand c s).rsp = s.rsp := rfl

@[simp] theorem beginReset_acc (s : State) : (beginReset s).acc = Acc.zero := rfl
@[simp] theorem beginReset_fault (s : State) : (beginReset s).fault = s.fault := rfl
@[simp] theorem beginReset_cause (s : State) : (beginReset s).cause = s.cause := rfl
@[simp] theorem beginReset_finfo (s : State) : (beginReset s).finfo = s.finfo := rfl
@[simp] theorem beginReset_ci (s : State) : (beginReset s).ci = s.ci := rfl
@[simp] theorem beginReset_hid (s : State) : (beginReset s).hid = Hidden.idle := rfl
@[simp] theorem beginReset_faultSeen (s : State) : (beginReset s).faultSeen = s.faultSeen := rfl
@[simp] theorem beginReset_rst (s : State) : (beginReset s).rst = s.rst := rfl
@[simp] theorem beginReset_resetTaken (s : State) : (beginReset s).resetTaken = s.resetTaken := rfl
@[simp] theorem beginReset_doutReady (s : State) : (beginReset s).doutReady = s.doutReady := rfl
@[simp] theorem beginReset_rspReady (s : State) : (beginReset s).rspReady = s.rspReady := rfl
@[simp] theorem beginReset_cmd (s : State) : (beginReset s).cmd = s.cmd := rfl
@[simp] theorem beginReset_din (s : State) : (beginReset s).din = s.din := rfl
@[simp] theorem beginReset_dout (s : State) : (beginReset s).dout = s.dout := rfl
@[simp] theorem beginReset_rsp (s : State) : (beginReset s).rsp = s.rsp := rfl

@[simp] theorem settleAdders_acc (s : State) : (settleAdders s).acc = (drain s.adders).acc := rfl
@[simp] theorem settleAdders_fault (s : State) : (settleAdders s).fault = s.fault := rfl
@[simp] theorem settleAdders_cause (s : State) : (settleAdders s).cause = s.cause := rfl
@[simp] theorem settleAdders_finfo (s : State) : (settleAdders s).finfo = s.finfo := rfl
@[simp] theorem settleAdders_ci (s : State) : (settleAdders s).ci = s.ci := rfl
@[simp] theorem settleAdders_hid (s : State) :
    (settleAdders s).hid = { s.hid with va := (drain s.adders).va, vb := (drain s.adders).vb, vc := (drain s.adders).vc } := rfl
@[simp] theorem settleAdders_faultSeen (s : State) : (settleAdders s).faultSeen = s.faultSeen := rfl
@[simp] theorem settleAdders_rst (s : State) : (settleAdders s).rst = s.rst := rfl
@[simp] theorem settleAdders_resetTaken (s : State) : (settleAdders s).resetTaken = s.resetTaken := rfl
@[simp] theorem settleAdders_doutReady (s : State) : (settleAdders s).doutReady = s.doutReady := rfl
@[simp] theorem settleAdders_rspReady (s : State) : (settleAdders s).rspReady = s.rspReady := rfl
@[simp] theorem settleAdders_cmd (s : State) : (settleAdders s).cmd = s.cmd := rfl
@[simp] theorem settleAdders_din (s : State) : (settleAdders s).din = s.din := rfl
@[simp] theorem settleAdders_dout (s : State) : (settleAdders s).dout = s.dout := rfl
@[simp] theorem settleAdders_rsp (s : State) : (settleAdders s).rsp = s.rsp := rfl

@[simp] theorem consumePayload_acc (s : State) :
    (consumePayload s).acc = (feedBytes (s.acc, s.hid.held) (s.din.take s.payloadNow)).1 := rfl
@[simp] theorem consumePayload_fault (s : State) : (consumePayload s).fault = s.fault := rfl
@[simp] theorem consumePayload_cause (s : State) : (consumePayload s).cause = s.cause := rfl
@[simp] theorem consumePayload_finfo (s : State) : (consumePayload s).finfo = s.finfo := rfl
@[simp] theorem consumePayload_ci (s : State) : (consumePayload s).ci = s.ci := rfl
@[simp] theorem consumePayload_hid (s : State) : (consumePayload s).hid =
    { s.hid with
      held := (feedBytes (s.acc, s.hid.held) (s.din.take s.payloadNow)).2
      remaining := BitVec.ofNat 28 (s.hid.remaining.toNat - s.payloadNow) } := rfl
@[simp] theorem consumePayload_faultSeen (s : State) : (consumePayload s).faultSeen = s.faultSeen := rfl
@[simp] theorem consumePayload_rst (s : State) : (consumePayload s).rst = s.rst := rfl
@[simp] theorem consumePayload_resetTaken (s : State) : (consumePayload s).resetTaken = s.resetTaken := rfl
@[simp] theorem consumePayload_doutReady (s : State) : (consumePayload s).doutReady = s.doutReady := rfl
@[simp] theorem consumePayload_rspReady (s : State) : (consumePayload s).rspReady = s.rspReady := rfl
@[simp] theorem consumePayload_cmd (s : State) : (consumePayload s).cmd = s.cmd := rfl
@[simp] theorem consumePayload_din (s : State) : (consumePayload s).din = s.din.drop s.payloadNow := rfl
@[simp] theorem consumePayload_dout (s : State) : (consumePayload s).dout = s.dout := rfl
@[simp] theorem consumePayload_rsp (s : State) : (consumePayload s).rsp = s.rsp := rfl

@[simp] theorem holdBytes_acc (held rest : List Byte) (s : State) : (holdBytes held rest s).acc = s.acc := rfl
@[simp] theorem holdBytes_fault (held rest : List Byte) (s : State) : (holdBytes held rest s).fault = s.fault := rfl
@[simp] theorem holdBytes_cause (held rest : List Byte) (s : State) : (holdBytes held rest s).cause = s.cause := rfl
@[simp] theorem holdBytes_finfo (held rest : List Byte) (s : State) : (holdBytes held rest s).finfo = s.finfo := rfl
@[simp] theorem holdBytes_ci (held rest : List Byte) (s : State) : (holdBytes held rest s).ci = s.ci := rfl
@[simp] theorem holdBytes_hid (held rest : List Byte) (s : State) :
    (holdBytes held rest s).hid = { s.hid with held := held, remaining := s.hid.remaining - 1#28 } := rfl
@[simp] theorem holdBytes_faultSeen (held rest : List Byte) (s : State) :
    (holdBytes held rest s).faultSeen = s.faultSeen := rfl
@[simp] theorem holdBytes_rst (held rest : List Byte) (s : State) : (holdBytes held rest s).rst = s.rst := rfl
@[simp] theorem holdBytes_resetTaken (held rest : List Byte) (s : State) :
    (holdBytes held rest s).resetTaken = s.resetTaken := rfl
@[simp] theorem holdBytes_doutReady (held rest : List Byte) (s : State) :
    (holdBytes held rest s).doutReady = s.doutReady := rfl
@[simp] theorem holdBytes_rspReady (held rest : List Byte) (s : State) :
    (holdBytes held rest s).rspReady = s.rspReady := rfl
@[simp] theorem holdBytes_cmd (held rest : List Byte) (s : State) : (holdBytes held rest s).cmd = s.cmd := rfl
@[simp] theorem holdBytes_din (held rest : List Byte) (s : State) : (holdBytes held rest s).din = rest := rfl
@[simp] theorem holdBytes_dout (held rest : List Byte) (s : State) : (holdBytes held rest s).dout = s.dout := rfl
@[simp] theorem holdBytes_rsp (held rest : List Byte) (s : State) : (holdBytes held rest s).rsp = s.rsp := rfl

@[simp] theorem countRsp_acc (s : State) : (countRsp s).acc = s.acc := rfl
@[simp] theorem countRsp_fault (s : State) : (countRsp s).fault = s.fault := rfl
@[simp] theorem countRsp_cause (s : State) : (countRsp s).cause = s.cause := rfl
@[simp] theorem countRsp_finfo (s : State) : (countRsp s).finfo = s.finfo := rfl
@[simp] theorem countRsp_ci (s : State) : (countRsp s).ci = s.ci := rfl
@[simp] theorem countRsp_hid (s : State) :
    (countRsp s).hid = { s.hid with sumwIdx := s.hid.sumwIdx + 1#2, offered := false } := rfl
@[simp] theorem countRsp_faultSeen (s : State) : (countRsp s).faultSeen = s.faultSeen := rfl
@[simp] theorem countRsp_rst (s : State) : (countRsp s).rst = s.rst := rfl
@[simp] theorem countRsp_resetTaken (s : State) : (countRsp s).resetTaken = s.resetTaken := rfl
@[simp] theorem countRsp_doutReady (s : State) : (countRsp s).doutReady = s.doutReady := rfl
@[simp] theorem countRsp_rspReady (s : State) : (countRsp s).rspReady = s.rspReady := rfl
@[simp] theorem countRsp_cmd (s : State) : (countRsp s).cmd = s.cmd := rfl
@[simp] theorem countRsp_din (s : State) : (countRsp s).din = s.din := rfl
@[simp] theorem countRsp_dout (s : State) : (countRsp s).dout = s.dout := rfl
@[simp] theorem countRsp_rsp (s : State) : (countRsp s).rsp = s.rsp := rfl

@[simp] theorem countDout_acc (s : State) : (countDout s).acc = s.acc := rfl
@[simp] theorem countDout_fault (s : State) : (countDout s).fault = s.fault := rfl
@[simp] theorem countDout_cause (s : State) : (countDout s).cause = s.cause := rfl
@[simp] theorem countDout_finfo (s : State) : (countDout s).finfo = s.finfo := rfl
@[simp] theorem countDout_ci (s : State) : (countDout s).ci = s.ci := rfl
@[simp] theorem countDout_hid (s : State) :
    (countDout s).hid = { s.hid with sumIdx := s.hid.sumIdx + 1#5, offered := false } := rfl
@[simp] theorem countDout_faultSeen (s : State) : (countDout s).faultSeen = s.faultSeen := rfl
@[simp] theorem countDout_rst (s : State) : (countDout s).rst = s.rst := rfl
@[simp] theorem countDout_resetTaken (s : State) : (countDout s).resetTaken = s.resetTaken := rfl
@[simp] theorem countDout_doutReady (s : State) : (countDout s).doutReady = s.doutReady := rfl
@[simp] theorem countDout_rspReady (s : State) : (countDout s).rspReady = s.rspReady := rfl
@[simp] theorem countDout_cmd (s : State) : (countDout s).cmd = s.cmd := rfl
@[simp] theorem countDout_din (s : State) : (countDout s).din = s.din := rfl
@[simp] theorem countDout_dout (s : State) : (countDout s).dout = s.dout := rfl
@[simp] theorem countDout_rsp (s : State) : (countDout s).rsp = s.rsp := rfl

end Sys2Proof.Machine
end

