-- ==== Sys2Proof/Laws/Ops.lean ====
section
/-! SUPPORT. What the shared operations do: the word assembler over lists of bytes, and `advance` phase by phase, with
what it never changes. -/

namespace Sys2Proof.Machine

@[simp] theorem feedBytes_nil (p : Acc × List Byte) : feedBytes p [] = p := rfl

@[simp] theorem feedBytes_cons (p : Acc × List Byte) (b : Byte) (bs : List Byte) :
    feedBytes p (b :: bs) = feedBytes (feedByte p b) bs := rfl

theorem feedBytes_append (p : Acc × List Byte) (bs cs : List Byte) :
    feedBytes p (bs ++ cs) = feedBytes (feedBytes p bs) cs := by
  induction bs generalizing p with
  | nil => rfl
  | cons b bs ih => exact ih (feedByte p b)

/-- Four bytes into an empty assembler are one `Fold` of their word, and leave it empty (R122). -/
theorem feedBytes_word (x : Acc) (b0 b1 b2 b3 : Byte) (bs : List Byte) :
    feedBytes (x, []) (b0 :: b1 :: b2 :: b3 :: bs) = feedBytes (fold x (le32 b0 b1 b2 b3), []) bs := rfl

/-- The assembler never holds a fourth byte (R33). -/
theorem feedByte_held_le (p : Acc × List Byte) (b : Byte) (h : p.2.length ≤ 3) : (feedByte p b).2.length ≤ 3 := by
  obtain ⟨x, held⟩ := p
  match held, h with
  | [], _ => simp [feedByte]
  | [_], _ => simp [feedByte]
  | [_, _], _ => simp [feedByte]
  | [_, _, _], _ => simp [feedByte]

theorem feedByte_held_mod (p : Acc × List Byte) (b : Byte) (h : p.2.length ≤ 3) :
    (feedByte p b).2.length = (p.2.length + 1) % 4 := by
  obtain ⟨x, held⟩ := p
  match held, h with
  | [], _ => simp [feedByte]
  | [_], _ => simp [feedByte]
  | [_, _], _ => simp [feedByte]
  | [_, _, _], _ => simp [feedByte]

theorem feedBytes_held (p : Acc × List Byte) (bs : List Byte) (h : p.2.length ≤ 3) :
    (feedBytes p bs).2.length = (p.2.length + bs.length) % 4 := by
  induction bs generalizing p with
  | nil => simp; omega
  | cons b bs ih =>
    rw [feedBytes_cons, ih _ (feedByte_held_le p b h), feedByte_held_mod p b h, List.length_cons]
    omega

theorem wordsOf_append (p q : List Byte) (h : p.length % 4 = 0) : wordsOf (p ++ q) = wordsOf p ++ wordsOf q := by
  match p, h with
  | [], _ => rfl
  | [_], h => simp at h
  | [_, _], h => simp at h
  | [_, _, _], h => simp at h
  | a :: b :: c :: d :: p, h =>
    have := wordsOf_append p q (by simp at h; omega)
    simp [wordsOf, this]

/-- The whole of what the assembler does from empty: its words are folded, and the bytes after the last whole word are
held. -/
theorem feedBytes_eq (x : Acc) (p : List Byte) :
    feedBytes (x, []) p = (foldAll x (wordsOf p), p.drop (4 * (p.length / 4))) := by
  match p with
  | [] => rfl
  | [_] => simp [feedByte, wordsOf]
  | [_, _] => simp [feedByte, wordsOf]
  | [_, _, _] => simp [feedByte, wordsOf]
  | a :: b :: c :: d :: p =>
    rw [feedBytes_word, feedBytes_eq]
    simp only [wordsOf, foldAll_cons, List.length_cons]
    rw [show 4 * ((p.length + 1 + 1 + 1 + 1) / 4) = 4 * (p.length / 4) + 1 + 1 + 1 + 1 by omega]
    simp

theorem misaligned_iff (len : Nat) : misaligned len = true ↔ len % 4 ≠ 0 := by simp [misaligned, Config.wordBytes]

theorem responseBeats_write (x : Acc) (len : Nat) (h : len ≤ Config.lenMax) :
    responseBeats x (encode (.write len)) = [lenBeat len] := by
  simp [responseBeats, decode_of_write _ (opField_encode_write len h), lenField_encode_write len h]

theorem responseBeats_sumw (x : Acc) : responseBeats x (encode .sumw) = [x.a, x.b, x.c, x.d] := by
  simp [responseBeats, show decode (encode .sumw) = .ok .sumw from by decide]

theorem responseBeats_size (x : Acc) : responseBeats x (encode .size) = [32#64] := by
  simp [responseBeats, show decode (encode .size) = .ok .size from by decide, Config.sizeConst]

theorem responseBeats_blksz (x : Acc) : responseBeats x (encode .blksz) = [4#64] := by
  simp [responseBeats, show decode (encode .blksz) = .ok .blksz from by decide, Config.blkszConst]

/-- With no addition owed there is nothing to settle. -/
theorem settleAdders_of_settled (s : State) (h : s.adders.settled = true) : settleAdders s = s := by
  rw [settleAdders, drain_of_settled _ h]
  rfl

theorem consumePayload_of_remaining_zero (s : State) (h : s.hid.remaining = 0#28) : consumePayload s = s := by
  cases s with
  | mk acc fault cause finfo ci hid =>
    cases hid
    simp_all [consumePayload, State.payloadNow]

theorem advanceResponse_of_ready (s : State) (h : s.rspReady = true) :
    advanceResponse s = finishCommand (pushRsp s.owedRsp s) := by simp [advanceResponse, h]

theorem advanceResponse_of_not_ready (s : State) (h : s.rspReady = false) : advanceResponse s = offerBeat s := by
  simp [advanceResponse, h]

theorem advanceDigest_of_ready (s : State) (h : s.doutReady = true) :
    advanceDigest s = finishCommand (pushDout s.owedDout s) := by simp [advanceDigest, h]

theorem advanceDigest_of_not_ready (s : State) (h : s.doutReady = false) : advanceDigest s = offerBeat s := by
  simp [advanceDigest, h]

theorem advance_of_idle (s : State) (h : s.hid.phase = .idle) : advance s = s := by simp [advance, h]

theorem advance_of_decode (s : State) (h : s.hid.phase = .decode) : advance s = s := by simp [advance, h]

theorem advance_of_payload (s : State) (h : s.hid.phase = .payload) : advance s = advancePayload s := by
  simp [advance, h]

theorem advance_of_response (s : State) (h : s.hid.phase = .response) : advance s = advanceResponse s := by
  simp [advance, h]

theorem advance_of_digest (s : State) (h : s.hid.phase = .digest) : advance s = advanceDigest s := by
  simp [advance, h]

/-- Two states agree on all that no command in progress changes: the fault registers, the command index, CMD and the pins
the host drives. -/
structure SameControl (s t : State) : Prop where
  fault : t.fault = s.fault
  cause : t.cause = s.cause
  finfo : t.finfo = s.finfo
  ci : t.ci = s.ci
  faultSeen : t.faultSeen = s.faultSeen
  rst : t.rst = s.rst
  resetTaken : t.resetTaken = s.resetTaken
  doutReady : t.doutReady = s.doutReady
  rspReady : t.rspReady = s.rspReady
  cmd : t.cmd = s.cmd

theorem advanceResponse_control (s : State) : SameControl s (advanceResponse s) := by
  unfold advanceResponse
  split <;> constructor <;> simp

theorem advanceDigest_control (s : State) : SameControl s (advanceDigest s) := by
  unfold advanceDigest
  split <;> constructor <;> simp

theorem SameControl.trans {s t u : State} (h : SameControl s t) (k : SameControl t u) : SameControl s u :=
  ⟨k.fault.trans h.fault, k.cause.trans h.cause, k.finfo.trans h.finfo, k.ci.trans h.ci, k.faultSeen.trans h.faultSeen,
    k.rst.trans h.rst, k.resetTaken.trans h.resetTaken, k.doutReady.trans h.doutReady, k.rspReady.trans h.rspReady, k.cmd.trans h.cmd⟩

theorem advancePayload_control (s : State) : SameControl s (advancePayload s) := by
  have h : SameControl s (consumePayload (settleAdders s)) := by constructor <;> simp
  simp only [advancePayload]
  split
  · refine h.trans (SameControl.trans ?_ (advanceResponse_control _))
    constructor <;> simp
  · exact h

/-- What `advance` leaves unchanged, in whatever phase. -/
theorem advance_control (s : State) : SameControl s (advance s) := by
  unfold advance
  split
  · constructor <;> rfl
  · constructor <;> rfl
  · exact advancePayload_control s
  · exact advanceResponse_control s
  · exact advanceDigest_control s

end Sys2Proof.Machine
end

