-- ==== Sys2Proof/Laws/Port.lean ====
section
/-! SUPPORT. What the parts of a clock edge do: the word assembler at one edge, the adder stage against the drain, a
phase that answers, and `edge` by its tests. -/

namespace Sys2Proof.Machine

/-- An edge with no word owes the drain what it owed before. -/
theorem drain_addersEdge_none (pipelined : Bool) (k : Pace) (p : AdderStage) :
    drain (addersEdge pipelined k none p) = drain p := by
  cases pipelined with
  | true => exact drain_stagesEdge_none k p
  | false => rfl

/-- An edge with a word adds one `Fold` to what the drain gives. -/
theorem drain_addersEdge_some (pipelined : Bool) (k : Pace) (w : Word32) (p : AdderStage)
    (h : pipelined = false → p.settled = true) (hk : p.takesWord k = true) :
    drain (addersEdge pipelined k (some w) p) = { drain p with acc := fold (drain p).acc w } := by
  cases pipelined with
  | true => exact drain_stagesEdge_some k w p hk
  | false =>
    have hs := h rfl
    have e : addersEdge false k (some w) p = { p with acc := fold p.acc w } := by
      simp [addersEdge, parallelStep_eq, fold, add64_eq, BitVec.add_assoc]
    rw [e, drain_of_settled p hs, drain_of_settled _ (by simpa [AdderStage.settled] using hs)]

theorem sub_one_toNat (k : BitVec 28) (h : k ≠ 0#28) : (k - 1#28).toNat = k.toNat - 1 := by
  have h1 : k.toNat ≠ 0 := fun e => h (BitVec.eq_of_toNat_eq (by simpa using e))
  rw [BitVec.toNat_sub]
  simp
  omega

theorem dinReady_iff (k : Pace) (s : State) : dinReady k s = true ↔
    k.take = true ∧ s.fault = false ∧ s.hid.phase = .payload ∧ s.hid.remaining ≠ 0#28 ∧ wordMayEnter k s = true := by
  simp [dinReady, and_assoc]

theorem cmdReady_iff (k : Pace) (s : State) :
    cmdReady k s = true ↔ k.accept = true ∧ s.rst = false ∧ s.fault = false ∧ s.hid.phase = .idle := by
  simp [cmdReady, and_assoc]

/-- One byte into the assembler: none is taken; or it makes the word `feedByte` folds, which the adder stage takes; or it
makes no word. -/
theorem takeByte_cases (k : Pace) (s : State) :
    (takeByte k s = (none, s) ∧ (dinReady k s = false ∨ s.din = [])) ∨
    (∃ b rest, s.din = b :: rest ∧ dinReady k s = true ∧
      ((∃ w, takeByte k s = (some w, holdBytes [] rest s) ∧ s.adders.takesWord k = true ∧
          ∀ x, feedByte (x, s.hid.held) b = (fold x w, [])) ∨
       (takeByte k s = (none, holdBytes (s.hid.held ++ [b]) rest s) ∧
         ∀ x, feedByte (x, s.hid.held) b = (x, s.hid.held ++ [b])))) := by
  unfold takeByte
  by_cases hr : dinReady k s = true
  · cases hd : s.din with
    | nil =>
      left
      simp
    | cons b rest =>
      right
      refine ⟨b, rest, rfl, hr, ?_⟩
      have hw := ((dinReady_iff k s).mp hr).2.2.2.2
      simp only [wordMayEnter] at hw
      generalize s.hid.held = q at hw ⊢
      match q with
      | [] => right; simp [hr, feedByte]
      | [_] => right; simp [hr, feedByte]
      | [_, _] => right; simp [hr, feedByte]
      | [x, y, z] => left; exact ⟨le32 x y z b, by simp [hr], by simpa using hw, fun _ => rfl⟩
      | _ :: _ :: _ :: _ :: _ => right; simp [hr, feedByte]
  · left
    simp [hr]

/-- One byte into the assembler leaves the control registers, the accumulators and the output channels as they were. -/
theorem takeByte_control (k : Pace) (s : State) :
    SameControl s (takeByte k s).2 ∧ (takeByte k s).2.adders = s.adders ∧ (takeByte k s).2.hid.phase = s.hid.phase ∧
    (takeByte k s).2.dout = s.dout ∧ (takeByte k s).2.rsp = s.rsp := by
  rcases takeByte_cases k s with ⟨h, _⟩ | ⟨b, rest, _, _, ⟨w, h, _⟩ | ⟨h, _⟩⟩ <;> rw [h] <;>
    exact ⟨by constructor <;> rfl, rfl, rfl, rfl, rfl⟩

/-- What sending a response beat does: nothing was owed, or the last beat goes and the command is complete, or one beat
goes and the next is owed. -/
theorem sendRsp_cases (s : State) :
    (s.owedRsp = [] ∧ sendRsp s = finishCommand s) ∨
    (∃ v, s.owedRsp = [v] ∧ sendRsp s = finishCommand (pushRsp [v] s)) ∨
    (∃ v w l, s.owedRsp = v :: w :: l ∧ sendRsp s = pushRsp [v] (countRsp s)) := by
  unfold sendRsp
  match s.owedRsp with
  | [] => exact .inl ⟨rfl, rfl⟩
  | [v] => exact .inr (.inl ⟨v, rfl, rfl⟩)
  | v :: w :: l => exact .inr (.inr ⟨v, w, l, rfl, rfl⟩)

theorem sendDout_cases (s : State) :
    (s.owedDout = [] ∧ sendDout s = finishCommand s) ∨
    (∃ b, s.owedDout = [b] ∧ sendDout s = finishCommand (pushDout [b] s)) ∨
    (∃ b c l, s.owedDout = b :: c :: l ∧ sendDout s = pushDout [b] (countDout s)) := by
  unfold sendDout
  match s.owedDout with
  | [] => exact .inl ⟨rfl, rfl⟩
  | [b] => exact .inr (.inl ⟨b, rfl, rfl⟩)
  | b :: c :: l => exact .inr (.inr ⟨b, c, l, rfl, rfl⟩)

/-- What an edge in the response phase does: the beat is not offered, offered to a sink that is not ready, or sent. -/
theorem responseEdge_cases (k : Pace) (s : State) :
    (offers k s = false ∧ responseEdge k s = s) ∨
    (offers k s = true ∧ s.rspReady = false ∧ responseEdge k s = offerBeat s) ∨
    (offers k s = true ∧ s.rspReady = true ∧ responseEdge k s = sendRsp s) := by
  unfold responseEdge
  cases offers k s <;> cases s.rspReady <;> simp

theorem digestEdge_cases (k : Pace) (s : State) :
    (offers k s = false ∧ digestEdge k s = s) ∨
    (offers k s = true ∧ s.doutReady = false ∧ digestEdge k s = offerBeat s) ∨
    (offers k s = true ∧ s.doutReady = true ∧ digestEdge k s = sendDout s) := by
  unfold digestEdge
  cases offers k s <;> cases s.doutReady <;> simp

/-- What one clock edge does, in the order of its tests. -/
theorem edge_cases (pipelined : Bool) (k : Pace) (s : State) :
    (s.rst = true ∧ edge pipelined k s = hwReset s) ∨
    (s.rst = false ∧ s.fault = true ∧ edge pipelined k s = s) ∨
    (s.rst = false ∧ s.fault = false ∧ s.hid.phase = .idle ∧ (s.cmd = [] ∨ k.accept = false) ∧
      edge pipelined k s = s) ∨
    (∃ c rest, s.rst = false ∧ s.fault = false ∧ s.hid.phase = .idle ∧ s.cmd = c :: rest ∧ k.accept = true ∧
      edge pipelined k s = acceptEdge k c rest s) ∨
    (s.rst = false ∧ s.fault = false ∧ s.hid.phase = .decode ∧ edge pipelined k s = decodeEdge k s) ∨
    (s.rst = false ∧ s.fault = false ∧ s.hid.phase = .payload ∧ edge pipelined k s = payloadEdge pipelined k s) ∨
    (s.rst = false ∧ s.fault = false ∧ s.hid.phase = .response ∧ edge pipelined k s = responseEdge k s) ∨
    (s.rst = false ∧ s.fault = false ∧ s.hid.phase = .digest ∧ edge pipelined k s = digestEdge k s) := by
  unfold edge
  cases hr : s.rst
  · cases hf : s.fault
    · cases hp : s.hid.phase
      · cases hc : s.cmd <;> cases hk : k.accept <;> simp [idleEdge, cmdReady, hr, hf, hp, hc, hk]
      · simp
      · simp
      · simp
      · simp
    · simp
  · simp

end Sys2Proof.Machine
end

