-- ==== Sys2Proof/Laws/HostSide.lean ====
section
/-! SUPPORT. What a move of the host can do: the block's registers are never its own to change, and beats are taken back
only during a hardware reset. -/

namespace Sys2Proof.Machine

/-- No move changes a register of the block. -/
theorem hostMove_block (m : HostMove) (s t : State) (h : hostMove m s = some t) :
    t.acc = s.acc ∧ t.fault = s.fault ∧ t.cause = s.cause ∧ t.finfo = s.finfo ∧ t.ci = s.ci ∧ t.hid = s.hid ∧
    t.faultSeen = s.faultSeen := by
  cases m <;> simp only [hostMove, Option.ite_none_right_eq_some, Option.some.injEq] at h <;>
    first
    | (subst h; simp)
    | (obtain ⟨_, rfl⟩ := h; simp)

/-- Out of hardware reset a move only adds to what is presented. -/
theorem hostMove_presented (m : HostMove) (s t : State) (ht : s.resetTaken = false) (h : hostMove m s = some t) :
    s.cmd <+: t.cmd ∧ s.din <+: t.din := by
  cases m <;> simp [hostMove, ht] at h <;> subst h <;> simp

/-- Beats can be withdrawn only while `rst` is 1: every move keeps that so. -/
theorem hostMove_taken (m : HostMove) (s t : State) (hs : s.resetTaken = true → s.rst = true)
    (h : hostMove m s = some t) : t.resetTaken = true → t.rst = true := by
  cases m <;> simp only [hostMove, Option.ite_none_right_eq_some, Option.some.injEq] at h <;>
    first
    | (subst h; exact hs)
    | (obtain ⟨_, rfl⟩ := h; exact hs)
    | (subst h; simp)

end Sys2Proof.Machine
end

