-- ==== Sys2Proof/Laws/PerInstr.lean ====
section
/-! SUPPORT. For every command: the two fields of its encoding (spec/30_encoding.md R80, R82). -/

namespace Sys2Proof.Laws.Fields

/-- The opcode of a command (R82). -/
def opcode : Instr → BitVec 4
  | .reset => 0x1#4
  | .write _ => 0x2#4
  | .sum => 0x3#4
  | .sumw => 0x4#4
  | .size => 0x5#4
  | .blksz => 0x6#4

/-- The `LEN` field of a command: 0 but for `WRITE` (R82). -/
def length : Instr → Nat
  | .reset => 0
  | .write len => len
  | .sum => 0
  | .sumw => 0
  | .size => 0
  | .blksz => 0

/-- The word of a well-formed command holds its opcode in bits 31:28 and its length in bits 27:0. -/
def Statement (i : Instr) : Prop := i.WellFormed → opField (encode i) = opcode i ∧ lenField (encode i) = length i

theorem reset : Statement .reset := fun _ => by decide

theorem write (len : Nat) : Statement (.write len) := fun h => by
  have hl : len ≤ Config.lenMax := by simpa [Instr.WellFormed, Instr.wellFormed] using h
  exact ⟨opField_encode_write len hl, lenField_encode_write len hl⟩

theorem sum : Statement .sum := fun _ => by decide

theorem sumw : Statement .sumw := fun _ => by decide

theorem size : Statement .size := fun _ => by decide

theorem blksz : Statement .blksz := fun _ => by decide

end Sys2Proof.Laws.Fields
end

