-- ==== Sys2Proof/Laws/Step.lean ====
section
/-! SUPPORT. What a step can do: the inversion of `step`, and of `exec` on the words it runs. -/

namespace Sys2Proof.Machine

/-- A decoded command is well-formed. -/
theorem wellFormed_of_decode (c : Word32) (i : Instr) (h : decode c = .ok i) : i.WellFormed := by
  cases i with
  | write len =>
    have := lenField_le c
    simp [Instr.WellFormed, Instr.wellFormed, ← (opField_of_decode_write c len h).2, this]
  | reset => rfl
  | sum => rfl
  | sumw => rfl
  | size => rfl
  | blksz => rfl

/-- `exec` of a `WRITE` some word holds. -/
theorem execWrite_of_le (len : Nat) (s : State) (h : len ≤ Config.lenMax) :
    execWrite len s = .next (advance (beginWrite len s)) := by
  simp [execWrite, Nat.not_lt.mpr h]

/-- A well-formed command is its decode, carried as far as the channels let it. -/
theorem exec_eq (i : Instr) (s : State) (h : i.WellFormed) : exec i s = .next (advance (beginInstr i s)) := by
  cases i with
  | reset => rfl
  | write len => exact execWrite_of_le len s (by simpa [Instr.WellFormed, Instr.wellFormed] using h)
  | sum => rfl
  | sumw => rfl
  | size => rfl
  | blksz => rfl

/-- A command word is executed by its decode, carried as far as the channels let it. -/
theorem executeWord_eq (c : Word32) (s : State) : executeWord c s = .next (advance (decodeWord c s)) := by
  unfold executeWord decodeWord
  cases h : decode c with
  | error e => rfl
  | ok i => exact exec_eq i s (wellFormed_of_decode c i h)

/-- Decoding a word settles every field of the hidden state, whatever it held before. -/
theorem decodeWord_hid (c : Word32) (s : State) (h : Hidden) : decodeWord c { s with hid := h } = decodeWord c s := by
  unfold decodeWord
  split
  · rfl
  · rename_i i _
    cases i with
    | write len => simp only [beginInstr, beginWrite]; split <;> [rfl; (split <;> rfl)]
    | reset => rfl
    | sum => rfl
    | sumw => rfl
    | size => rfl
    | blksz => rfl

/-- A decoded word is no longer in the decode phase. -/
theorem decodeWord_phase (c : Word32) (s : State) : (decodeWord c s).hid.phase ≠ .decode := by
  unfold decodeWord
  split
  · simp [raiseFault, Hidden.idle]
  · rename_i i _
    cases i with
    | write len =>
      simp only [beginInstr, beginWrite]
      split <;> [simp [raiseFault, Hidden.idle]; (split <;> simp [startCommand])]
    | reset => simp [beginInstr, beginReset, finishCommand, Hidden.idle]
    | sum => simp [beginInstr, beginSum, startCommand]
    | sumw => simp [beginInstr, beginSumw, startCommand]
    | size => simp [beginInstr, beginSize, startCommand]
    | blksz => simp [beginInstr, beginBlksz, startCommand]

/-- Outside the decode phase the word in progress is decoded already. -/
theorem decodeHeld_of_not_decode (s : State) (h : s.hid.phase ≠ .decode) : decodeHeld s = s := by
  unfold decodeHeld
  split
  · rename_i hp _
    exact absurd hp h
  · rfl

theorem resume_of_not_decode (s : State) (h : s.hid.phase ≠ .decode) : resume s = advance s := by
  rw [resume, decodeHeld_of_not_decode s h]

/-- A word held in the decode phase is decoded as at a command boundary. -/
theorem decodeHeld_of_word (s : State) (c : Word32) (hp : s.hid.phase = .decode) (hc : s.hid.cmdWord = some c) :
    decodeHeld s = decodeWord c s := by
  simp [decodeHeld, hp, hc]

/-- The edge that accepts a word holds it, or decodes it too. -/
theorem acceptEdge_eq (k : Pace) (c : Word32) (rest : List Word32) (s : State) :
    acceptEdge k c rest s =
      if k.decode then decodeWord c (acceptCommand rest s) else startCommand .decode c (acceptCommand rest s) := by
  simp only [acceptEdge]
  split
  · rw [decodeHeld_of_word _ c rfl rfl]
    exact decodeWord_hid c (acceptCommand rest s) _
  · rfl

/-- Held or decoded, the word accepted is carried on alike. -/
theorem resume_acceptEdge (k : Pace) (c : Word32) (rest : List Word32) (s : State) :
    resume (acceptEdge k c rest s) = advance (decodeWord c (acceptCommand rest s)) := by
  rw [acceptEdge_eq]
  split
  · exact resume_of_not_decode _ (decodeWord_phase c _)
  · rw [resume, decodeHeld_of_word _ c rfl rfl]
    exact congrArg advance (decodeWord_hid c (acceptCommand rest s) _)

theorem resume_decodeEdge (k : Pace) (s : State) : resume (decodeEdge k s) = resume s := by
  unfold decodeEdge
  split
  · by_cases h : s.hid.phase = .decode
    · cases hc : s.hid.cmdWord with
      | none => simp [decodeHeld, h, hc]
      | some c =>
        rw [decodeHeld_of_word s c h hc, resume_of_not_decode _ (decodeWord_phase c s), resume,
          decodeHeld_of_word s c h hc]
    · rw [decodeHeld_of_not_decode s h]
  · rfl

/-- At a boundary the oldest word is accepted, then executed. -/
theorem step_of_boundary (s : State) (c : Word32) (rest : List Word32) (h : s.AtBoundary) (hc : s.cmd = c :: rest) :
    step s = executeWord c (acceptCommand rest s) := by
  simp [step, sequencerStep, h.rst, h.fault, h.hid, hc, Hidden.idle]

/-- Inside a command a step carries it on. -/
theorem step_of_busy (s : State) (hr : s.rst = false) (hf : s.fault = false) (hp : s.hid.phase ≠ .idle) :
    step s = .next (resume s) := by
  cases h : s.hid.phase <;> simp_all [step, sequencerStep]

theorem steps_zero (s : State) : steps 0 s = some s := rfl

theorem steps_succ (n : Nat) (s t : State) (h : step s = .next t) : steps (n + 1) s = steps n t := by
  simp [steps, h]

theorem events_append (p : Bool) (es fs : List Event) (s t : State) (h : events p es s = some t) :
    events p (es ++ fs) s = events p fs t := by
  induction es generalizing s with
  | nil =>
    cases h
    rfl
  | cons e es ih =>
    simp only [events, List.cons_append] at h ⊢
    cases he : event p e s with
    | none => simp [he] at h
    | some u =>
      simp only [he] at h ⊢
      exact ih u h

/-- What one step does, in the order of its tests. -/
theorem step_cases (s : State) :
    (s.rst = true ∧ step s = .next (hwReset s)) ∨
    (s.rst = false ∧ s.fault = true ∧ step s = .next s) ∨
    (s.rst = false ∧ s.fault = false ∧ s.hid.phase = .idle ∧ s.cmd = [] ∧ step s = .next s) ∨
    (∃ c rest, s.rst = false ∧ s.fault = false ∧ s.hid.phase = .idle ∧ s.cmd = c :: rest ∧
      step s = executeWord c (acceptCommand rest s)) ∨
    (s.rst = false ∧ s.fault = false ∧ s.hid.phase ≠ .idle ∧ step s = .next (resume s)) := by
  unfold step sequencerStep
  cases hr : s.rst
  · cases hf : s.fault
    · cases hp : s.hid.phase
      · cases hc : s.cmd <;> simp
      · simp
      · simp
      · simp
      · simp
    · simp
  · simp

end Sys2Proof.Machine
end

