-- ==== Sys2Proof/Machine/AsmText.lean ====
section
/-! DEFINITION. The text form of a program (spec/30_encoding.md R89, R90): characters to lines. Where the rule leaves the
spelling open, log entry 11 says what is read. -/

namespace Sys2Proof.Machine

/-- The pieces of a text between separators `c`. -/
def splitAtChar (c : Char) : List Char → List (List Char)
  | [] => [[]]
  | x :: xs =>
    if x = c then [] :: splitAtChar c xs
    else
      match splitAtChar c xs with
      | [] => [[x]]
      | w :: ws => (x :: w) :: ws

/-- A line without its comment, which runs from `;` to its end. -/
def stripComment : List Char → List Char
  | [] => []
  | x :: xs => if x = ';' then [] else x :: stripComment xs

/-- The words of a line, which spaces separate. -/
def wordsOfLine (line : List Char) : List (List Char) := (splitAtChar ' ' (stripComment line)).filter (· ≠ [])

/-- The value of a digit; the letters of a hexadecimal one may be of either case. -/
def digitValue (c : Char) : Option Nat :=
  let n := c.toNat
  if 48 ≤ n ∧ n ≤ 57 then some (n - 48)
  else if 97 ≤ n ∧ n ≤ 102 then some (n - 87)
  else if 65 ≤ n ∧ n ≤ 70 then some (n - 55)
  else none

/-- Digits in a base, after the value `acc` of those before them. -/
def digitsValue (base acc : Nat) : List Char → Option Nat
  | [] => some acc
  | c :: cs =>
    match digitValue c with
    | some v => if v < base then digitsValue base (base * acc + v) cs else none
    | none => none

/-- A number: decimal, or hexadecimal with `0x`. -/
def numberOf : List Char → Option Nat
  | [] => none
  | '0' :: 'x' :: d :: ds => digitsValue 16 0 (d :: ds)
  | d :: ds => digitsValue 10 0 (d :: ds)

/-- A number below `bound`. -/
def numberBelow (bound : Nat) (w : List Char) : Option Nat :=
  match numberOf w with
  | some n => if n < bound then some n else none
  | none => none

/-- A 32-bit number. -/
def word32Of (w : List Char) : Option Word32 := (numberBelow (2 ^ 32) w).map (BitVec.ofNat 32)

/-- A byte: two hexadecimal digits without prefix. -/
def byteOf : List Char → Option Byte
  | [h, l] => (digitsValue 16 0 [h, l]).map (BitVec.ofNat 8)
  | _ => none

/-- Every element read, or none. -/
def readAll {α : Type} (f : List Char → Option α) : List (List Char) → Option (List α)
  | [] => some []
  | w :: ws =>
    match f w, readAll f ws with
    | some v, some vs => some (v :: vs)
    | _, _ => none

/-- The operands of a line: those of `WRITE` with its `:`, of `.word`, of the lists of bytes and of words. -/
def operandsOf (mnemonic : List Char) (args : List (List Char)) : Option AsmLine :=
  if mnemonic = ['W', 'R', 'I', 'T', 'E'] then
    match args with
    | len :: [':'] :: bytes =>
      match numberBelow (Config.lenMax + 1) len, readAll byteOf bytes with
      | some n, some bs => some (.write n bs)
      | _, _ => none
    | _ => none
  else if mnemonic = ['.', 'w', 'o', 'r', 'd'] then
    match args with
    | [c] => (word32Of c).map .word
    | _ => none
  else if mnemonic = ['U', 'P', 'D', 'A', 'T', 'E'] then
    match readAll byteOf args with
    | some bs => if bs.length ≤ Config.lenMax then some (.update bs) else none
    | none => none
  else if mnemonic = ['W', 'R', 'I', 'T', 'E', 'W'] then
    match readAll word32Of args with
    | some ws => if 4 * ws.length ≤ Config.lenMaxLegal then some (.writew ws) else none
    | none => none
  else if mnemonic = ['W', 'R', 'I', 'T', 'E', 'L'] then
    match readAll byteOf args with
    | some bs => if Config.lenMaxLegal < bs.length ∧ bs.length % 4 = 0 then some (.writel bs) else none
    | none => none
  else none

/-- A mnemonic that stands alone on its line. -/
def plainOf (mnemonic : List Char) : Option AsmLine :=
  if mnemonic = ['R', 'E', 'S', 'E', 'T'] then some .reset
  else if mnemonic = ['S', 'U', 'M'] then some .sum
  else if mnemonic = ['S', 'U', 'M', 'W'] then some .sumw
  else if mnemonic = ['S', 'I', 'Z', 'E'] then some .size
  else if mnemonic = ['B', 'L', 'K', 'S', 'Z'] then some .blksz
  else if mnemonic = ['H', 'W', 'R', 'E', 'S', 'E', 'T'] then some .hwreset
  else if mnemonic = ['D', 'I', 'G', 'E', 'S', 'T'] then some .digest
  else if mnemonic = ['W', 'O', 'R', 'D', 'S'] then some .words
  else none

/-- One line: none where it is not in the syntax, an empty list where it holds no command. -/
def lineOf (line : List Char) : Option (List AsmLine) :=
  match wordsOfLine line with
  | [] => some []
  | m :: args =>
    match args, plainOf m with
    | [], some l => some [l]
    | _, some _ => none
    | _, none => (operandsOf m args).map fun l => [l]

/-- A program's lines, top to bottom; none where a line is not in the syntax. -/
def programOf (text : List Char) : Option (List AsmLine) := (readAll lineOf (splitAtChar '\n' text)).map List.flatten

end Sys2Proof.Machine
end

