-- ==== Sys2Proof/Tests/Slice0.lean ====
section
/-! SUPPORT. Tests and witnesses. Expected results come from spec/95_test_vectors.md, named at each test, or are written
out from spec/30_encoding.md. A `witness_` theorem shows that the hypotheses of the obligation it is named after can be
met together, clause by clause. -/

namespace Sys2Proof.Tests

open Sys2Proof.Machine

/-! ### Well-formedness and encoding -/

theorem test_wellFormed_refuses_overlong_write : ¬(Instr.write 268435456).WellFormed := by decide

theorem test_wellFormed_accepts_longest_write : (Instr.write 268435455).WellFormed := by decide

theorem test_wellFormed_accepts_plain_commands :
    Instr.reset.WellFormed ∧ Instr.sum.WellFormed ∧ Instr.sumw.WellFormed ∧ Instr.size.WellFormed ∧
    Instr.blksz.WellFormed := by decide

/-- R82, `OP` in bits 31:28 and `LEN` 0: RESET. -/
theorem test_decode_reset : decode 0b0001_0000000000000000000000000000#32 = .ok .reset := by decide

/-- R82: WRITE, with `LEN` = 12 (E8's form) and with the largest length (E11). -/
theorem test_decode_write : decode 0b0010_0000000000000000000000001100#32 = .ok (.write 12) ∧
    decode 0b0010_1111111111111111111111111111#32 = .ok (.write 268435455) := by decide

/-- R82: SUM. -/
theorem test_decode_sum : decode 0b0011_0000000000000000000000000000#32 = .ok .sum := by decide

/-- R82: SUMW. -/
theorem test_decode_sumw : decode 0b0100_0000000000000000000000000000#32 = .ok .sumw := by decide

/-- R82: SIZE. -/
theorem test_decode_size : decode 0b0101_0000000000000000000000000000#32 = .ok .size := by decide

/-- R82: BLKSZ. -/
theorem test_decode_blksz : decode 0b0110_0000000000000000000000000000#32 = .ok .blksz := by decide

/-- Vectors E1, E2, E20, E22, E24: reserved opcodes, with their reason. -/
theorem test_decode_reserved_opcode :
    decode 0x00000000#32 = .error (.reservedOpcode 0x0#4) ∧ decode 0x0FFFFFFF#32 = .error (.reservedOpcode 0x0#4) ∧
    decode 0x70000000#32 = .error (.reservedOpcode 0x7#4) ∧ decode 0xA5A5A5A5#32 = .error (.reservedOpcode 0xA#4) ∧
    decode 0xFFFFFFFF#32 = .error (.reservedOpcode 0xF#4) := by decide

/-- Vectors E4, E13, E15, E17, E19: a length where none may be. -/
theorem test_decode_reserved_length :
    decode 0x10000001#32 = .error (.reservedLen 0x1#4 1) ∧ decode 0x30000020#32 = .error (.reservedLen 0x3#4 32) ∧
    decode 0x40000004#32 = .error (.reservedLen 0x4#4 4) ∧
    decode 0x58000000#32 = .error (.reservedLen 0x5#4 134217728) ∧
    decode 0x60000004#32 = .error (.reservedLen 0x6#4 4) := by decide

/-- R87: the words of the six commands. -/
theorem test_encode : encode .reset = 0x10000000#32 ∧ encode (.write 7) = 0x20000007#32 ∧ encode .sum = 0x30000000#32 ∧
    encode .sumw = 0x40000000#32 ∧ encode .size = 0x50000000#32 ∧ encode .blksz = 0x60000000#32 := by decide

/-- The table numbers the bits of the one word as R80 does. -/
theorem test_decodeTableWord : decodeTableWord 32 0x20000004 = some (.write 4) ∧ decodeTableWord 32 0x30000000 = some .sum ∧
    decodeTableWord 32 0x70000000 = none := by decide

/-! ### The word step -/

/-- Vector F7: all four adders wrap. -/
theorem test_fold_wraps :
    fold { a := 0xFFFFFFFFFFFFFFFF#64, b := 0xFFFFFFFFFFFFFFFF#64, c := 0xFFFFFFFFFFFFFFFF#64,
           d := 0xFFFFFFFFFFFFFFFF#64 } 1#32 =
      { a := 0#64, b := 0xFFFFFFFFFFFFFFFF#64, c := 0xFFFFFFFFFFFFFFFE#64, d := 0xFFFFFFFFFFFFFFFD#64 } := by decide

/-- Vector F11, the general case. -/
theorem test_fold_general :
    fold { a := 0x0123456789ABCDEF#64, b := 0xFEDCBA9876543210#64, c := 0x0F1E2D3C4B5A6978#64,
           d := 0x8877665544332211#64 } 0xDEADBEEF#32 =
      { a := 0x0123456868598CDE#64, b := 0x00000000DEADBEEE#64, c := 0x0F1E2D3D2A082866#64,
        d := 0x979593926E3B4A77#64 } := by decide

/-- Vector F3 in the parallel form. -/
theorem test_parallel_stage :
    parallelStep { a := 1#64, b := 2#64, c := 3#64, d := 4#64 } 0#32 = { a := 1#64, b := 3#64, c := 6#64, d := 10#64 } := by
  decide

/-- The empty adder stage. -/
def freshStage : AdderStage := { acc := Acc.zero, va := false, vb := false, vc := false }

/-- spec/95_test_vectors.md section 3, the pipelined form: the row of edge 1. -/
theorem test_pipeline_skew : pipeEdge (some 2#32) (pipeEdge (some 1#32) freshStage) =
    { acc := { a := 3#64, b := 1#64, c := 0#64, d := 0#64 }, va := true, vb := true, vc := false } := by decide

/-- The same table: the row of edge 4. -/
theorem test_pipeline_drained : drain (pipeEdge (some 2#32) (pipeEdge (some 1#32) freshStage)) =
    { acc := { a := 3#64, b := 4#64, c := 5#64, d := 6#64 }, va := false, vb := false, vc := false } := by decide

/-! ### One command at a time -/

/-- The state of vector V2. -/
def v2Acc : Acc := { a := 0x0c0a0806#64, b := 0x100d0a07#64, c := 0x14100c08#64, d := 0x18130e09#64 }

/-- The state of vector S6. -/
def s6Acc : Acc :=
  { a := 0x0123456789abcdef#64, b := 0xfedcba9876543210#64, c := 0x0f1e2d3c4b5a6978#64, d := 0x8877665544332211#64 }

/-- A block at a command boundary with the accumulators of V2, one command accepted before. -/
def at2 (cmd : List Word32) (din : List Byte) : State := { State.reset with acc := v2Acc, ci := 1, cmd := cmd, din := din }

/-- The block halted by vector V23. -/
def halted (cmd : List Word32) : State :=
  { at2 cmd [] with fault := true, cause := 1#2, finfo := 0x20000005#32, ci := 2, faultSeen := true }

/-- Inside a `WRITE` of 8 bytes with 5 of them taken. -/
def midWrite (din : List Byte) : State :=
  { at2 [] din with
    hid := { Hidden.idle with phase := .payload, cmdWord := some 0x20000008#32, held := [5#8], remaining := 3#28 } }

/-- With the command word `c` held and not yet decoded. -/
def midDecode (c : Word32) (din : List Byte) : State :=
  { at2 [] din with hid := { Hidden.idle with phase := .decode, cmdWord := some c } }

/-- Inside a `SUMW` with one beat sent and the next one offered. -/
def midSumw (ready : Bool) : State :=
  { at2 [] [] with
    rspReady := ready
    hid := { Hidden.idle with phase := .response, cmdWord := some 0x40000000#32, sumwIdx := 1#2, offered := true } }

/-- Inside a `SUM` with 31 bytes sent and the last one offered. -/
def midSum (ready : Bool) : State :=
  { at2 [] [] with
    doutReady := ready
    hid := { Hidden.idle with phase := .digest, cmdWord := some 0x30000000#32, sumIdx := 31#5, offered := true } }

/-- The next state, where there is one. -/
def after (o : Host.Outcome State Fault Refusal) : Option State :=
  match o with
  | .next t => some t
  | .fault _ => none
  | .refused _ => none

/-- Vector V2: WRITE of two words on a fresh block. -/
theorem test_write : (after (exec (.write 8) { State.reset with din := [1#8, 2#8, 3#8, 4#8, 5#8, 6#8, 7#8, 8#8] })).map
    (fun t => (t.acc, t.rsp, t.din)) = some (v2Acc, [8#64], []) := by decide

/-- Vector V23: a length of 5 faults before anything else; the five bytes stay. -/
theorem test_write_misaligned : (after (step (at2 [0x20000005#32] [9#8, 10#8, 11#8, 12#8, 13#8]))).map
    (fun t => ((t.acc, t.din.length, t.rsp), (t.fault, t.cause, t.finfo))) =
      some ((v2Acc, 5, []), (true, 1#2, 0x20000005#32)) := by decide

/-- Vector V41: RESET, counted. -/
theorem test_reset : (after (step (at2 [0x10000000#32] [9#8]))).map (fun t => (t.acc, t.ci, t.din, t.rsp, t.dout)) =
    some (Acc.zero, 2, [9#8], [], []) := by decide

/-- Vector S6: SUM. -/
theorem test_sum : (after (exec .sum { at2 [] [] with acc := s6Acc })).map State.dout =
    some [0xef#8, 0xcd#8, 0xab#8, 0x89#8, 0x67#8, 0x45#8, 0x23#8, 0x01#8,
          0x10#8, 0x32#8, 0x54#8, 0x76#8, 0x98#8, 0xba#8, 0xdc#8, 0xfe#8,
          0x78#8, 0x69#8, 0x5a#8, 0x4b#8, 0x3c#8, 0x2d#8, 0x1e#8, 0x0f#8,
          0x11#8, 0x22#8, 0x33#8, 0x44#8, 0x55#8, 0x66#8, 0x77#8, 0x88#8] := by decide

/-- Vector S6: SUMW. -/
theorem test_sumw : (after (exec .sumw { at2 [] [] with acc := s6Acc })).map (fun t => (t.rsp, t.acc)) =
    some ([0x0123456789abcdef#64, 0xfedcba9876543210#64, 0x0f1e2d3c4b5a6978#64, 0x8877665544332211#64], s6Acc) := by
  decide

/-- Vector K2's form: SIZE from a state that is not fresh. -/
theorem test_size : (after (exec .size (at2 [] []))).map (fun t => (t.rsp, t.acc)) =
    some ([0x0000000000000020#64], v2Acc) := by decide

/-- Vector K4: BLKSZ. -/
theorem test_blksz : (after (exec .blksz (at2 [] []))).map (fun t => (t.rsp, t.acc)) =
    some ([0x0000000000000004#64], v2Acc) := by decide

/-- Vector E1: the all-zero word. -/
theorem test_illegal_word : (after (step (at2 [0x00000000#32] []))).map (fun t => (t.fault, t.cause, t.finfo, t.acc)) =
    some (true, 2#2, 0x00000000#32, v2Acc) := by decide

/-- Vector V43: a halted block does not accept `RESET`. -/
theorem test_halted : after (step (halted [0x10000000#32])) = some (halted [0x10000000#32]) := by decide

/-- Vector V44: hardware reset leaves a fresh block. -/
theorem test_hardware_reset : (after (step { halted [] with rst := true })).map
    (fun t => (t.acc, t.fault, t.cause, t.finfo, t.ci, t.hid)) =
      some (Acc.zero, false, 0#2, 0#32, 0, Hidden.idle) := by decide

/-- `withFetchWord`: the next step runs the word, from reset and from a halted block. -/
theorem test_withFetchWord : (after (step (State.reset.withFetchWord 32 0x50000000))).map State.rsp = some [32#64] ∧
    (after (step ((halted []).withFetchWord 32 0x60000000))).map State.rsp = some [4#64] := by decide

/-- Edge by edge, `WRITE 4` of vector V1 in the pipeline: one edge for the word, four for the bytes, three to drain, one
for the response. -/
theorem test_edges_write :
    (fun t : State => (t.acc, t.rsp, cmdReady Pace.full t))
      (edges true (List.replicate 9 Pace.full) { State.reset with cmd := [0x20000004#32], din := [1#8, 2#8, 3#8, 4#8] }) =
    ({ a := 0x04030201#64, b := 0x04030201#64, c := 0x04030201#64, d := 0x04030201#64 }, [4#64], true) := by decide

/-- R240, R126: `WRITE 0` answers at the very edge after the one that takes its word, where the block holds nothing back. -/
theorem test_edges_write_zero :
    rspPin Pace.full (edge false Pace.full (at2 [0x20000000#32] [])) = some 0#64 ∧
    edges false [Pace.full, Pace.full] (at2 [0x20000000#32] []) = { at2 [] [] with ci := 2, rsp := [0#64] } := by decide

/-- R240, R37: the fault pins rise at whatever edge decodes the word, at the one that takes it or later. -/
theorem test_edges_fault_late :
    (statusPins (edge true { Pace.full with decode := false } (at2 [0x20000007#32] []))).fault = false ∧
    cmdReady Pace.full (edge true { Pace.full with decode := false } (at2 [0x20000007#32] [])) = false ∧
    (statusPins (edges true [{ Pace.full with decode := false }, Pace.full] (at2 [0x20000007#32] []))) =
      { fault := true, faultCause := 1#2, faultInfo := 0x20000007#32 } ∧
    (statusPins (edge true Pace.full (at2 [0x20000007#32] []))).fault = true := by decide

/-- A block that does nothing of its own accord at an edge: it takes no byte and no addition is made. -/
theorem test_edge_held_back :
    edge true { Pace.full with take := false } (midWrite [6#8]) = midWrite [6#8] ∧
    dinReady { Pace.full with take := false } (midWrite [6#8]) = false ∧
    (stagesEdge { Pace.full with addC := false } none
      { acc := { a := 3#64, b := 1#64, c := 0#64, d := 0#64 }, va := true, vb := true, vc := false }) =
      { acc := { a := 3#64, b := 1#64, c := 0#64, d := 0#64 }, va := true, vb := true, vc := false } := by decide

/-- R51: a digest byte offered stays offered at an edge of any pace, and is transferred when the sink is ready. -/
theorem test_offered_beat_stays :
    doutPin { Pace.full with offer := false } (midSum false) = some 0x00#8 ∧
    edge false { Pace.full with offer := false } (midSum false) = midSum false ∧
    (edge false { Pace.full with offer := false } (midSum true)).hid = Hidden.idle := by decide

/-- R212, R235: no beat is withdrawn before an edge has taken hardware reset, and DIN is cleared after one. -/
theorem test_withdraw :
    events true [.host (.setRst true), .host .withdrawDin] (midWrite [6#8]) = none ∧
    (events true [.host (.setRst true), .clock Pace.full, .host .withdrawDin, .host (.setRst false)]
      (midWrite [6#8])).map (fun t => (t.din, t.resetTaken, t.acc)) = some ([], false, Acc.zero) := by decide

/-- `WRITEW 1 2` presents the bytes vector V9 lists. -/
theorem test_writew : (AsmLine.writew [1#32, 2#32]).presents =
    [(0x20000008#32, [1#8, 0#8, 0#8, 0#8, 2#8, 0#8, 0#8, 0#8])] := by decide

/-- R89: a line with a comment, and one with a length and bytes. -/
theorem test_text_line :
    lineOf ['S', 'U', 'M', ' ', ';', ' ', '0', 'x', '3'] = some [.sum] ∧
    lineOf ['W', 'R', 'I', 'T', 'E', ' ', '5', ' ', ':', ' ', '0', '9', ' ', 'f', 'f'] = some [.write 5 [0x09#8, 0xff#8]] ∧
    lineOf ['.', 'w', 'o', 'r', 'd', ' ', '0', 'x', '7', 'F'] = some [.word 0x7F#32] ∧
    lineOf ['s', 'u', 'm'] = none := by decide

/-- R89, R90: lines top to bottom, an empty one between them. -/
theorem test_text_program :
    programOf ['R', 'E', 'S', 'E', 'T', '\n', '\n', 'W', 'R', 'I', 'T', 'E', 'W', ' ', '1', ' ', '2'] =
      some [.reset, .writew [1#32, 2#32]] := by decide

/-! ### Witnesses -/

theorem at2_boundary (cmd : List Word32) (din : List Byte) : (at2 cmd din).AtBoundary := ⟨rfl, rfl, rfl⟩

theorem at2_inv (cmd : List Word32) (din : List Byte) : (at2 cmd din).Inv :=
  ⟨fun _ => ⟨rfl, rfl⟩, (nomatch ·), (nomatch ·), (nomatch ·), (nomatch ·), fun _ => rfl, (nomatch ·),
    (nomatch ·), (nomatch ·), (nomatch ·)⟩

theorem halted_inv (cmd : List Word32) : (halted cmd).Inv :=
  ⟨(nomatch ·), fun _ => .inl ⟨rfl, show misalignedWriteWord 0x20000005#32 = true by decide⟩, fun _ => rfl,
    (nomatch ·), fun _ => rfl, fun _ => rfl, (nomatch ·), (nomatch ·), (nomatch ·), (nomatch ·)⟩

theorem midDecode_inv (c : Word32) (din : List Byte) : (midDecode c din).Inv :=
  ⟨fun _ => ⟨rfl, rfl⟩, (nomatch ·), (nomatch ·), (nomatch ·), (nomatch ·), (nomatch ·), fun _ => ⟨c, rfl⟩,
    (nomatch ·), (nomatch ·), (nomatch ·)⟩

theorem midWrite_inv (din : List Byte) : (midWrite din).Inv :=
  ⟨fun _ => ⟨rfl, rfl⟩, (nomatch ·), (nomatch ·), (nomatch ·), (nomatch ·), (nomatch ·),
    (nomatch ·), fun _ => ⟨⟨0x20000008#32, rfl, by decide, show 1 + 3 ≤ lenField 0x20000008#32 by decide⟩, show 1 ≤ 3 by decide,
      show (1 + 3) % 4 = 0 by decide, rfl, rfl, rfl⟩, (nomatch ·),
    (nomatch ·)⟩

theorem midSumw_inv (ready : Bool) : (midSumw ready).Inv :=
  ⟨fun _ => ⟨rfl, rfl⟩, (nomatch ·), (nomatch ·), (nomatch ·), (nomatch ·), (nomatch ·),
    (nomatch ·), (nomatch ·), fun _ => ⟨.inr (.inl rfl), fun h => absurd rfl h, rfl, ⟨rfl, rfl, rfl, rfl, rfl⟩⟩,
    (nomatch ·)⟩

theorem midSum_inv (ready : Bool) : (midSum ready).Inv :=
  ⟨fun _ => ⟨rfl, rfl⟩, (nomatch ·), (nomatch ·), (nomatch ·), (nomatch ·), (nomatch ·),
    (nomatch ·), (nomatch ·), (nomatch ·), fun _ => ⟨rfl, rfl, ⟨rfl, rfl, rfl, rfl, rfl⟩⟩⟩

/-- A length at each end of its range, with the payload there. -/
theorem witness_WriteFoldsItsPayload :
    ((at2 [] []).AtBoundary ∧ (at2 [] []).rspReady = true ∧ 0 % 4 = 0 ∧ 0 ≤ 268435455 ∧ 0 ≤ (at2 [] []).din.length) ∧
    ∃ s : State, s.AtBoundary ∧ s.rspReady = true ∧ 268435452 % 4 = 0 ∧ 268435452 ≤ 268435455 ∧
      268435452 ≤ s.din.length :=
  ⟨⟨at2_boundary _ _, by decide⟩,
    at2 [] (List.replicate 268435452 0#8), at2_boundary _ _, rfl, by decide, by decide,
    Nat.le_of_eq List.length_replicate.symm⟩

theorem witness_OverflowWrapsSilently :
    ((at2 [] [1#8, 2#8, 3#8, 4#8]).AtBoundary ∧ (at2 [] [1#8, 2#8, 3#8, 4#8]).rspReady = true ∧ 4 % 4 = 0 ∧
      4 ≤ 268435455 ∧ 4 ≤ (at2 [] [1#8, 2#8, 3#8, 4#8]).din.length) ∧
    565 < 566 ∧ 4294967297 < 4294967298 := ⟨⟨at2_boundary _ _, by decide⟩, by decide⟩

theorem witness_FoldAllClosedForm : (3 : Nat) ≤ 3 ∧ (0 : Nat) ≤ 7 := by decide

/-- A word that has to wait at one pace and enters at the next. -/
theorem witness_PipelineDrainsToFoldAll : freshStage.settled = true ∧
    (feedStages [(Pace.full, some 1#32), ({ Pace.full with addB := false }, some 2#32), (Pace.full, some 2#32)]
      freshStage).2 = [1#32, 2#32] := by decide

theorem witness_AssemblerMakesConsecutiveWords : (at2 [] []).Inv ∧ (at2 [] []).hid.phase = .idle ∧
    4 * 1 + 3 < [1#8, 2#8, 3#8, 4#8, 5#8, 6#8, 7#8, 8#8].length ∧
    [1#8, 2#8, 3#8, 4#8].length % 4 = 0 := ⟨at2_inv _ _, by decide⟩

theorem witness_DigestIsLittleEndianAndThirtyTwoBytes : (at2 [] []).AtBoundary ∧ (at2 [] []).rspReady = true ∧
    (at2 [] []).doutReady = true := ⟨at2_boundary _ _, rfl, rfl⟩

theorem witness_DecodeAndEncodeAreInverse : 268435455 ≤ 268435455 ∧ (Instr.write 268435455).WellFormed ∧
    Instr.blksz.WellFormed ∧ decode 0x2FFFFFFF#32 = .ok (.write 268435455) := by decide

theorem witness_StepRunsDecodedCommand : ((at2 [0x20000008#32] []).AtBoundary ∧
    (at2 [0x20000008#32] []).cmd = 0x20000008#32 :: [] ∧ decode 0x20000008#32 = .ok (.write 8) ∧
    Pace.full.accept = true) ∧
    ((midDecode 0x10000000#32 []).rst = false ∧ (midDecode 0x10000000#32 []).fault = false ∧
      (midDecode 0x10000000#32 []).hid.phase = .decode ∧
      (midDecode 0x10000000#32 []).hid.cmdWord = some 0x10000000#32 ∧ decode 0x10000000#32 = .ok .reset) :=
  ⟨⟨at2_boundary _ _, by decide⟩, by decide⟩

theorem witness_ReservedOpcodeRaisesIllegalCommand :
    ((at2 [0x0FFFFFFF#32] []).AtBoundary ∧ (at2 [0x0FFFFFFF#32] []).cmd = 0x0FFFFFFF#32 :: [] ∧
      opField 0x0FFFFFFF#32 = 0x0#4) ∧
    ((at2 [0x70000000#32] []).AtBoundary ∧ (at2 [0x70000000#32] []).cmd = 0x70000000#32 :: [] ∧
      0x7#4 ≤ opField 0x70000000#32) := ⟨⟨at2_boundary _ _, by decide⟩, at2_boundary _ _, by decide⟩

theorem witness_ReservedLengthRaisesIllegalCommand :
    ((at2 [0x10000001#32] []).AtBoundary ∧ (at2 [0x10000001#32] []).cmd = 0x10000001#32 :: [] ∧
      opField 0x10000001#32 = 0x1#4 ∧ lenField 0x10000001#32 ≠ 0) ∧
    ((at2 [0x6FFFFFFF#32] []).AtBoundary ∧ (at2 [0x6FFFFFFF#32] []).cmd = 0x6FFFFFFF#32 :: [] ∧
      opField 0x6FFFFFFF#32 = 0x6#4 ∧ lenField 0x6FFFFFFF#32 ≠ 0) :=
  ⟨⟨at2_boundary _ _, by decide⟩, at2_boundary _ _, by decide⟩

theorem witness_CommandIndexCountsAcceptedWords :
    ((at2 [0xFFFFFFFF#32] []).AtBoundary ∧ (at2 [0xFFFFFFFF#32] []).cmd = 0xFFFFFFFF#32 :: []) ∧
    (∃ t, step (midSumw true) = .next t ∧ (midSumw true).rst = false ∧ (midSumw true).cmd = t.cmd) ∧
    (∃ t, step { halted [] with rst := true } = .next t ∧ ({ halted [] with rst := true } : State).rst = true) ∧
    (at2 [0xFFFFFFFF#32] []).rst = false ∧ (∃ t, hostMove (.presentCmd 0#32) (at2 [] []) = some t) :=
  ⟨⟨at2_boundary _ _, rfl⟩, ⟨_, rfl, rfl, rfl⟩, ⟨_, rfl, rfl⟩, rfl, _, rfl⟩

theorem witness_EveryStepHasNextState : decode 0x2FFFFFFF#32 = .ok (.write 268435455) ∧ 268435455 < 268435456 := by decide

theorem witness_ResetZeroesAccumulators :
    (opField 0x10000004#32 = 0x1#4 ∧ lenField 0x10000004#32 ≠ 0) ∧
    ((at2 [] []).AtBoundary ∧ ∃ t, exec .reset (at2 [] []) = .next t) ∧
    ((halted [0x10000000#32]).rst = false ∧ (halted [0x10000000#32]).fault = true ∧
      (halted [0x10000000#32]).cmd = 0x10000000#32 :: []) ∧
    ((at2 [0x10000000#32, 0x40000000#32] []).AtBoundary ∧ (at2 [0x10000000#32, 0x40000000#32] []).rspReady = true ∧
      (at2 [0x10000000#32, 0x40000000#32] []).acc =
        { a := 0x0c0a0806#64, b := 0x100d0a07#64, c := 0x14100c08#64, d := 0x18130e09#64 } ∧
      (at2 [0x10000000#32, 0x40000000#32] []).cmd = 0x10000000#32 :: 0x40000000#32 :: []) :=
  ⟨by decide, ⟨at2_boundary _ _, _, rfl⟩, by decide, at2_boundary _ _, by decide⟩

theorem witness_ResetCommandMatchesHardwareReset : (at2 [] []).Inv ∧ (at2 [] []).AtBoundary :=
  ⟨at2_inv _ _, at2_boundary _ _⟩

theorem witness_WordsFoldInStreamOrder :
    (at2 [] [1#8, 0#8, 0#8, 0#8]).AtBoundary ∧ (at2 [] [1#8, 0#8, 0#8, 0#8]).rspReady = true ∧ 0 % 4 = 0 ∧ 4 % 4 = 0 ∧
    0 ≤ 268435455 ∧ 4 ≤ 268435455 ∧ 0 + 4 ≤ (at2 [] [1#8, 0#8, 0#8, 0#8]).din.length := ⟨at2_boundary _ _, by decide⟩

theorem witness_ZeroLengthWriteAnswersZero : (at2 [0x20000000#32] []).AtBoundary ∧
    (at2 [0x20000000#32] []).rspReady = true ∧ (at2 [0x20000000#32] []).cmd = 0x20000000#32 :: [] :=
  ⟨at2_boundary _ _, by decide⟩

/-- A length at each end of its range; a word that faults two edges after it is accepted. -/
theorem witness_MisalignedWriteChangesNothingElse :
    ((at2 [] []).AtBoundary ∧ 1 ≤ 268435455 ∧ 1 % 4 ≠ 0) ∧ (268435455 ≤ 268435455 ∧ 268435455 % 4 ≠ 0) ∧
    ((at2 [0x20000007#32] []).AtBoundary ∧ (at2 [0x20000007#32] []).cmd = 0x20000007#32 :: [] ∧
      opField 0x20000007#32 = 0x2#4 ∧ (0x20000007#32).extractLsb' 0 2 ≠ 0b00#2 ∧
      (edges true [{ Pace.full with decode := false }, { Pace.full with decode := false }]
        (at2 [0x20000007#32] [])).fault = false ∧
      (edges true [{ Pace.full with decode := false }, { Pace.full with decode := false }, Pace.full]
        (at2 [0x20000007#32] [])).fault = true) :=
  ⟨⟨at2_boundary _ _, by decide⟩, by decide, at2_boundary _ _, by decide⟩

theorem witness_SplitWritesAreEquivalent :
    ((at2 [] [1#8, 2#8, 3#8, 4#8, 5#8]).AtBoundary ∧ (at2 [] [1#8, 2#8, 3#8, 4#8, 5#8]).rspReady = true ∧
      (∀ p ∈ [[], [1#8, 2#8, 3#8, 4#8]], p.length % 4 = 0) ∧ [[], [1#8, 2#8, 3#8, 4#8]].flatten.length ≤ 268435452 ∧
      (at2 [] [1#8, 2#8, 3#8, 4#8, 5#8]).din = [[], [1#8, 2#8, 3#8, 4#8]].flatten ++ [5#8]) :=
  ⟨at2_boundary _ _, by decide⟩

theorem witness_ShortPayloadWaits : (at2 [] [1#8, 2#8, 3#8]).AtBoundary ∧ 4 % 4 = 0 ∧ 4 ≤ 268435455 ∧
    (at2 [] [1#8, 2#8, 3#8]).din.length < 4 := ⟨at2_boundary _ _, by decide⟩

theorem witness_LatePayloadCompletesTheWrite : (at2 [] [1#8, 2#8, 3#8]).AtBoundary ∧
    (at2 [] [1#8, 2#8, 3#8]).rspReady = true ∧ 4 % 4 = 0 ∧ 4 ≤ 268435455 ∧ (at2 [] [1#8, 2#8, 3#8]).din.length < 4 ∧
    4 ≤ (at2 [] [1#8, 2#8, 3#8]).din.length + [4#8].length := ⟨at2_boundary _ _, by decide⟩

theorem witness_WriteResponseWaitsForSink :
    State.AtBoundary { at2 [] [1#8, 2#8, 3#8, 4#8] with rspReady := false } ∧
    ({ at2 [] [1#8, 2#8, 3#8, 4#8] with rspReady := false } : State).rspReady = false ∧ 4 % 4 = 0 ∧ 4 ≤ 268435455 ∧
    4 ≤ ({ at2 [] [1#8, 2#8, 3#8, 4#8] with rspReady := false } : State).din.length := ⟨⟨rfl, rfl, rfl⟩, by decide⟩

theorem witness_SumwAnswersFourWords : (opField 0x40000004#32 = 0x4#4 ∧ lenField 0x40000004#32 ≠ 0) ∧
    (at2 [] []).AtBoundary ∧ (at2 [] []).rspReady = true ∧
    (at2 [] []).acc = { a := 0x0c0a0806#64, b := 0x100d0a07#64, c := 0x14100c08#64, d := 0x18130e09#64 } :=
  ⟨by decide, at2_boundary _ _, by decide⟩

theorem witness_SumEmitsDigest : (opField 0x30000020#32 = 0x3#4 ∧ lenField 0x30000020#32 ≠ 0) ∧
    (at2 [] []).AtBoundary ∧ (at2 [] []).doutReady = true ∧
    (at2 [] []).acc = { a := 0x0c0a0806#64, b := 0x100d0a07#64, c := 0x14100c08#64, d := 0x18130e09#64 } :=
  ⟨by decide, at2_boundary _ _, by decide⟩

theorem witness_SizeAnswersThirtyTwo : (opField 0x58000000#32 = 0x5#4 ∧ lenField 0x58000000#32 ≠ 0) ∧
    (at2 [] []).AtBoundary ∧ (at2 [] []).rspReady = true := ⟨by decide, at2_boundary _ _, rfl⟩

theorem witness_BlkszAnswersFour : (opField 0x60000004#32 = 0x6#4 ∧ lenField 0x60000004#32 ≠ 0) ∧
    (at2 [] []).AtBoundary ∧ (at2 [] []).rspReady = true := ⟨by decide, at2_boundary _ _, rfl⟩

theorem witness_SumAndSumwAgree : (at2 [] []).AtBoundary ∧ (at2 [] []).rspReady = true ∧ (at2 [] []).doutReady = true :=
  ⟨at2_boundary _ _, rfl, rfl⟩

theorem witness_RepeatedSumAppends : (at2 [] [1#8, 2#8, 3#8, 4#8]).AtBoundary ∧
    (at2 [] [1#8, 2#8, 3#8, 4#8]).rspReady = true ∧ (at2 [] [1#8, 2#8, 3#8, 4#8]).doutReady = true ∧ 4 % 4 = 0 ∧
    4 ≤ 268435455 ∧ 4 ≤ (at2 [] [1#8, 2#8, 3#8, 4#8]).din.length := ⟨at2_boundary _ _, by decide⟩

theorem witness_AnswersWaitForTheirSink :
    (State.AtBoundary { at2 [] [] with rspReady := false } ∧ ({ at2 [] [] with rspReady := false } : State).rspReady = false) ∧
    (State.AtBoundary { at2 [] [] with doutReady := false } ∧
      ({ at2 [] [] with doutReady := false } : State).doutReady = false) := ⟨⟨⟨rfl, rfl, rfl⟩, rfl⟩, ⟨rfl, rfl, rfl⟩, rfl⟩

/-- A list with a reset, a write and a faulting write, over a block whose accumulators are those of two words. -/
theorem witness_AccumulatorsFoldWordsSinceReset :
    let cs : List Instr := [.sum, .write 4, .reset, .write 4, .write 5, .size]
    let s := at2 (cs.map encode) [1#8, 2#8, 3#8, 4#8, 5#8, 6#8, 7#8, 8#8]
    s.AtBoundary ∧ s.rspReady = true ∧ s.doutReady = true ∧ (∀ i ∈ cs, i.WellFormed) ∧ payloadOf cs ≤ s.din.length ∧
      s.acc = foldAll Acc.zero [0x04030201#32, 0x08070605#32] ∧ s.cmd = cs.map encode :=
  ⟨at2_boundary _ _, by decide⟩

theorem witness_DeletingResponsesChangesOnlyBeats :
    let cs : List Instr := [.sumw, .write 4, .size, .sumw]
    let s := at2 [] [1#8, 2#8, 3#8, 4#8]
    s.AtBoundary ∧ s.rspReady = true ∧ s.doutReady = true ∧ (∀ i ∈ cs, i.WellFormed) ∧ payloadOf cs ≤ s.din.length ∧
      .sumw ∈ cs := ⟨at2_boundary _ _, by decide⟩

theorem witness_DeletingSumsChangesOnlyDigests :
    let cs : List Instr := [.sum, .write 4, .blksz, .sum]
    let s := at2 [] [1#8, 2#8, 3#8, 4#8]
    s.AtBoundary ∧ s.rspReady = true ∧ s.doutReady = true ∧ (∀ i ∈ cs, i.WellFormed) ∧ payloadOf cs ≤ s.din.length ∧
      .sum ∈ cs := ⟨at2_boundary _ _, by decide⟩

/-- Two blocks that differ in their history and in what is on DIN after the payload; a command that faults. -/
theorem witness_CommandsIgnoreHistory :
    let s := at2 [] [1#8, 2#8, 3#8, 4#8]
    let r : State := { s with ci := 9, dout := [7#8], rsp := [3#64], cmd := [0#32], din := [1#8, 2#8, 3#8, 4#8, 9#8] }
    ((Instr.write 4).WellFormed ∧ s.AtBoundary ∧ r.AtBoundary ∧ r.acc = s.acc ∧
      r.din.take (payloadOf [.write 4]) = s.din.take (payloadOf [.write 4]) ∧ r.rspReady = s.rspReady ∧
      r.doutReady = s.doutReady) ∧
    (r.din.take (payloadOf [.write 5]) = s.din.take (payloadOf [.write 5]) ∧
      ∃ t, exec (.write 5) s = .next t ∧ t.fault = true) :=
  ⟨⟨by decide, at2_boundary _ _, ⟨rfl, rfl, rfl⟩, by decide⟩, by decide, _, rfl, rfl⟩

theorem witness_FaultsAreExclusive : ((halted []).rst = false ∧ (halted []).fault = true) ∧
    ({ midWrite [] with rst := true } : State).rst = true := by decide

theorem witness_HaltedBlockDoesNothing : ((halted [0x40000000#32]).Halted ∧ (halted [0x40000000#32]).rst = false) ∧
    (∃ t, hostMove (.presentCmd 0x10000000#32) (halted []) = some t) ∧
    State.Halted { halted [] with rst := true } := ⟨by decide, ⟨_, rfl⟩, by decide⟩

/-- Waiting for payload, for the RSP sink and for the DOUT sink. -/
theorem witness_StuckBlockKeepsItsProgress :
    (midWrite []).Stuck ∧ (midSumw false).Stuck ∧ (midSum false).Stuck := by decide

theorem witness_HardwareResetTakesTheResetState : ({ midWrite [] with rst := true } : State).rst = true := by decide

theorem witness_OutputsAreZeroInReset : ({ halted [] with rst := true } : State).rst = true := by decide

theorem witness_ResetValues : ({ halted [] with rst := true } : State).rst = true ∧ (at2 [0x10000000#32] []).AtBoundary ∧
    (at2 [0x10000000#32] []).cmd = 0x10000000#32 :: [] := ⟨by decide, at2_boundary _ _, rfl⟩

theorem witness_FreshBlockReadsZero : State.reset.AtBoundary ∧ State.reset.rspReady = true ∧
    State.reset.doutReady = true ∧ State.reset.acc = State.reset.acc := ⟨⟨rfl, rfl, rfl⟩, by decide⟩

theorem witness_StepKeepsInvariant : (midWrite [6#8, 7#8]).Inv ∧ ∃ t, step (midWrite [6#8, 7#8]) = .next t :=
  ⟨midWrite_inv _, _, rfl⟩

theorem witness_EdgeKeepsInvariant : (midWrite [6#8, 7#8, 8#8]).Inv ∧ State.Fits false (midWrite [6#8, 7#8, 8#8]) ∧
    (midSumw true).Inv ∧ (midSum true).Inv :=
  ⟨midWrite_inv _, by decide, midSumw_inv _, midSum_inv _⟩

theorem witness_EventsKeepInvariant : (midWrite []).Inv ∧
    State.Fits false (midWrite []) ∧
    ∃ t, events false [.host (.presentDin 6#8), .clock Pace.full, .block, .host (.setRst true), .clock Pace.full,
      .host .withdrawDin] (midWrite []) = some t :=
  ⟨midWrite_inv _, by decide, _, rfl⟩

/-- A fault, a hardware reset, and a command after it. -/
theorem witness_FaultStaysOnRecord : (halted []).Inv ∧ (halted []).fault = true ∧
    ∃ t, events true [.host (.setRst true), .block, .host (.setRst false), .host (.presentCmd 0x40000000#32), .block]
      (halted []) = some t ∧ t.fault = false ∧ t.cmd = [] := ⟨halted_inv _, rfl, _, rfl, rfl, rfl⟩

/-- Runs from reset that latch each cause. -/
theorem witness_LatchedWordExplainsCause : (halted []).Inv ∧ ((at2 [] []).Inv ∧ (at2 [] []).fault = false) ∧
    (∃ t, events true [.host (.presentCmd 0x20000005#32), .block] State.reset = some t ∧ t.cause = 1#2 ∧ t.fault = true) ∧
    (∃ t, events true [.host (.presentCmd 0x00000000#32), .clock Pace.full] State.reset = some t ∧ t.cause = 2#2 ∧
      encode (.write 3758096384) = t.finfo) :=
  ⟨halted_inv _, ⟨at2_inv _ _, rfl⟩, ⟨_, rfl, rfl, rfl⟩, _, rfl, rfl, rfl⟩

/-- A byte offered, not transferred, and still on the pin at the next edge; likewise a response beat. -/
theorem witness_EdgeMovesTransferredBeats :
    ((midSum false).rst = false ∧ doutPin Pace.full (midSum false) = some 0x00#8 ∧
      (transfers Pace.full (midSum false)).dout = none) ∧
    ((midSumw false).rst = false ∧ rspPin Pace.full (midSumw false) = some 0x100d0a07#64 ∧
      (transfers Pace.full (midSumw false)).rsp = none) ∧
    ((midWrite [6#8]).Inv ∧ (midWrite [6#8]).rst = false ∧
      ∃ t, hostMove (.presentDin 7#8) (midWrite [6#8]) = some t) :=
  ⟨by decide, by decide, midWrite_inv _, rfl, _, rfl⟩

theorem witness_ReadyAndValidFollowThePhase : (at2 [] []).Inv ∧ (midWrite []).Inv ∧ (midSumw false).Inv ∧
    (midSum false).Inv ∧ (halted []).Inv ∧ (halted []).fault = true ∧ dinReady Pace.full (at2 [] [1#8]) = false ∧
    (midDecode 0x20000004#32 [1#8]).Inv ∧ (midDecode 0x20000004#32 [1#8]).hid.phase = .decode :=
  ⟨at2_inv _ _, midWrite_inv _, midSumw_inv _, midSum_inv _, halted_inv _, by decide, by decide, midDecode_inv _ _, rfl⟩

/-- A `WRITE` presented while a `SUMW` waits for its sink, its first byte early, the block holding back at one edge. -/
def lateRun : List Event :=
  [.host (.presentDin 7#8), .clock Pace.full, .host (.presentCmd 0x20000004#32), .host (.setRspReady true),
   .clock Pace.full, .clock { Pace.full with offer := false }, .clock Pace.full, .clock Pace.full, .clock Pace.full,
   .host (.setDoutReady false), .clock Pace.full]

/-- Each phase; and port events that start and end inside a command, with a sink not ready and a block that holds back. -/
theorem witness_EdgeKeepsTheOutcome :
    ((midWrite [6#8]).Inv ∧ State.Fits false (midWrite [6#8]) ∧ (midWrite [6#8]).rst = false ∧
      (midWrite [6#8]).fault = false ∧ (midWrite [6#8]).hid.phase ≠ .idle) ∧
    ((midSumw true).Inv ∧ State.Fits true (midSumw true) ∧ (midSumw true).hid.phase ≠ .idle) ∧
    ((midSum true).Inv ∧ State.Fits true (midSum true) ∧ (midSum true).hid.phase ≠ .idle) ∧
    ((midDecode 0x20000007#32 []).Inv ∧ State.Fits true (midDecode 0x20000007#32 []) ∧
      (midDecode 0x20000007#32 []).hid.phase ≠ .idle) ∧
    ((midSumw false).Inv ∧ State.Fits true (midSumw false) ∧ (midSumw false).rst = false) ∧
    (∃ t, (∀ e ∈ lateRun, e.atPorts = true) ∧ events true lateRun (midSumw false) = some t ∧ t.ci = 2 ∧
      t.hid.phase = .payload ∧ t.hid.held = [7#8]) :=
  ⟨⟨midWrite_inv _, by decide⟩, ⟨midSumw_inv _, by decide⟩, ⟨midSum_inv _, by decide⟩, ⟨midDecode_inv _ _, by decide⟩,
    ⟨midSumw_inv _, by decide⟩, _, by decide, rfl, by decide⟩

theorem witness_EdgesReachTheStep : (at2 [0x30000000#32] []).Inv ∧ State.Fits false (at2 [0x30000000#32] []) ∧
    State.Fits true (at2 [0x30000000#32] []) := ⟨at2_inv _ _, by decide⟩

/-- A run without end: the last byte of a `WRITE` comes late, and then the clock goes on for ever. -/
def lateEvents (n : Nat) : Event := if n = 1 then .host (.presentDin 8#8) else .clock Pace.full

/-- The states of that run. -/
def lateStates : Nat → State
  | 0 => midWrite [6#8, 7#8]
  | n + 1 => (event true (lateEvents n) (lateStates n)).getD (lateStates n)

theorem lateStates_rest (n : Nat) : lateStates (n + 10) = lateStates 10 := by
  induction n with
  | zero => rfl
  | succ n ih =>
    have e : lateEvents (n + 10) = .clock Pace.full := if_neg (by omega)
    rw [show n + 1 + 10 = (n + 10) + 1 by omega, lateStates, ih, e]
    decide

theorem lateStates_next (n : Nat) : event true (lateEvents n) (lateStates n) = some (lateStates (n + 1)) := by
  have h : ∃ t, event true (lateEvents n) (lateStates n) = some t := by
    unfold lateEvents
    split <;> exact ⟨_, rfl⟩
  obtain ⟨t, h⟩ := h
  simp [lateStates, h]

theorem witness_DutifulHostCompletesCommands :
    (let s := midWrite [6#8, 7#8, 8#8]
    s.Inv ∧ State.Fits false s ∧ s.rst = false ∧ s.fault = false ∧ s.rspReady = true ∧ s.doutReady = true ∧
      (decodeHeld s).hid.remaining.toNat ≤ s.din.length ∧ s.hid.phase ≠ .idle ∧ (decodeHeld s).fault = false) ∧
    (let s := midDecode 0x20000005#32 []
    s.Inv ∧ State.Fits true s ∧ s.rst = false ∧ s.fault = false ∧ s.rspReady = true ∧ s.doutReady = true ∧
      (decodeHeld s).hid.remaining.toNat ≤ s.din.length ∧ s.hid.phase ≠ .idle ∧ (decodeHeld s).fault = true) ∧
    ((lateStates 0).Inv ∧ State.Fits true (lateStates 0) ∧ PortRun true lateEvents lateStates ∧
      WeaklyFair lateEvents lateStates ∧ SuppliesPayload lateStates ∧ AcceptsBeats lateEvents lateStates ∧
      ∀ n, (lateStates n).rst = false) ∧
    ((lateStates 10).AtBoundary ∧ (lateStates 10).rsp = [8#64]) := by
  have hs : ∀ n, lateStates (n + 10) = lateStates 10 := lateStates_rest
  have he : ∀ n, lateEvents (n + 10) = .clock Pace.full := fun n => if_neg (by omega)
  have hr : ∀ n, (lateStates n).rst = false := fun n =>
    if h : n < 10 then (show ∀ i : Fin 10, (lateStates i.val).rst = false by decide) ⟨n, h⟩
    else by
      obtain ⟨k, rfl⟩ := Nat.exists_eq_add_of_le' (Nat.not_lt.mp h)
      rw [hs]
      decide
  refine ⟨⟨midWrite_inv _, by decide⟩, ⟨midDecode_inv _ _, by decide⟩,
    ⟨midWrite_inv _, by decide, ⟨lateStates_next, ?_, ?_⟩, ?_, ?_, ?_, hr⟩, ⟨by decide, by decide, by decide⟩, by decide⟩
  · intro n
    unfold lateEvents
    split <;> simp
  · exact fun n => ⟨n + 10, by omega, by rw [he]; rfl⟩
  · exact fun a n => ⟨n + 10, by omega, .inr ⟨Pace.full, he n, by cases a <;> rfl⟩⟩
  · exact fun n => ⟨n + 10, by omega, .inr (.inl (by rw [hs]; decide))⟩
  · exact fun n => ⟨n + 10, by omega, .inl (by rw [hs]; decide)⟩

theorem witness_WritewPresentsItsWords : 4 * [1#32, 2#32].length ≤ 268435452 := by decide

/-- One byte list below the largest legal length and one above it. -/
theorem witness_WritelSplitsIntoLegalWrites : [1#8, 2#8, 3#8, 4#8].length % 4 = 0 ∧
    ∃ bytes : List Byte, bytes.length % 4 = 0 ∧ 268435452 < bytes.length :=
  ⟨rfl, List.replicate 268435456 0#8, by rw [List.length_replicate], by rw [List.length_replicate]; decide⟩

/-- A line with a legal word and a line with an illegal one. -/
theorem witness_AssemblerLinesRunTheirCommands :
    ((AsmLine.writew [1#32]).oneCommand = some (0x20000004#32, [1#8, 0#8, 0#8, 0#8]) ∧
      decode 0x20000004#32 = .ok (.write 4)) ∧
    ((AsmLine.word 0#32).oneCommand = some (0#32, []) ∧ illegalWord 0#32 = true) ∧
    (at2 [] []).AtBoundary ∧ (at2 [] []).cmd = [] := ⟨by decide, by decide, at2_boundary _ _, rfl⟩

end Sys2Proof.Tests
end

/-! PROOF. Reset values and what a block reads as right after reset (spec/10_state.md R40, R41). -/

namespace Sys2Proof.Machine

/-- At a command boundary the hidden state is idle already, so writing it idle changes nothing (R39). -/
theorem finishCommand_of_boundary (s : State) (h : s.AtBoundary) : finishCommand s = s := by
  rw [finishCommand, ← h.hid]

/-- Hardware reset has priority over everything else at a step (R184, R210). -/
theorem step_of_rst (s : State) (h : s.rst = true) : step s = .next (hwReset s) := by
  simp [step, sequencerStep, h]

/-- A `RESET` at a command boundary changes the accumulators only (R111). -/
theorem exec_reset_of_boundary (s : State) (h : s.AtBoundary) : exec .reset s = .next { s with acc := Acc.zero } :=
  congrArg Host.Outcome.next (finishCommand_of_boundary { s with acc := Acc.zero } ⟨h.rst, h.fault, h.hid⟩)

/-- A command that answers on RSP, begun at a command boundary with a ready sink: all its beats are appended, and nothing
else changes (R62, R65). -/
theorem advance_startCommand_response (c : Word32) (s : State) (h : s.AtBoundary) (hr : s.rspReady = true) :
    advance (startCommand .response c s) = { s with rsp := s.rsp ++ responseBeats s.acc c } := by
  rw [advance_of_response _ rfl, advanceResponse_of_ready (startCommand .response c s) hr]
  exact finishCommand_of_boundary { s with rsp := s.rsp ++ responseBeats s.acc c } ⟨h.rst, h.fault, h.hid⟩

/-- A command that answers on DOUT, likewise: the whole digest is appended (R71, R155). -/
theorem advance_startCommand_digest (c : Word32) (s : State) (h : s.AtBoundary) (hd : s.doutReady = true) :
    advance (startCommand .digest c s) = { s with dout := s.dout ++ digest s.acc } := by
  rw [advance_of_digest _ rfl, advanceDigest_of_ready (startCommand .digest c s) hd]
  exact finishCommand_of_boundary { s with dout := s.dout ++ digest s.acc } ⟨h.rst, h.fault, h.hid⟩

/-- `SUMW` answers the four accumulators, `a` first (R151). -/
theorem exec_sumw_of_boundary (s : State) (h : s.AtBoundary) (hr : s.rspReady = true) :
    exec .sumw s = .next { s with rsp := s.rsp ++ [s.acc.a, s.acc.b, s.acc.c, s.acc.d] } := by
  rw [exec_eq .sumw s rfl, ← responseBeats_sumw]
  exact congrArg Host.Outcome.next (advance_startCommand_response _ s h hr)

/-- `SUM` sends the digest (R155). -/
theorem exec_sum_of_boundary (s : State) (h : s.AtBoundary) (hd : s.doutReady = true) :
    exec .sum s = .next { s with dout := s.dout ++ digest s.acc } := by
  rw [exec_eq .sum s rfl]
  exact congrArg Host.Outcome.next (advance_startCommand_digest _ s h hd)

/-- The digest of zero accumulators is 32 zero bytes (R41). -/
theorem digest_zero : digest Acc.zero = List.replicate 32 0x00#8 := by decide

theorem executeWord_of_decode (c : Word32) (i : Instr) (s : State) (h : decode c = .ok i) :
    executeWord c s = exec i s := by
  simp [executeWord, h]

/-- Accepting a word touches neither `rst` nor the fault latch nor the hidden state. -/
theorem acceptCommand_boundary (rest : List Word32) (s : State) (h : s.AtBoundary) :
    (acceptCommand rest s).AtBoundary := ⟨h.rst, h.fault, h.hid⟩

/-- The word of `RESET` at a command boundary is accepted, and the accumulators become 0 (R86, R111). -/
theorem step_of_reset_word (s : State) (rest : List Word32) (h : s.AtBoundary) (hc : s.cmd = 0x10000000#32 :: rest) :
    step s = .next { s with acc := Acc.zero, cmd := rest, ci := s.ci + 1 } := by
  rw [step_of_boundary s _ rest h hc, executeWord_of_decode _ .reset _ (by decide)]
  exact exec_reset_of_boundary (acceptCommand rest s) (acceptCommand_boundary rest s h)

/-- Settles O44: the table of R40 is the model's reset state, hardware reset writes it from any state, and `RESET` writes
the accumulators of it. -/
theorem resetValues : Obligations.ResetValues := by
  refine ⟨by decide, fun s h => ?_, step_of_reset_word, rfl, rfl⟩
  exact ⟨hwReset s, step_of_rst s h, rfl, rfl, rfl, rfl, rfl, rfl⟩

/-- Zero accumulators read as zeros, on RSP and on DOUT, and are kept (R41). -/
theorem exec_sumw_sum_of_acc_zero (s : State) (h : s.AtBoundary) (hr : s.rspReady = true) (hd : s.doutReady = true)
    (hz : s.acc = Acc.zero) :
    exec .sumw s = .next { s with rsp := s.rsp ++ [0#64, 0#64, 0#64, 0#64] } ∧
    exec .sum s = .next { s with dout := s.dout ++ List.replicate 32 0x00#8 } := by
  rw [exec_sumw_of_boundary s h hr, exec_sum_of_boundary s h hd, hz, digest_zero]
  exact ⟨rfl, rfl⟩

/-- Settles O45: a fresh block has zero accumulators, and so has any block after `RESET`. -/
theorem freshBlockReadsZero : Obligations.FreshBlockReadsZero := by
  refine ⟨exec_sumw_sum_of_acc_zero, fun s h hr hd => ?_⟩
  obtain ⟨hsumw, hsum⟩ :=
    exec_sumw_sum_of_acc_zero { s with acc := Acc.zero } ⟨h.rst, h.fault, h.hid⟩ hr hd rfl
  exact ⟨_, _, _, exec_reset_of_boundary s h, hsumw, hsum, rfl, rfl⟩

end Sys2Proof.Machine

/-! PROOF. The byte order of input words and of the digest (spec/20_memory.md R56, R57; spec/42_readout.md R161). -/

namespace Sys2Proof.Machine

/-- Each byte of a word is found where R56 puts it: a byte appended below is the lowest, and moves those above it up by
8 bits. -/
theorem le32_extractLsb' (b0 b1 b2 b3 : Byte) :
    (le32 b0 b1 b2 b3).extractLsb' 0 8 = b0 ∧ (le32 b0 b1 b2 b3).extractLsb' 8 8 = b1 ∧
    (le32 b0 b1 b2 b3).extractLsb' 16 8 = b2 ∧ (le32 b0 b1 b2 b3).extractLsb' 24 8 = b3 := by
  have above {w : Nat} (x : BitVec w) (b : Byte) (i : Nat) :
      (x ++ b).extractLsb' (i + 8) 8 = x.extractLsb' i 8 :=
    BitVec.extractLsb'_append_eq_of_le (Nat.le_add_left 8 i)
  refine ⟨BitVec.extractLsb'_append_eq_right, ?_, ?_, ?_⟩
  · exact (above _ b0 0).trans BitVec.extractLsb'_append_eq_right
  · exact (above _ b0 8).trans ((above _ b1 0).trans BitVec.extractLsb'_append_eq_right)
  · exact (above _ b0 16).trans ((above _ b1 8).trans BitVec.extractLsb'_append_eq_left)

/-- A byte appended below a word of any width multiplies the word's number by `2 ^ 8` and adds its own. -/
theorem toNat_append_byte {w : Nat} (x : BitVec w) (b : Byte) : (x ++ b).toNat = 2 ^ 8 * x.toNat + b.toNat := by
  rw [BitVec.toNat_append, ← Nat.shiftLeft_add_eq_or_of_lt b.isLt, Nat.shiftLeft_eq, Nat.mul_comm]

theorem le32_toNat (b0 b1 b2 b3 : Byte) :
    (le32 b0 b1 b2 b3).toNat = b0.toNat + 2 ^ 8 * b1.toNat + 2 ^ 16 * b2.toNat + 2 ^ 24 * b3.toNat := by
  simp only [le32, toNat_append_byte]
  omega

/-- Settles O7: the first word of a payload is `LE32` of its first four bytes, with its bytes and its number as in R56. -/
theorem inputWordsAreLittleEndian : Obligations.InputWordsAreLittleEndian := by
  refine ⟨fun b0 b1 b2 b3 rest => ⟨rfl, ?_⟩, by decide⟩
  obtain ⟨h0, h1, h2, h3⟩ := le32_extractLsb' b0 b1 b2 b3
  exact ⟨h0, h1, h2, h3, le32_toNat b0 b1 b2 b3⟩

@[simp] theorem digest_length (x : Acc) : (digest x).length = 32 := by simp [digest, Config.digestBytes]

theorem digest_getElem? (x : Acc) (k : Nat) (h : k < 32) : (digest x)[k]? = some (digestByte x k) := by
  simp [digest, Config.digestBytes, h]

/-- Byte `k` of accumulator `i` is number `8 * i + k` of the digest (R155). -/
theorem digest_getElem?_of_acc (x : Acc) (i : Fin 4) (k : Fin 8) :
    (digest x)[8 * i.val + k.val]? = some ((x.get i).extractLsb' (8 * k.val) 8) := by
  have hdiv : (8 * i.val + k.val) / 8 = i.val := by omega
  have hmod : (8 * i.val + k.val) % 8 = k.val := by omega
  rw [digest_getElem? x _ (by omega), digestByte, hdiv, hmod, Fin.ofNat_val_eq_self]

/-- The digest is `LE64` of the four accumulators, `a` first (R57): both write out the same 32 bytes. -/
theorem digest_eq_le64 (x : Acc) : digest x = le64 x.a ++ le64 x.b ++ le64 x.c ++ le64 x.d := rfl

/-- `SIZE` answers the digest's length (R170). -/
theorem exec_size_of_boundary (s : State) (h : s.AtBoundary) (hr : s.rspReady = true) :
    exec .size s = .next { s with rsp := s.rsp ++ [32#64] } := by
  rw [exec_eq .size s rfl, ← responseBeats_size s.acc]
  exact congrArg Host.Outcome.next (advance_startCommand_response _ s h hr)

/-- Settles O9: the digest's layout as `LE64` and byte by byte, its length, and the answers of `SIZE` and `SUM`. -/
theorem digestIsLittleEndianAndThirtyTwoBytes : Obligations.DigestIsLittleEndianAndThirtyTwoBytes := by
  refine ⟨fun x => ⟨digest_eq_le64 x, fun k => ⟨?_, ?_, ?_, ?_⟩, digest_length x⟩,
    fun s h hr hd => ⟨exec_size_of_boundary s h hr, exec_sum_of_boundary s h hd⟩⟩
  · simpa [Acc.get] using digest_getElem?_of_acc x 0 k
  · exact digest_getElem?_of_acc x 1 k
  · exact digest_getElem?_of_acc x 2 k
  · exact digest_getElem?_of_acc x 3 k

end Sys2Proof.Machine

/-! PROOF. Decoder, encoder and opcode map (spec/30_encoding.md R80 to R87). -/

namespace Sys2Proof

/-- The two fields are all of a command word (R80). -/
theorem opField_append_len (c : Word32) : opField c ++ c.extractLsb' 0 28 = c :=
  BitVec.extractLsb'_append_extractLsb' (w := 4) (len := 28)

/-- A command word is determined by its opcode and its length. -/
theorem eq_of_fields_eq (c d : Word32) (hop : opField c = opField d) (hlen : lenField c = lenField d) : c = d := by
  rw [← opField_append_len c, ← opField_append_len d, hop, BitVec.eq_of_toNat_eq hlen]

theorem decodePlain_eq_ok_iff (i j : Instr) (op : BitVec 4) (len : Nat) :
    decodePlain i op len = .ok j ↔ i = j ∧ len = 0 := by
  unfold decodePlain
  split <;> simp_all

/-- The decoder answers a command exactly on the words that hold its opcode and its length (R82, R86). -/
theorem decode_eq_ok_iff (c : Word32) (i : Instr) :
    decode c = .ok i ↔ opField c = Laws.Fields.opcode i ∧ lenField c = Laws.Fields.length i := by
  constructor
  · intro h
    simp only [decode] at h
    split_ifs at h with h2 h1 h3 h4 h5 h6
    · cases h
      exact ⟨h2, rfl⟩
    all_goals
      obtain ⟨rfl, hlen⟩ := (decodePlain_eq_ok_iff _ _ _ _).mp h
      exact ⟨‹_›, hlen⟩
  · rintro ⟨hop, hlen⟩
    cases i <;> simp_all [decode, decodePlain, Laws.Fields.opcode, Laws.Fields.length]

/-- The encoder writes a command's opcode and its length (R87). -/
theorem encode_fields (i : Instr) : Laws.Fields.Statement i := by
  cases i with
  | reset => exact Laws.Fields.reset
  | write len => exact Laws.Fields.write len
  | sum => exact Laws.Fields.sum
  | sumw => exact Laws.Fields.sumw
  | size => exact Laws.Fields.size
  | blksz => exact Laws.Fields.blksz

theorem decode_encode (i : Instr) (h : i.WellFormed) : decode (encode i) = .ok i :=
  (decode_eq_ok_iff _ i).mpr (encode_fields i h)

/-- A word and the encoding of the command it decodes to hold the same two fields. -/
theorem encode_of_decode (c : Word32) (i : Instr) (h : decode c = .ok i) : encode i = c := by
  obtain ⟨hop, hlen⟩ := (decode_eq_ok_iff c i).mp h
  obtain ⟨hop', hlen'⟩ := encode_fields i (Machine.wellFormed_of_decode c i h)
  exact eq_of_fields_eq _ _ (hop'.trans hop.symm) (hlen'.trans hlen.symm)

/-- Settles O10: both directions of the round trip, and the encoder's words. -/
theorem decodeAndEncodeAreInverse : Obligations.DecodeAndEncodeAreInverse :=
  ⟨⟨rfl, encode_write_toNat, rfl, rfl, rfl, rfl⟩, decode_encode,
    fun c i h => ⟨encode_of_decode c i h, Machine.wellFormed_of_decode c i h⟩⟩

/-- A row whose mask is the whole word selects one word (R82). -/
theorem decode_eq_ok_iff_fullMask (c : Word32) (i : Instr) (h : i.WellFormed) :
    decode c = .ok i ↔ c &&& 0xFFFFFFFF#32 = encode i := by
  rw [show (0xFFFFFFFF#32) = BitVec.allOnes 32 from rfl, BitVec.and_allOnes]
  constructor
  · exact fun hd => (encode_of_decode c i hd).symm
  · rintro rfl
    exact decode_encode i h

/-- The mask of the row of `WRITE` keeps the opcode and clears the length. -/
theorem and_opMask (c : Word32) : c &&& 0xF0000000#32 = opField c ++ 0#28 :=
  calc c &&& 0xF0000000#32
    _ = (opField c ++ c.extractLsb' 0 28) &&& (BitVec.allOnes 4 ++ 0#28) := by rw [opField_append_len]; rfl
    _ = opField c ++ 0#28 := by rw [BitVec.and_append, BitVec.and_allOnes, BitVec.and_zero]

/-- The row of `WRITE` selects by the opcode alone (R82, R85). -/
theorem decode_eq_write_iff_mask (c : Word32) :
    decode c = .ok (.write (lenField c)) ↔ c &&& 0xF0000000#32 = 0x20000000#32 :=
  calc decode c = .ok (.write (lenField c))
    _ ↔ opField c = 0x2#4 := (decode_eq_ok_iff c _).trans (and_iff_left rfl)
    _ ↔ opField c ++ 0#28 = 0x2#4 ++ 0#28 := (BitVec.append_left_inj _).symm
    _ ↔ c &&& 0xF0000000#32 = 0x20000000#32 := by rw [and_opMask]; rfl

/-- The opcodes of no command (R83). -/
abbrev ReservedOpcode (op : BitVec 4) : Prop := op = 0x0#4 ∨ 0x7#4 ≤ op

/-- The opcodes whose length must be 0 (R84). -/
abbrev PlainOpcode (op : BitVec 4) : Prop := op = 0x1#4 ∨ op = 0x3#4 ∨ op = 0x4#4 ∨ op = 0x5#4 ∨ op = 0x6#4

theorem opcode_cases (op : BitVec 4) : op = 0x2#4 ∨ ReservedOpcode op ∨ PlainOpcode op := by
  revert op
  decide

theorem decode_of_reservedOpcode (c : Word32) (h : ReservedOpcode (opField c)) :
    decode c = .error (.reservedOpcode (opField c)) := by
  have notRow : ∀ op, ReservedOpcode op →
      op ≠ 0x2#4 ∧ op ≠ 0x1#4 ∧ op ≠ 0x3#4 ∧ op ≠ 0x4#4 ∧ op ≠ 0x5#4 ∧ op ≠ 0x6#4 := by decide
  obtain ⟨h2, h1, h3, h4, h5, h6⟩ := notRow _ h
  simp only [decode, if_neg, h2, h1, h3, h4, h5, h6, not_false_eq_true]

/-- With a length of 0, the opcode of a row other than that of `WRITE` gives its command. -/
theorem decode_of_plain (c : Word32) (h : PlainOpcode (opField c)) (hlen : lenField c = 0) :
    ∃ i, decode c = .ok i := by
  rcases h with h | h | h | h | h
  · exact ⟨.reset, (decode_eq_ok_iff c _).mpr ⟨h, hlen⟩⟩
  · exact ⟨.sum, (decode_eq_ok_iff c _).mpr ⟨h, hlen⟩⟩
  · exact ⟨.sumw, (decode_eq_ok_iff c _).mpr ⟨h, hlen⟩⟩
  · exact ⟨.size, (decode_eq_ok_iff c _).mpr ⟨h, hlen⟩⟩
  · exact ⟨.blksz, (decode_eq_ok_iff c _).mpr ⟨h, hlen⟩⟩

theorem decode_of_reservedLen (c : Word32) (h : PlainOpcode (opField c)) (hlen : lenField c ≠ 0) :
    decode c = .error (.reservedLen (opField c) (lenField c)) := by
  rcases h with h | h | h | h | h <;> simp [decode, decodePlain, h, hlen]

theorem illegalWord_of_ok (c : Word32) (i : Instr) (h : decode c = .ok i) : Machine.illegalWord c = false := by
  simp [Machine.illegalWord, h]

theorem illegalWord_of_error (c : Word32) (e : Illegal) (h : decode c = .error e) : Machine.illegalWord c = true := by
  simp [Machine.illegalWord, h]

/-- The illegal words are those of R83 and R84: a word with the opcode of `WRITE`, or with the opcode of another row and
no length, is a command. -/
theorem illegalWord_iff (c : Word32) :
    Machine.illegalWord c = true ↔ ReservedOpcode (opField c) ∨ (PlainOpcode (opField c) ∧ lenField c ≠ 0) := by
  constructor
  · intro hill
    have noCommand (i : Instr) : decode c ≠ .ok i := fun h => by simp [illegalWord_of_ok c i h] at hill
    rcases opcode_cases (opField c) with h | h | h
    · exact absurd (decode_of_write c h) (noCommand _)
    · exact .inl h
    · refine .inr ⟨h, fun hlen => ?_⟩
      obtain ⟨i, hi⟩ := decode_of_plain c h hlen
      exact noCommand i hi
  · rintro (h | ⟨h, hlen⟩)
    · exact illegalWord_of_error c _ (decode_of_reservedOpcode c h)
    · exact illegalWord_of_error c _ (decode_of_reservedLen c h hlen)

/-- Settles O11: each row by its mask, and the rest by the reserved opcodes and lengths. -/
theorem opcodeMapCoversAllWords : Obligations.OpcodeMapCoversAllWords := fun c =>
  ⟨decode_eq_ok_iff_fullMask c .reset rfl, decode_eq_write_iff_mask c, decode_eq_ok_iff_fullMask c .sum rfl,
    decode_eq_ok_iff_fullMask c .sumw rfl, decode_eq_ok_iff_fullMask c .size rfl,
    decode_eq_ok_iff_fullMask c .blksz rfl, illegalWord_iff c⟩

end Sys2Proof

/-! PROOF. What a step does with an illegal command word (spec/30_encoding.md R83, R84; spec/60_exceptions.md R182,
R186). -/

namespace Sys2Proof.Machine

theorem executeWord_of_illegal (c : Word32) (e : Illegal) (s : State) (h : decode c = .error e) :
    executeWord c s = .next (raiseFault 2#2 c s) := by
  simp [executeWord, h]

/-- An illegal word at a command boundary is accepted and raises IllegalCommand; the hidden state is idle already, and
nothing else changes. -/
theorem step_of_illegal (s : State) (c : Word32) (rest : List Word32) (e : Illegal) (h : s.AtBoundary)
    (hc : s.cmd = c :: rest) (hd : decode c = .error e) :
    step s = .next
      { s with cmd := rest, ci := s.ci + 1, fault := true, cause := 2#2, finfo := c, faultSeen := true } := by
  rw [step_of_boundary s c rest h hc, executeWord_of_illegal c e _ hd, raiseFault, ← h.hid]
  rfl

/-- Settles O14: a reserved opcode is illegal whatever the length. -/
theorem reservedOpcodeRaisesIllegalCommand : Obligations.ReservedOpcodeRaisesIllegalCommand :=
  ⟨fun s c rest h hc hop => step_of_illegal s c rest _ h hc (decode_of_reservedOpcode c hop), rfl⟩

/-- Settles O15: so is a length that is not 0 on an opcode other than that of `WRITE`. -/
theorem reservedLengthRaisesIllegalCommand : Obligations.ReservedLengthRaisesIllegalCommand :=
  fun s c rest h hc hop hlen => step_of_illegal s c rest _ h hc (decode_of_reservedLen c hop hlen)

end Sys2Proof.Machine

/-! PROOF. The command `RESET` (spec/40_reset_cmd.md R111). -/

namespace Sys2Proof.Machine

/-- Once out of hardware reset, a halted block does nothing: it accepts no word (R187). -/
theorem step_of_fault (s : State) (hr : s.rst = false) (hf : s.fault = true) : step s = .next s := by
  simp [step, sequencerStep, hr, hf]

/-- The word of `SUMW` at a command boundary is accepted and answered (R86, R151). -/
theorem step_of_sumw_word (s : State) (rest : List Word32) (h : s.AtBoundary) (hr : s.rspReady = true)
    (hc : s.cmd = 0x40000000#32 :: rest) :
    step s = .next
      { s with cmd := rest, ci := s.ci + 1, rsp := s.rsp ++ [s.acc.a, s.acc.b, s.acc.c, s.acc.d] } := by
  rw [step_of_boundary s _ rest h hc, executeWord_of_decode _ .sumw _ (by decide)]
  exact exec_sumw_of_boundary (acceptCommand rest s) (acceptCommand_boundary rest s h) hr

/-- `RESET` leaves a state that a second `RESET` does not change (R111). -/
theorem exec_reset_idempotent (s t : State) (h : s.AtBoundary) (ht : exec .reset s = .next t) :
    exec .reset t = .next t := by
  rw [exec_reset_of_boundary s h] at ht
  cases ht
  exact exec_reset_of_boundary { s with acc := Acc.zero } ⟨h.rst, h.fault, h.hid⟩

/-- `RESET` and then `SUMW`: whatever the accumulators were, four zero beats are answered (R111, R151). -/
theorem steps_of_reset_sumw (s : State) (rest : List Word32) (h : s.AtBoundary) (hr : s.rspReady = true)
    (hc : s.cmd = 0x10000000#32 :: 0x40000000#32 :: rest) :
    steps 2 s =
      some { s with acc := Acc.zero, cmd := rest, ci := s.ci + 2, rsp := s.rsp ++ [0#64, 0#64, 0#64, 0#64] } := by
  have hreset := step_of_reset_word s _ h hc
  have hsumw := step_of_sumw_word { s with acc := Acc.zero, cmd := 0x40000000#32 :: rest, ci := s.ci + 1 } rest
    ⟨h.rst, h.fault, h.hid⟩ hr rfl
  rw [steps_succ 1 _ _ hreset]
  exact steps_succ 0 _ _ hsumw

/-- Settles O18: `RESET` clears the accumulators and nothing else, its illegal forms and the halted block included; in the
worked example the accumulators it clears do not matter. -/
theorem resetZeroesAccumulators : Obligations.ResetZeroesAccumulators :=
  ⟨by decide, fun c hop hlen => (illegalWord_iff c).mpr (.inr ⟨.inl hop, hlen⟩), exec_reset_of_boundary,
    exec_reset_idempotent, fun s _ hr hf _ => step_of_fault s hr hf,
    fun s rest h hr _ hc => steps_of_reset_sumw s rest h hr hc⟩

end Sys2Proof.Machine

/-! PROOF. The word step: its four additions, its closed form over a list of words, and its parallel form
(spec/41_write.md R123, R129, R131, R133, R134). -/

namespace Sys2Proof.Machine

@[simp] theorem add64_toNat (x y : Word64) : (add64 x y).toNat = (x.toNat + y.toNat) % 2 ^ 64 := BitVec.toNat_ofNat ..

@[simp] theorem zext64_toNat (w : Word32) : (zext64 w).toNat = w.toNat :=
  BitVec.toNat_setWidth_of_le (by decide)

/-- The upper half of an extended word is 0 (R133): the word's number has no bit there. -/
theorem zext64_upper (w : Word32) : (zext64 w).extractLsb' 32 32 = 0#32 := by
  apply BitVec.eq_of_toNat_eq
  rw [BitVec.extractLsb'_toNat, zext64_toNat, Nat.shiftRight_eq_div_pow, Nat.div_eq_of_lt w.isLt]
  rfl

/-- Each addition of the word step as a number, from the value just computed to its left (R123). -/
theorem fold_toNat (x : Acc) (w : Word32) :
    (fold x w).a.toNat = (x.a.toNat + w.toNat) % 2 ^ 64 ∧
    (fold x w).b.toNat = (x.b.toNat + (fold x w).a.toNat) % 2 ^ 64 ∧
    (fold x w).c.toNat = (x.c.toNat + (fold x w).b.toNat) % 2 ^ 64 ∧
    (fold x w).d.toNat = (x.d.toNat + (fold x w).c.toNat) % 2 ^ 64 := by
  simp [fold]

/-- The same from the old values: each register gains the sum of itself, of those to its left and of the word (R123). -/
theorem fold_toNat_old (x : Acc) (w : Word32) :
    (fold x w).b.toNat = (x.b.toNat + x.a.toNat + w.toNat) % 2 ^ 64 ∧
    (fold x w).c.toNat = (x.c.toNat + x.b.toNat + x.a.toNat + w.toNat) % 2 ^ 64 ∧
    (fold x w).d.toNat = (x.d.toNat + x.c.toNat + x.b.toNat + x.a.toNat + w.toNat) % 2 ^ 64 := by
  obtain ⟨ha, hb, hc, hd⟩ := fold_toNat x w
  omega

/-- Settles O1: the cascade as numbers, with the new and with the old values. -/
theorem foldCascadesModulo64 : Obligations.FoldCascadesModulo64 := by
  refine ⟨fun x w => ?_, by decide⟩
  obtain ⟨ha, hb, hc, hd⟩ := fold_toNat x w
  exact ⟨ha, hb, hc, hd, fold_toNat_old x w⟩

/-- Settles O2: the word enters with its own number, and every adder adds 64-bit values. -/
theorem inputWordIsZeroExtended : Obligations.InputWordIsZeroExtended :=
  ⟨fun x w => ⟨zext64_toNat w, zext64_upper w, fold_a x w, fold_b x w, fold_c x w, fold_d x w⟩, by decide, by decide⟩

/-- The parallel stage is the word step (R131): both are the same sum of old values. -/
theorem parallelStep_eq_fold (x : Acc) (w : Word32) : parallelStep x w = fold x w := by
  simp [parallelStep, fold, add64_eq, BitVec.add_assoc]

/-- Settles O5: one edge of the parallel organisation loads the word step, and no register but the accumulators. -/
theorem parallelStageIsFold : Obligations.ParallelStageIsFold := fun p w _ =>
  ⟨parallelStep_eq_fold p.acc w, parallelStep_eq p.acc w, by rw [← parallelStep_eq_fold]; rfl, rfl⟩

/-- The word step from the old values, as congruences: the form in which word steps compose (R129). -/
theorem fold_modEq (x : Acc) (w : Word32) :
    (fold x w).a.toNat ≡ x.a.toNat + w.toNat [MOD 2 ^ 64] ∧
    (fold x w).b.toNat ≡ x.b.toNat + x.a.toNat + w.toNat [MOD 2 ^ 64] ∧
    (fold x w).c.toNat ≡ x.c.toNat + x.b.toNat + x.a.toNat + w.toNat [MOD 2 ^ 64] ∧
    (fold x w).d.toNat ≡ x.d.toNat + x.c.toNat + x.b.toNat + x.a.toNat + w.toNat [MOD 2 ^ 64] := by
  obtain ⟨ha, -⟩ := fold_toNat x w
  obtain ⟨hb, hc, hd⟩ := fold_toNat_old x w
  rw [ha, hb, hc, hd]
  exact ⟨Nat.mod_modEq _ _, Nat.mod_modEq _ _, Nat.mod_modEq _ _, Nat.mod_modEq _ _⟩

/-- The closed form of R129. Before the rest of the list stands one word more: its step replaces the old values by sums of
them, and Pascal's rule gathers the weights. -/
theorem foldAll_modEq (x : Acc) (ws : List Word32) :
    (foldAll x ws).a.toNat ≡ x.a.toNat + weightedSum 0 ws [MOD 2 ^ 64] ∧
    (foldAll x ws).b.toNat ≡ x.b.toNat + ws.length * x.a.toNat + weightedSum 1 ws [MOD 2 ^ 64] ∧
    (foldAll x ws).c.toNat ≡
      x.c.toNat + ws.length * x.b.toNat + Nat.choose (ws.length + 1) 2 * x.a.toNat + weightedSum 2 ws [MOD 2 ^ 64] ∧
    (foldAll x ws).d.toNat ≡
      x.d.toNat + ws.length * x.c.toNat + Nat.choose (ws.length + 1) 2 * x.b.toNat +
        Nat.choose (ws.length + 2) 3 * x.a.toNat + weightedSum 3 ws [MOD 2 ^ 64] := by
  induction ws generalizing x with
  | nil => simp [weightedSum, Nat.choose, Nat.ModEq.refl]
  | cons w ws ih =>
    obtain ⟨iha, ihb, ihc, ihd⟩ := ih (fold x w)
    obtain ⟨ha, hb, hc, hd⟩ := fold_modEq x w
    have pascal2 : Nat.choose (ws.length + 2) 2 = ws.length + 1 + Nat.choose (ws.length + 1) 2 := by
      rw [Nat.choose_succ_succ', Nat.choose_one_right]
    have pascal3 : Nat.choose (ws.length + 3) 3 = Nat.choose (ws.length + 2) 2 + Nat.choose (ws.length + 2) 3 :=
      Nat.choose_succ_succ' _ _
    simp only [foldAll_cons, List.length_cons, weightedSum, Nat.choose_zero_right, Nat.choose_one_right]
    refine ⟨?_, ?_, ?_, ?_⟩
    · calc (foldAll (fold x w) ws).a.toNat
        _ ≡ (fold x w).a.toNat + weightedSum 0 ws [MOD 2 ^ 64] := iha
        _ ≡ (x.a.toNat + w.toNat) + weightedSum 0 ws [MOD 2 ^ 64] := by gcongr
        _ = _ := by ring
    · calc (foldAll (fold x w) ws).b.toNat
        _ ≡ (fold x w).b.toNat + ws.length * (fold x w).a.toNat + weightedSum 1 ws [MOD 2 ^ 64] := ihb
        _ ≡ (x.b.toNat + x.a.toNat + w.toNat) + ws.length * (x.a.toNat + w.toNat) + weightedSum 1 ws [MOD 2 ^ 64] := by
          gcongr
        _ = _ := by ring
    · calc (foldAll (fold x w) ws).c.toNat
        _ ≡ (fold x w).c.toNat + ws.length * (fold x w).b.toNat +
            Nat.choose (ws.length + 1) 2 * (fold x w).a.toNat + weightedSum 2 ws [MOD 2 ^ 64] := ihc
        _ ≡ (x.c.toNat + x.b.toNat + x.a.toNat + w.toNat) + ws.length * (x.b.toNat + x.a.toNat + w.toNat) +
            Nat.choose (ws.length + 1) 2 * (x.a.toNat + w.toNat) + weightedSum 2 ws [MOD 2 ^ 64] := by gcongr
        _ = _ := by rw [pascal2]; ring
    · calc (foldAll (fold x w) ws).d.toNat
        _ ≡ (fold x w).d.toNat + ws.length * (fold x w).c.toNat + Nat.choose (ws.length + 1) 2 * (fold x w).b.toNat +
            Nat.choose (ws.length + 2) 3 * (fold x w).a.toNat + weightedSum 3 ws [MOD 2 ^ 64] := ihd
        _ ≡ (x.d.toNat + x.c.toNat + x.b.toNat + x.a.toNat + w.toNat) +
            ws.length * (x.c.toNat + x.b.toNat + x.a.toNat + w.toNat) +
            Nat.choose (ws.length + 1) 2 * (x.b.toNat + x.a.toNat + w.toNat) +
            Nat.choose (ws.length + 2) 3 * (x.a.toNat + w.toNat) + weightedSum 3 ws [MOD 2 ^ 64] := by gcongr
        _ = _ := by rw [pascal3, pascal2]; ring

theorem toNat_eq_mod_of_modEq (x : Word64) (n : Nat) (h : x.toNat ≡ n [MOD 2 ^ 64]) : x.toNat = n % 2 ^ 64 :=
  (Nat.mod_eq_of_lt x.isLt).symm.trans h

/-- A register with the closed form `n` holds `n` itself while `n` fits 64 bits. -/
theorem toNat_eq_of_modEq (x : Word64) (n : Nat) (h : x.toNat ≡ n [MOD 2 ^ 64]) (hn : n < 2 ^ 64) : x.toNat = n :=
  Nat.ModEq.eq_of_lt_of_lt h x.isLt hn

/-- Settles O4: the closed form, and the weights as binomials that grow with the number of words after. -/
theorem foldAllClosedForm : Obligations.FoldAllClosedForm := by
  refine ⟨fun x ws => ?_, fun v w => ?_, fun k i j h => ⟨Nat.choose_le_choose k (by omega), by simp⟩⟩
  · obtain ⟨ha, hb, hc, hd⟩ := foldAll_modEq x ws
    exact ⟨toNat_eq_mod_of_modEq _ _ ha, toNat_eq_mod_of_modEq _ _ hb, toNat_eq_mod_of_modEq _ _ hc,
      toNat_eq_mod_of_modEq _ _ hd⟩
  · simp [weightedSum, Nat.choose]

/-- The weights of equal words add up along a diagonal of Pascal's triangle. -/
theorem weightedSum_replicate (k n : Nat) (w : Word32) :
    weightedSum k (List.replicate n w) = Nat.choose (n + k) (k + 1) * w.toNat := by
  induction n with
  | zero => simp [weightedSum]
  | succ n ih =>
    rw [List.replicate_succ, weightedSum, ih, List.length_replicate, Nat.add_right_comm n 1 k, Nat.choose_succ_succ',
      Nat.add_mul]

/-- After `n` equal words from zero accumulators, the first and the last sum (R134). -/
theorem foldAll_replicate_modEq (n : Nat) (w : Word32) :
    (foldAll Acc.zero (List.replicate n w)).a.toNat ≡ n * w.toNat [MOD 2 ^ 64] ∧
    (foldAll Acc.zero (List.replicate n w)).d.toNat ≡ Nat.choose (n + 3) 4 * w.toNat [MOD 2 ^ 64] := by
  obtain ⟨ha, -, -, hd⟩ := foldAll_modEq Acc.zero (List.replicate n w)
  simpa [Acc.zero, weightedSum_replicate] using And.intro ha hd

/-- The largest weight of the last sum before it wraps, and the one at which it wraps (R134). -/
theorem choose_wrap_point :
    Nat.choose (565 + 3) 4 * 4294967295 < 2 ^ 64 ∧ 2 ^ 64 ≤ Nat.choose (566 + 3) 4 * 4294967295 := by
  rw [Nat.choose_eq_descFactorial_div_factorial, Nat.choose_eq_descFactorial_div_factorial]
  decide

theorem d_exact_before_wrap (n : Nat) (h : n < 566) :
    (foldAll Acc.zero (List.replicate n 0xFFFFFFFF#32)).d.toNat = Nat.choose (n + 3) 4 * 4294967295 := by
  refine toNat_eq_of_modEq _ _ (foldAll_replicate_modEq n _).2 ?_
  calc Nat.choose (n + 3) 4 * 4294967295
    _ ≤ Nat.choose (565 + 3) 4 * 4294967295 := Nat.mul_le_mul_right _ (Nat.choose_le_choose 4 (by omega))
    _ < 2 ^ 64 := choose_wrap_point.1

theorem a_exact_before_wrap (n : Nat) (h : n < 4294967298) :
    (foldAll Acc.zero (List.replicate n 0xFFFFFFFF#32)).a.toNat = n * 4294967295 :=
  toNat_eq_of_modEq _ _ (foldAll_replicate_modEq n _).1 (by omega)

end Sys2Proof.Machine

/-! PROOF. The word assembler over a payload (spec/41_write.md R122). -/

namespace Sys2Proof.Machine

theorem wordsOf_length (p : List Byte) : (wordsOf p).length = p.length / 4 := by
  match p with
  | [] => rfl
  | [_] => simp [wordsOf]
  | [_, _] => simp [wordsOf]
  | [_, _, _] => simp [wordsOf]
  | _ :: _ :: _ :: _ :: p =>
    simp only [wordsOf, List.length_cons, wordsOf_length p]
    omega

/-- Word `i` is made of the bytes `4i` to `4i+3` (R122): the first four bytes make word 0, and taking them off moves every
later byte down by 4 and every later word by 1. -/
theorem wordsOf_getElem? (p : List Byte) (i : Nat) (h : 4 * i + 3 < p.length) :
    (wordsOf p)[i]? = some (le32 p[4 * i] p[4 * i + 1] p[4 * i + 2] p[4 * i + 3]) := by
  match p, i, h with
  | _ :: _ :: _ :: _ :: _, 0, _ => rfl
  | _ :: _ :: _ :: _ :: p, i + 1, h => exact wordsOf_getElem? p i (by simp only [List.length_cons] at h; omega)

/-- A payload of whole words leaves the assembler empty (R122). -/
theorem feedBytes_of_aligned (x : Acc) (p : List Byte) (h : p.length % 4 = 0) :
    feedBytes (x, []) p = (foldAll x (wordsOf p), []) := by
  rw [feedBytes_eq, Nat.mul_div_cancel' (Nat.dvd_of_mod_eq_zero h), List.drop_length]

/-- Settles O8: the words by index, the assembler's fold of them, and the bytes it holds. -/
theorem assemblerMakesConsecutiveWords : Obligations.AssemblerMakesConsecutiveWords := by
  refine ⟨fun s hinv hp => by rw [hinv.idle hp]; rfl, fun x p => ⟨wordsOf_length p, wordsOf_getElem? p, ?_, ?_, ?_⟩⟩
  · rw [feedBytes_eq]
  · rw [feedBytes_held (x, []) p (Nat.zero_le 3)]
    exact Nat.le_of_lt_succ (Nat.mod_lt _ (by decide))
  · intro h
    rw [feedBytes_of_aligned x p h]

end Sys2Proof.Machine

/-! PROOF. `WRITE` with its payload presented and the sink ready (spec/41_write.md R120 to R128, R134). -/

namespace Sys2Proof.Machine

theorem exec_write_eq (len : Nat) (s : State) (h : len ≤ 268435455) :
    exec (.write len) s = .next (advance (beginWrite len s)) := execWrite_of_le len s h

/-- A legal length that is not 0 is loaded into the counter, and the payload phase begins (R34). -/
theorem beginWrite_of_aligned (len : Nat) (s : State) (h : len % 4 = 0) (h0 : len ≠ 0) :
    beginWrite len s =
      { s with
        hid :=
          { Hidden.idle with
            phase := .payload, cmdWord := some (encode (.write len)), remaining := BitVec.ofNat 28 len } } := by
  simp [beginWrite, misaligned, Config.wordBytes, h, h0, startCommand]

/-- A payload phase that begins a word with all its bytes presented: their words are folded, no byte is missing, and the
assembler is empty again (R120, R122). -/
theorem consumePayload_of_whole (s : State) (n : Nat) (hheld : s.hid.held = []) (hn : s.hid.remaining.toNat = n)
    (h4 : n % 4 = 0) (hlen : n ≤ s.din.length) :
    consumePayload s =
      { s with
        acc := foldAll s.acc (wordsOf (s.din.take n))
        din := s.din.drop n
        hid := { s.hid with remaining := 0#28 } } := by
  have hnow : s.payloadNow = n := by rw [State.payloadNow, hn, Nat.min_eq_left hlen]
  have hfeed : feedBytes (s.acc, []) (s.din.take n) = (foldAll s.acc (wordsOf (s.din.take n)), []) :=
    feedBytes_of_aligned _ _ (by rwa [List.length_take_of_le hlen])
  simp only [consumePayload, hnow, hn, hheld, hfeed, Nat.sub_self]

/-- The state once `len` payload bytes are taken from DIN and their words folded. -/
def State.foldPayload (len : Nat) (s : State) : State :=
  { s with acc := foldAll s.acc (wordsOf (s.din.take len)), din := s.din.drop len }

/-- A `WRITE` with its whole payload presented is that payload folded, and then a command that answers its length. -/
theorem advance_beginWrite_of_whole (s : State) (len : Nat) (h4 : len % 4 = 0) (hmax : len ≤ 268435455)
    (hlen : len ≤ s.din.length) :
    advance (beginWrite len s) = advance (startCommand .response (encode (.write len)) (s.foldPayload len)) := by
  by_cases h0 : len = 0
  · subst h0
    rfl
  · have hbegin := beginWrite_of_aligned len s h4 h0
    have hremaining : (beginWrite len s).hid.remaining.toNat = len := by
      rw [hbegin, BitVec.toNat_ofNat, Nat.mod_eq_of_lt (by omega)]
    have hconsume := consumePayload_of_whole (beginWrite len s) len (by rw [hbegin]; rfl) hremaining h4
      (by rwa [hbegin])
    rw [advance_of_payload _ (by rw [hbegin]), advancePayload, settleAdders_of_settled _ (by rw [hbegin]; rfl), hconsume,
      hbegin]
    exact if_pos rfl

/-- A `WRITE` with its whole payload presented and a ready sink: its words are folded in order, its bytes taken, its length
answered, and nothing else changes (R120 to R125). -/
theorem exec_write_of_boundary (s : State) (len : Nat) (h : s.AtBoundary) (hr : s.rspReady = true) (h4 : len % 4 = 0)
    (hmax : len ≤ 268435455) (hlen : len ≤ s.din.length) :
    exec (.write len) s = .next
      { s with
        acc := foldAll s.acc (wordsOf (s.din.take len))
        din := s.din.drop len
        rsp := s.rsp ++ [BitVec.ofNat 64 len] } := by
  rw [exec_write_eq len s hmax, advance_beginWrite_of_whole s len h4 hmax hlen,
    advance_startCommand_response _ (s.foldPayload len) ⟨h.rst, h.fault, h.hid⟩ hr, responseBeats_write _ len hmax]
  rfl

/-- Settles O3: wrapping is in `add64` alone, a `WRITE` never reports it, and the closed form says when it begins. -/
theorem overflowWrapsSilently : Obligations.OverflowWrapsSilently := by
  refine ⟨add64_toNat, fun s len h hr h4 hmax hlen => ?_, by decide, by decide, d_exact_before_wrap,
    choose_wrap_point.2, a_exact_before_wrap, by decide⟩
  exact ⟨_, exec_write_of_boundary s len h hr h4 hmax hlen, h.fault, rfl⟩

/-- Settles O21: two `WRITE`s in a row fold the words of the first and then those of the second; with two words the order
shows. -/
theorem wordsFoldInStreamOrder : Obligations.WordsFoldInStreamOrder := by
  refine ⟨fun s m n h hr hm hn hmmax hnmax hlen => ?_, by decide, by decide⟩
  have hfirst := exec_write_of_boundary s m h hr hm hmmax (by omega)
  have hsecond := exec_write_of_boundary
    { s.foldPayload m with rsp := s.rsp ++ [BitVec.ofNat 64 m] } n ⟨h.rst, h.fault, h.hid⟩ hr hn hnmax
    (by simp only [State.foldPayload, List.length_drop]; omega)
  exact ⟨_, _, hfirst, hsecond, rfl, (foldAll_append _ _ _).symm⟩

/-- The same for a payload `p` of whole words that stands first on DIN. -/
theorem exec_write_of_din (s : State) (p bs : List Byte) (h : s.AtBoundary) (hr : s.rspReady = true)
    (hd : s.din = p ++ bs) (h4 : p.length % 4 = 0) (hmax : p.length ≤ 268435455) :
    exec (.write p.length) s = .next
      { s with
        acc := foldAll s.acc (wordsOf p)
        din := bs
        rsp := s.rsp ++ [BitVec.ofNat 64 p.length] } := by
  rw [exec_write_of_boundary s p.length h hr h4 hmax (by simp [hd]), hd, List.take_left, List.drop_left]

/-- The word of a `WRITE` with its payload first on DIN, at a command boundary: it is accepted, and its payload folded and
answered (R86, R120). -/
theorem step_of_write_word (s : State) (cs : List Word32) (p bs : List Byte) (h : s.AtBoundary) (hr : s.rspReady = true)
    (hc : s.cmd = encode (.write p.length) :: cs) (hd : s.din = p ++ bs) (h4 : p.length % 4 = 0)
    (hmax : p.length ≤ 268435455) :
    step s = .next
      { s with
        acc := foldAll s.acc (wordsOf p)
        din := bs
        rsp := s.rsp ++ [BitVec.ofNat 64 p.length]
        cmd := cs
        ci := s.ci + 1 } := by
  rw [step_of_boundary s _ cs h hc, executeWord_of_decode _ _ _ (decode_encode (.write p.length) (decide_eq_true hmax))]
  exact exec_write_of_din (acceptCommand cs s) p bs (acceptCommand_boundary cs s h) hr hd h4 hmax

/-- Settles O22: a length of 0 is a legal length whose payload is empty. -/
theorem zeroLengthWriteAnswersZero : Obligations.ZeroLengthWriteAnswersZero := fun s rest h hr hc =>
  step_of_write_word s rest [] s.din h hr hc rfl rfl (Nat.zero_le _)

/-- A payload in pieces of whole words, one `WRITE` each: the words of all the pieces are folded, exactly their bytes are
taken, and each piece is answered (R128). -/
theorem steps_of_write_words (s : State) (ps : List (List Byte)) (rest : List Byte) (h : s.AtBoundary)
    (hr : s.rspReady = true) (h4 : ∀ p ∈ ps, p.length % 4 = 0) (hmax : ps.flatten.length ≤ 268435452)
    (hd : s.din = ps.flatten ++ rest) :
    steps ps.length { s with cmd := ps.map fun p => encode (.write p.length) } = some
      { s with
        acc := foldAll s.acc (wordsOf ps.flatten)
        din := rest
        rsp := s.rsp ++ ps.map fun p => BitVec.ofNat 64 p.length
        cmd := []
        ci := s.ci + ps.length } := by
  induction ps generalizing s with
  | nil => simp_all [steps_zero, wordsOf]
  | cons p ps ih =>
    simp only [List.flatten_cons, List.length_append, List.append_assoc] at hmax hd
    have hp : p.length % 4 = 0 := h4 p List.mem_cons_self
    have hstep := step_of_write_word { s with cmd := (p :: ps).map fun p => encode (.write p.length) } _ p
      (ps.flatten ++ rest) ⟨h.rst, h.fault, h.hid⟩ hr rfl hd hp (by omega)
    have hrest := ih
      { s with
        acc := foldAll s.acc (wordsOf p)
        din := ps.flatten ++ rest
        rsp := s.rsp ++ [BitVec.ofNat 64 p.length]
        ci := s.ci + 1 }
      ⟨h.rst, h.fault, h.hid⟩ hr (fun q hq => h4 q (List.mem_cons_of_mem p hq)) (by omega) rfl
    rw [List.length_cons, steps_succ _ _ _ hstep]
    refine hrest.trans ?_
    simp [wordsOf_append _ _ hp, foldAll_append, Nat.add_assoc, Nat.add_comm 1]

theorem flatten_length_mod_four (ps : List (List Byte)) (h4 : ∀ p ∈ ps, p.length % 4 = 0) :
    ps.flatten.length % 4 = 0 := by
  rw [List.length_flatten]
  exact Nat.mod_eq_zero_of_dvd (List.dvd_sum (by simpa [Nat.dvd_iff_mod_eq_zero] using h4))

/-- Settles O24: both ways fold the words of the whole payload from the same accumulators. -/
theorem splitWritesAreEquivalent : Obligations.SplitWritesAreEquivalent := by
  intro s ps rest h hr h4 hmax hd
  have hpieces := steps_of_write_words s ps rest h hr h4 hmax hd
  have hwhole := exec_write_of_din s ps.flatten rest h hr hd (flatten_length_mod_four ps h4) (by omega)
  exact ⟨_, _, hpieces, hwhole, rfl, rfl, rfl, rfl, rfl⟩

end Sys2Proof.Machine

/-! PROOF. A `WRITE` whose length is no multiple of 4, at the step and at the clock edges (spec/41_write.md R121;
spec/60_exceptions.md R186). -/

namespace Sys2Proof.Machine

/-- A fault raised at a command boundary writes the latch and its record; the hidden state is idle already. -/
theorem raiseFault_of_boundary (cause : BitVec 2) (c : Word32) (s : State) (h : s.AtBoundary) :
    raiseFault cause c s = { s with fault := true, cause := cause, finfo := c, faultSeen := true } := by
  rw [raiseFault, ← h.hid]

theorem beginWrite_of_misaligned (len : Nat) (s : State) (h : len % 4 ≠ 0) :
    beginWrite len s = raiseFault 1#2 (encode (.write len)) s :=
  if_pos ((misaligned_iff len).mpr h)

theorem exec_write_of_misaligned (s : State) (len : Nat) (hb : s.AtBoundary) (hmax : len ≤ 268435455)
    (h : len % 4 ≠ 0) :
    exec (.write len) s = .next
      { s with fault := true, cause := 1#2, finfo := BitVec.ofNat 32 (0x20000000 + len), faultSeen := true } := by
  rw [exec_write_eq len s hmax, beginWrite_of_misaligned len s h, advance_of_idle _ rfl, raiseFault_of_boundary _ _ s hb]
  rfl

/-- The two low bits of a command word are those of its length (R80). -/
theorem lenField_mod_four (c : Word32) : lenField c % 4 = (c.extractLsb' 0 2).toNat := by
  rw [lenField_eq, BitVec.extractLsb'_toNat, Nat.shiftRight_zero]
  omega

/-- The word of such a `WRITE`, once decoded, has raised MisalignedWrite, with itself in `FINFO`. -/
theorem decodeWord_of_misaligned (c : Word32) (s : State) (hop : opField c = 0x2#4) (h : lenField c % 4 ≠ 0) :
    decodeWord c s = raiseFault 1#2 c s := by
  have hd := decode_of_write c hop
  have henc : encode (.write (lenField c)) = c := encode_of_decode c _ hd
  simp only [decodeWord, hd, beginInstr, beginWrite_of_misaligned _ s h, henc]

theorem step_of_misaligned (s : State) (c : Word32) (rest : List Word32) (hb : s.AtBoundary) (hc : s.cmd = c :: rest)
    (hop : opField c = 0x2#4) (h : lenField c % 4 ≠ 0) :
    step s = .next (raiseFault 1#2 c (acceptCommand rest s)) := by
  rw [step_of_boundary s c rest hb hc, executeWord_eq, decodeWord_of_misaligned c _ hop h, advance_of_idle _ rfl]

/-- What every edge keeps holds after any number of them, at any paces. -/
theorem edges_induction {P : State → Prop} (p : Bool) (hedge : ∀ k t, P t → P (edge p k t)) (ks : List Pace) (s : State)
    (hs : P s) : P (edges p ks s) := by
  induction ks generalizing s with
  | nil => exact hs
  | cons k ks ih => exact ih _ (hedge k s hs)

theorem edge_of_boundary (p : Bool) (k : Pace) (s : State) (c : Word32) (rest : List Word32) (h : s.AtBoundary)
    (hc : s.cmd = c :: rest) : edge p k s = if k.accept then acceptEdge k c rest s else s := by
  simp [edge, idleEdge, cmdReady, h.rst, h.fault, h.hid, hc, Hidden.idle]

theorem edge_of_decode (p : Bool) (k : Pace) (s : State) (hr : s.rst = false) (hf : s.fault = false)
    (hp : s.hid.phase = .decode) : edge p k s = decodeEdge k s := by
  simp [edge, hr, hf, hp]

theorem edge_of_fault (p : Bool) (k : Pace) (s : State) (hr : s.rst = false) (hf : s.fault = true) :
    edge p k s = s := by
  simp [edge, hr, hf]

/-- The states the edges take a boundary state `s` through when `c`, the word presented, is that of such a `WRITE`: `c` is
presented, held, or has raised its fault. -/
inductive MisalignedRun (s : State) (c : Word32) (rest : List Word32) : State → Prop
  | presented : MisalignedRun s c rest s
  | held : MisalignedRun s c rest (startCommand .decode c (acceptCommand rest s))
  | faulted : MisalignedRun s c rest (raiseFault 1#2 c (acceptCommand rest s))

/-- An edge leaves the word where it is or, by its pace, accepts it, decodes it, or both. -/
theorem MisalignedRun.next {s t : State} {c : Word32} {rest : List Word32} (ht : MisalignedRun s c rest t)
    (hb : s.AtBoundary) (hc : s.cmd = c :: rest) (hop : opField c = 0x2#4) (h : lenField c % 4 ≠ 0) (p : Bool)
    (k : Pace) : MisalignedRun s c rest (edge p k t) := by
  cases ht with
  | presented =>
    rw [edge_of_boundary p k s c rest hb hc, acceptEdge_eq, decodeWord_of_misaligned c _ hop h]
    split
    · split
      · exact .faulted
      · exact .held
    · exact .presented
  | held =>
    rw [edge_of_decode p k (startCommand .decode c (acceptCommand rest s)) hb.rst hb.fault rfl, decodeEdge,
      decodeHeld_of_word _ c rfl rfl, decodeWord_of_misaligned c _ hop h]
    split
    · exact .faulted
    · exact .held
  | faulted =>
    rw [edge_of_fault p k (raiseFault 1#2 c (acceptCommand rest s)) hb.rst rfl]
    exact .faulted

/-- In none of these states has anything but the word and the fault registers changed. -/
theorem MisalignedRun.frame {s t : State} {c : Word32} {rest : List Word32} (ht : MisalignedRun s c rest t) :
    t.acc = s.acc ∧ t.din = s.din ∧ t.rsp = s.rsp ∧ t.dout = s.dout := by
  cases ht <;> exact ⟨rfl, rfl, rfl, rfl⟩

theorem MisalignedRun.phase {s t : State} {c : Word32} {rest : List Word32} (ht : MisalignedRun s c rest t)
    (hb : s.AtBoundary) : t.hid.phase = .idle ∨ t.hid.phase = .decode := by
  cases ht with
  | presented => exact .inl (by rw [hb.hid]; rfl)
  | held => exact .inr rfl
  | faulted => exact .inl rfl

/-- Only the last of them is halted. -/
theorem MisalignedRun.eq_of_fault {s t : State} {c : Word32} {rest : List Word32} (ht : MisalignedRun s c rest t)
    (hb : s.AtBoundary) (hf : t.fault = true) : t = raiseFault 1#2 c (acceptCommand rest s) := by
  cases ht with
  | presented => simp [hb.fault] at hf
  | held => simp [hb.fault] at hf
  | faulted => rfl

/-- Before its decode no command moves a beat other than its word (R53). -/
theorem pins_of_idle_or_decode (k : Pace) (t : State) (h : t.hid.phase = .idle ∨ t.hid.phase = .decode) :
    dinReady k t = false ∧ rspPin k t = none ∧ doutPin k t = none := by
  rcases h with h | h <;> simp [dinReady, rspPin, doutPin, h]

/-- Settles O23: the length is tested at the decode, so the word is presented or held, with nothing moved, until the edge
that raises the fault; and that edge leaves the state the step gives. -/
theorem misalignedWriteChangesNothingElse : Obligations.MisalignedWriteChangesNothingElse := by
  refine ⟨exec_write_of_misaligned, fun s c rest hb hc hop hlow => ?_⟩
  have h : lenField c % 4 ≠ 0 := fun h0 => hlow (BitVec.eq_of_toNat_eq (lenField_mod_four c ▸ h0))
  have hstep := step_of_misaligned s c rest hb hc hop h
  refine ⟨?_, fun p ks k => ?_⟩
  · rw [hstep, raiseFault_of_boundary _ _ _ (acceptCommand_boundary rest s hb)]
    rfl
  · have hrun : MisalignedRun s c rest (edges p ks s) :=
      edges_induction p (fun k t ht => ht.next hb hc hop h p k) ks s .presented
    obtain ⟨hacc, hdin, hrsp, hdout⟩ := hrun.frame
    obtain ⟨hready, hrspPin, hdoutPin⟩ := pins_of_idle_or_decode k _ (hrun.phase hb)
    refine ⟨hacc, hdin, hrsp, hdout, hready, hrspPin, hdoutPin, fun hf => ?_⟩
    rw [hstep, ← hrun.eq_of_fault hb hf]

end Sys2Proof.Machine

/-! PROOF. The read-out commands `SUMW` and `SUM` (spec/42_readout.md R151, R155, R159, R160). -/

namespace Sys2Proof.Machine

/-- Settles O28: the beats are the accumulators, and the example's are those of its accumulators. -/
theorem sumwAnswersFourWords : Obligations.SumwAnswersFourWords := by
  refine ⟨by decide, fun c hop hlen => (illegalWord_iff c).mpr (.inr ⟨.inr (.inr (.inl hop)), hlen⟩),
    exec_sumw_of_boundary, fun s h hr hacc => ?_⟩
  rw [exec_sumw_of_boundary s h hr, hacc]

/-- The digest of the accumulators that the two input words of R155's example leave. -/
theorem digest_of_example :
    digest { a := 0x0c0a0806#64, b := 0x100d0a07#64, c := 0x14100c08#64, d := 0x18130e09#64 } =
      [0x06#8, 0x08#8, 0x0a#8, 0x0c#8, 0x00#8, 0x00#8, 0x00#8, 0x00#8,
       0x07#8, 0x0a#8, 0x0d#8, 0x10#8, 0x00#8, 0x00#8, 0x00#8, 0x00#8,
       0x08#8, 0x0c#8, 0x10#8, 0x14#8, 0x00#8, 0x00#8, 0x00#8, 0x00#8,
       0x09#8, 0x0e#8, 0x13#8, 0x18#8, 0x00#8, 0x00#8, 0x00#8, 0x00#8] := by decide

/-- Settles O29: the bytes of R155 are the definition of `digest`. -/
theorem sumEmitsDigest : Obligations.SumEmitsDigest := by
  refine ⟨by decide, fun c hop hlen => (illegalWord_iff c).mpr (.inr ⟨.inr (.inl hop), hlen⟩),
    exec_sum_of_boundary, fun s h hd hacc => ?_⟩
  rw [exec_sum_of_boundary s h hd, hacc, digest_of_example]

/-- The lowest `n` bytes of a word, weighted by their places, make its number modulo `2 ^ (8 * n)`. -/
theorem sum_bytes_eq_mod (v : Word64) (n : Nat) :
    ((List.range n).map fun i => (v.extractLsb' (8 * i) 8).toNat * 2 ^ (8 * i)).sum = v.toNat % 2 ^ (8 * n) := by
  induction n with
  | zero => simp [Nat.mod_one]
  | succ n ih =>
    have hbyte : (v.extractLsb' (8 * n) 8).toNat = v.toNat / 2 ^ (8 * n) % 2 ^ 8 := by
      rw [BitVec.extractLsb'_toNat, Nat.shiftRight_eq_div_pow]
    rw [List.sum_range_succ, ih, hbyte, Nat.mul_succ, Nat.pow_add, Nat.mod_mul, Nat.mul_comm (2 ^ (8 * n))]

/-- The eight bytes of a word make its number. -/
theorem sum_bytes_eq_toNat (v : Word64) :
    ((List.range 8).map fun i => (v.extractLsb' (8 * i) 8).toNat * 2 ^ (8 * i)).sum = v.toNat :=
  (sum_bytes_eq_mod v 8).trans (Nat.mod_eq_of_lt v.isLt)

/-- The beats of `SUMW` are the accumulators by number (R12, R151). -/
theorem beats_getElem? (x : Acc) (j : Fin 4) : [x.a, x.b, x.c, x.d][j.val]? = some (x.get j) :=
  match j with
  | 0 => rfl
  | 1 => rfl
  | 2 => rfl
  | 3 => rfl

/-- Accumulator `j` is read back from its eight bytes of the digest (R160). -/
theorem sum_digest_bytes_eq_toNat (x : Acc) (j : Fin 4) :
    ((List.range 8).map fun i => ((digest x).getD (8 * j.val + i) 0#8).toNat * 2 ^ (8 * i)).sum = (x.get j).toNat := by
  have hbyte : ∀ i ∈ List.range 8, ((digest x).getD (8 * j.val + i) 0#8).toNat * 2 ^ (8 * i) =
      ((x.get j).extractLsb' (8 * i) 8).toNat * 2 ^ (8 * i) := fun i hi => by
    rw [List.getD_eq_getElem?_getD, digest_getElem?_of_acc x j ⟨i, List.mem_range.mp hi⟩, Option.getD_some]
  rw [List.map_congr_left hbyte, sum_bytes_eq_toNat]

/-- Settles O32: both read the same accumulators, and the layout of the digest loses nothing of them. -/
theorem sumAndSumwAgree : Obligations.SumAndSumwAgree := by
  intro s h hr hd
  refine ⟨_, _, _, _, _, _, _, exec_sumw_of_boundary s h hr, exec_sum_of_boundary s h hd, rfl, rfl,
    digest_eq_le64 s.acc, fun j => ?_⟩
  rw [beats_getElem?, sum_digest_bytes_eq_toNat, Option.map_some]

/-- Settles O33: a `SUM` writes DOUT alone, so the next command finds the accumulators, the payload and the boundary as
they were. -/
theorem repeatedSumAppends : Obligations.RepeatedSumAppends := by
  constructor
  · intro s h hr hd
    have hsecond := exec_sum_of_boundary { s with dout := s.dout ++ digest s.acc } ⟨h.rst, h.fault, h.hid⟩ hd
    have hsumw := exec_sumw_of_boundary { s with dout := s.dout ++ digest s.acc ++ digest s.acc }
      ⟨h.rst, h.fault, h.hid⟩ hr
    exact ⟨_, _, _, exec_sum_of_boundary s h hd, hsecond, hsumw, rfl, rfl⟩
  · intro s len h hr hd h4 hmax hlen
    have hwrite := exec_write_of_boundary { s with dout := s.dout ++ digest s.acc } len ⟨h.rst, h.fault, h.hid⟩ hr
      h4 hmax hlen
    have hsecond := exec_sum_of_boundary
      { s.foldPayload len with
        dout := s.dout ++ digest s.acc, rsp := s.rsp ++ [BitVec.ofNat 64 len] } ⟨h.rst, h.fault, h.hid⟩ hd
    exact ⟨_, _, _, exec_sum_of_boundary s h hd, hwrite, hsecond, rfl⟩

end Sys2Proof.Machine

/-! PROOF. The constant commands `SIZE` and `BLKSZ` (spec/43_constants.md R170, R171). -/

namespace Sys2Proof.Machine

/-- Settles O30: the answer is the length of every digest, whatever the accumulators. -/
theorem sizeAnswersThirtyTwo : Obligations.SizeAnswersThirtyTwo := by
  refine ⟨by decide, fun c hop hlen => ?_, exec_size_of_boundary, digest_length⟩
  exact (illegalWord_iff c).mpr (.inr ⟨.inr (.inr (.inr (.inl hop))), hlen⟩)

/-- `BLKSZ` answers the number of bytes of an input word (R171). -/
theorem exec_blksz_of_boundary (s : State) (h : s.AtBoundary) (hr : s.rspReady = true) :
    exec .blksz s = .next { s with rsp := s.rsp ++ [4#64] } := by
  rw [exec_eq .blksz s rfl, ← responseBeats_blksz s.acc]
  exact congrArg Host.Outcome.next (advance_startCommand_response _ s h hr)

/-- Settles O31: the answer is the number of bytes of a word, by which `misaligned` tests a length. -/
theorem blkszAnswersFour : Obligations.BlkszAnswersFour := by
  refine ⟨by decide, fun c hop hlen => ?_, exec_blksz_of_boundary, misaligned_iff⟩
  exact (illegalWord_iff c).mpr (.inr ⟨.inr (.inr (.inr (.inr hop))), hlen⟩)

end Sys2Proof.Machine

/-! PROOF. What faults exclude, and the halted block (spec/60_exceptions.md R184, R187). -/

namespace Sys2Proof.Machine

/-- A misaligned `WRITE` is a command, and only its execution faults (R85, R121). -/
theorem illegalWord_of_misalignedWriteWord (c : Word32) (h : misalignedWriteWord c = true) : illegalWord c = false := by
  obtain ⟨hop, _⟩ : opField c = 0x2#4 ∧ misaligned (lenField c) = true := by simpa [misalignedWriteWord] using h
  exact illegalWord_of_ok c _ (decode_of_write c hop)

/-- Hardware reset has priority over everything else at an edge (R184, R210). -/
theorem edge_of_rst (p : Bool) (k : Pace) (s : State) (h : s.rst = true) : edge p k s = hwReset s := by
  simp [edge, h]

/-- Settles O39: a misaligned word has the opcode of `WRITE`, with which every word is a command; `rst` and the latch
are looked at before any word is. -/
theorem faultsAreExclusive : Obligations.FaultsAreExclusive := by
  refine ⟨fun c ⟨hmis, hill⟩ => ?_, step_of_fault, fun s p k hr => ?_⟩
  · exact absurd hill (by simp [illegalWord_of_misalignedWriteWord c hmis])
  · rw [edge_of_rst p k s hr]
    exact ⟨step_of_rst s hr, rfl⟩

/-- While the block is halted every ready and every valid it drives is 0, at any pace (R53, R187). -/
theorem pins_of_fault (k : Pace) (s : State) (h : s.fault = true) :
    cmdReady k s = false ∧ dinReady k s = false ∧ doutPin k s = none ∧ rspPin k s = none := by
  simp [cmdReady, dinReady, doutPin, rspPin, h]

/-- Settles O40: a halted block has every handshake pin low and ignores steps and edges; the latch is not the host's to
clear, so only hardware reset ends the halt. -/
theorem haltedBlockDoesNothing : Obligations.HaltedBlockDoesNothing := by
  refine ⟨fun s p k hf hr => ?_, fun s t m hf hm => ?_, fun s _ hr => ?_⟩
  · obtain ⟨hcmd, hdin, hdout, hrsp⟩ := pins_of_fault k s hf
    have hnotWell : ¬s.EndedWell := fun ⟨_, _, hclear, _⟩ => by simp [hf] at hclear
    exact ⟨step_of_fault s hr hf, edge_of_fault p k s hr hf, hcmd, hdin, hdout, hrsp, hnotWell⟩
  · obtain ⟨_, hfault, _⟩ := hostMove_block m s t hm
    exact hfault.trans hf
  · exact ⟨hwReset s, step_of_rst s hr, rfl, rfl, rfl, rfl, rfl, rfl⟩

end Sys2Proof.Machine

/-! PROOF. Hardware reset at the clock edges (spec/70_reset_and_hazards.md R210, R211). -/

namespace Sys2Proof.Machine

/-- No beat is transferred at an edge that samples `rst` as 1 (R51, R210). -/
theorem transfers_of_rst (k : Pace) (s : State) (h : s.rst = true) :
    transfers k s = { cmd := none, din := none, dout := none, rsp := none } := by
  simp [transfers, h]

/-- Hardware reset leaves nothing for a second one to change (R210). -/
@[simp] theorem hwReset_hwReset (s : State) : hwReset (hwReset s) = hwReset s := rfl

/-- While `rst` is held at 1, the edges after the first change nothing (R210). -/
theorem edges_of_rst (p : Bool) (k : Pace) (ks : List Pace) (s : State) (h : s.rst = true) :
    edges p (k :: ks) s = hwReset s := by
  refine edges_induction (P := fun t => t = hwReset s) p (fun k' t ht => ?_) ks _ (edge_of_rst p k s h)
  rw [ht, edge_of_rst p k' (hwReset s) h, hwReset_hwReset]

/-- With `rst` still at 1 after hardware reset, every output is 0: `cmd_ready` is low because of `rst`, the other
handshake pins because the sequencer is idle, and the status pins show the registers reset (R53, R211). -/
theorem pinsOut_hwReset_of_rst (k : Pace) (s : State) (h : s.rst = true) :
    pinsOut k (hwReset s) =
      { cmdReady := false, dinReady := false, dout := none, rsp := none,
        status := { fault := false, faultCause := 0#2, faultInfo := 0#32 } } := by
  have hcmd : cmdReady k (hwReset s) = false := by simp [cmdReady, h]
  have hdin : dinReady k (hwReset s) = false := by simp [dinReady, Hidden.idle]
  have hdout : doutPin k (hwReset s) = none := by simp [doutPin, Hidden.idle]
  have hrsp : rspPin k (hwReset s) = none := by simp [rspPin, Hidden.idle]
  rw [pinsOut, hcmd, hdin, hdout, hrsp]
  rfl

/-- Settles O43: any number of edges with `rst` at 1 leaves the state that hardware reset gives, whose outputs are 0. -/
theorem outputsAreZeroInReset : Obligations.OutputsAreZeroInReset := by
  intro s p k k' ks hr
  rw [edges_of_rst p k ks s hr]
  exact pinsOut_hwReset_of_rst k' s hr

/-- Settles O42: such an edge is hardware reset, and so is a step; lowering `rst` after it leaves a fresh block. -/
theorem hardwareResetTakesTheResetState : Obligations.HardwareResetTakesTheResetState := by
  intro s p k k' hr
  have hedge : edge p k s = hwReset s := edge_of_rst p k s hr
  have hagain : edge p k' (hwReset s) = hwReset s := edge_of_rst p k' (hwReset s) hr
  rw [hedge, hagain]
  exact ⟨rfl, step_of_rst s hr, transfers_of_rst k s hr, rfl, _, rfl, ⟨rfl, rfl, rfl⟩, rfl, rfl⟩

end Sys2Proof.Machine

/-! PROOF. The invariant, kept by every step, edge and event, and what it says of a fault (spec/10_state.md sections 4
and 6; spec/60_exceptions.md R180, R195). -/

namespace Sys2Proof.Machine

/-- The hidden state fits its phase: the part of the invariant that speaks of the hidden state alone (R39). -/
def Hidden.Ok (h : Hidden) : Prop :=
  match h.phase with
  | .idle => h = Hidden.idle
  | .decode => h.DecodeOk
  | .payload => h.PayloadOk
  | .response => h.ResponseOk
  | .digest => h.DigestOk

theorem Hidden.idle_ok : Hidden.idle.Ok := rfl

theorem Hidden.Ok.of_decode {h : Hidden} (hp : h.phase = .decode) (ho : h.DecodeOk) : h.Ok := by simpa [Hidden.Ok, hp]

theorem Hidden.Ok.of_payload {h : Hidden} (hp : h.phase = .payload) (ho : h.PayloadOk) : h.Ok := by
  simpa [Hidden.Ok, hp]

theorem Hidden.Ok.of_response {h : Hidden} (hp : h.phase = .response) (ho : h.ResponseOk) : h.Ok := by
  simpa [Hidden.Ok, hp]

theorem Hidden.Ok.of_digest {h : Hidden} (hp : h.phase = .digest) (ho : h.DigestOk) : h.Ok := by
  simpa [Hidden.Ok, hp]

theorem State.Inv.ok {s : State} (hs : s.Inv) : s.hid.Ok := by
  unfold Hidden.Ok
  split
  · exact hs.idle ‹_›
  · exact hs.decode ‹_›
  · exact hs.payload ‹_›
  · exact hs.response ‹_›
  · exact hs.digest ‹_›

/-- The latch and its record are the same in both states. -/
structure SameLatch (s t : State) : Prop where
  fault : t.fault = s.fault
  cause : t.cause = s.cause
  finfo : t.finfo = s.finfo
  seen : t.faultSeen = s.faultSeen

/-- The invariant goes over to a state with the same latch whose hidden state fits its phase. -/
theorem State.Inv.of_sameLatch {s t : State} (hs : s.Inv) (hl : SameLatch s t)
    (htaken : t.resetTaken = true → t.rst = true) (hhalt : s.fault = true → t.hid = Hidden.idle) (hok : t.hid.Ok) :
    t.Inv where
  clear := by rw [hl.fault, hl.cause, hl.finfo]; exact hs.clear
  latched := by rw [hl.fault, hl.cause, hl.finfo]; exact hs.latched
  seen := by rw [hl.fault, hl.seen]; exact hs.seen
  taken := htaken
  halted := by rw [hl.fault]; exact hhalt
  idle hp := by simpa [Hidden.Ok, hp] using hok
  decode hp := by simpa [Hidden.Ok, hp] using hok
  payload hp := by simpa [Hidden.Ok, hp] using hok
  response hp := by simpa [Hidden.Ok, hp] using hok
  digest hp := by simpa [Hidden.Ok, hp] using hok

/-- So it does while a command is in progress, whatever that does to the accumulators and the channels. -/
theorem State.Inv.of_sameControl {s t : State} (hs : s.Inv) (hf : s.fault = false) (hc : SameControl s t)
    (hok : t.hid.Ok) : t.Inv :=
  hs.of_sameLatch ⟨hc.fault, hc.cause, hc.finfo, hc.faultSeen⟩ (by rw [hc.resetTaken, hc.rst]; exact hs.taken)
    (by simp [hf]) hok

/-- Outside the idle phase the block is not halted. -/
theorem State.Inv.fault_of_busy {s : State} (hs : s.Inv) (hp : s.hid.phase ≠ .idle) : s.fault = false := by
  cases hf : s.fault with
  | false => rfl
  | true => exact absurd (by rw [hs.halted hf]; rfl) hp

/-- Hardware reset gives a state of the invariant from any state (R210). -/
theorem hwReset_inv {s : State} (hr : s.rst = true) : (hwReset s).Inv where
  clear _ := ⟨rfl, rfl⟩
  latched := nofun
  seen := nofun
  taken _ := hr
  halted := nofun
  idle _ := rfl
  decode := nofun
  payload := nofun
  response := nofun
  digest := nofun

/-- A fault whose cause fits the word it latches keeps the invariant (R180, R186). -/
theorem raiseFault_inv {s : State} (hs : s.Inv) (cause : BitVec 2) (c : Word32)
    (h : (cause = 1#2 ∧ misalignedWriteWord c = true) ∨ (cause = 2#2 ∧ illegalWord c = true)) :
    (raiseFault cause c s).Inv where
  clear := nofun
  latched _ := h
  seen _ := rfl
  taken := hs.taken
  halted _ := rfl
  idle _ := rfl
  decode := nofun
  payload := nofun
  response := nofun
  digest := nofun

theorem acceptCommand_inv {s : State} (hs : s.Inv) (rest : List Word32) : (acceptCommand rest s).Inv :=
  hs.of_sameLatch ⟨rfl, rfl, rfl, rfl⟩ hs.taken hs.halted hs.ok

/-- Outside `WRITE`, a command begins with nothing in the assembler and no addition owed. -/
theorem Hidden.writeIdle_idle (p : Phase) (c : Word32) :
    Hidden.WriteIdle { Hidden.idle with phase := p, cmdWord := some c } := ⟨rfl, rfl, rfl, rfl, rfl⟩

theorem startCommand_inv {s : State} (hs : s.Inv) (hf : s.fault = false) (p : Phase) (c : Word32)
    (hok : Hidden.Ok { Hidden.idle with phase := p, cmdWord := some c }) : (startCommand p c s).Inv :=
  hs.of_sameLatch ⟨rfl, rfl, rfl, rfl⟩ hs.taken (by simp [hf]) hok

/-- A command that answers on RSP begins in its phase (R37). -/
theorem startCommand_response_inv {s : State} (hs : s.Inv) (hf : s.fault = false) (c : Word32)
    (hc : alignedWriteWord c = true ∨ c = encode .sumw ∨ c = encode .size ∨ c = encode .blksz) :
    (startCommand .response c s).Inv := by
  refine startCommand_inv hs hf _ c (.of_response rfl ⟨?_, fun _ => rfl, rfl, Hidden.writeIdle_idle _ c⟩)
  rcases hc with hc | rfl | rfl | rfl
  · exact .inl ⟨c, rfl, hc⟩
  · exact .inr (.inl rfl)
  · exact .inr (.inr (.inl rfl))
  · exact .inr (.inr (.inr rfl))

theorem alignedWriteWord_encode (len : Nat) (h : len ≤ Config.lenMax) (h4 : misaligned len = false) :
    alignedWriteWord (encode (.write len)) = true := by
  simp [alignedWriteWord, opField_encode_write len h, lenField_encode_write len h, h4]

theorem misalignedWriteWord_encode (len : Nat) (h : len ≤ Config.lenMax) (h4 : misaligned len = true) :
    misalignedWriteWord (encode (.write len)) = true := by
  simp [misalignedWriteWord, opField_encode_write len h, lenField_encode_write len h, h4]

theorem beginWrite_inv {s : State} (hs : s.Inv) (hf : s.fault = false) (len : Nat) (h : len ≤ Config.lenMax) :
    (beginWrite len s).Inv := by
  unfold beginWrite
  split
  next h4 => exact raiseFault_inv hs _ _ (.inl ⟨rfl, misalignedWriteWord_encode len h h4⟩)
  next h4 =>
    have h4' : misaligned len = false := by simpa using h4
    have hword := alignedWriteWord_encode len h h4'
    split
    · exact startCommand_response_inv hs hf _ (.inl hword)
    · have hlen : (BitVec.ofNat 28 len).toNat = len := by
        rw [BitVec.toNat_ofNat, Nat.mod_eq_of_lt (by simp only [Config.lenMax] at h; omega)]
      have hmod : len % 4 = 0 := by simpa [misaligned, Config.wordBytes] using h4'
      refine hs.of_sameLatch ⟨rfl, rfl, rfl, rfl⟩ hs.taken (by simp [hf]) (.of_payload rfl ?_)
      exact ⟨⟨_, rfl, hword, by simp [Hidden.idle, hlen, lenField_encode_write len h]⟩, Nat.zero_le 3,
        by simpa [Hidden.idle, hlen] using hmod, rfl, rfl, rfl⟩

theorem beginInstr_inv {s : State} (hs : s.Inv) (hf : s.fault = false) (i : Instr) (h : i.WellFormed) :
    (beginInstr i s).Inv := by
  cases i with
  | reset => exact hs.of_sameLatch ⟨rfl, rfl, rfl, rfl⟩ hs.taken (fun _ => rfl) Hidden.idle_ok
  | write len => exact beginWrite_inv hs hf len (of_decide_eq_true h)
  | sum => exact startCommand_inv hs hf _ _ (.of_digest rfl ⟨rfl, rfl, Hidden.writeIdle_idle _ _⟩)
  | sumw => exact startCommand_response_inv hs hf _ (.inr (.inl rfl))
  | size => exact startCommand_response_inv hs hf _ (.inr (.inr (.inl rfl)))
  | blksz => exact startCommand_response_inv hs hf _ (.inr (.inr (.inr rfl)))

theorem decodeWord_inv {s : State} (hs : s.Inv) (hf : s.fault = false) (c : Word32) : (decodeWord c s).Inv := by
  unfold decodeWord
  split
  next e hd => exact raiseFault_inv hs _ _ (.inr ⟨rfl, illegalWord_of_error c e hd⟩)
  next i hd => exact beginInstr_inv hs hf i (wellFormed_of_decode c i hd)

/-- A word is held in the decode phase (R37). -/
theorem State.Inv.word_of_decode {s : State} (hs : s.Inv) (hp : s.hid.phase = .decode) :
    ∃ c, s.hid.cmdWord = some c := by
  obtain ⟨c, hc⟩ := hs.decode hp
  exact ⟨c, by rw [hc]⟩

theorem decodeHeld_inv {s : State} (hs : s.Inv) : (decodeHeld s).Inv := by
  by_cases hp : s.hid.phase = .decode
  · obtain ⟨c, hc⟩ := hs.word_of_decode hp
    rw [decodeHeld_of_word s c hp hc]
    exact decodeWord_inv hs (hs.fault_of_busy (by simp [hp])) c
  · rwa [decodeHeld_of_not_decode s hp]

/-- `n` payload bytes taken by the assembler, whatever the adder stage does, leave the payload phase in order (R33,
R34). -/
theorem Hidden.PayloadOk.taken {h : Hidden} (ho : h.PayloadOk) (n : Nat) (hn : n ≤ h.remaining.toNat)
    (held : List Byte) (hheld : held.length = (h.held.length + n) % 4) (va vb vc : Bool) :
    Hidden.PayloadOk
      { h with held := held, remaining := BitVec.ofNat 28 (h.remaining.toNat - n), va := va, vb := vb, vc := vc } := by
  obtain ⟨⟨c, hc, haligned, hle⟩, h3, hwhole, hsum, hsumw, hoff⟩ := ho
  have hrem : (BitVec.ofNat 28 (h.remaining.toNat - n)).toNat = h.remaining.toNat - n := by
    rw [BitVec.toNat_ofNat, Nat.mod_eq_of_lt (by omega)]
  refine ⟨⟨c, hc, haligned, ?_⟩, ?_, ?_, hsum, hsumw, hoff⟩ <;> simp only [hrem, hheld] <;> omega

/-- After the last byte the assembler is empty: the bytes it took are whole words (R122). -/
theorem Hidden.PayloadOk.held_nil {h : Hidden} (ho : h.PayloadOk) (hr : h.remaining = 0#28) : h.held = [] := by
  have hwhole := ho.whole
  have h3 := ho.held
  rw [hr, BitVec.toNat_zero, Nat.add_zero] at hwhole
  exact List.eq_nil_of_length_eq_zero (by omega)

/-- With no byte missing and no addition owed, the count may be answered (R65, R125). -/
theorem Hidden.PayloadOk.done {h : Hidden} (ho : h.PayloadOk) (hr : h.remaining = 0#28)
    (hv : h.va = false ∧ h.vb = false ∧ h.vc = false) : Hidden.ResponseOk { h with phase := .response } := by
  obtain ⟨c, hc, haligned, -⟩ := ho.word
  obtain ⟨hva, hvb, hvc⟩ := hv
  exact ⟨.inl ⟨c, hc, haligned⟩, fun _ => ho.sumwIdx, ho.sumIdx, ⟨ho.held_nil hr, hr, hva, hvb, hvc⟩⟩

/-- An offer changes nothing of what the phase asks for. -/
theorem Hidden.ResponseOk.offer {h : Hidden} (ho : h.ResponseOk) : Hidden.ResponseOk { h with offered := true } :=
  ⟨ho.word, ho.idx, ho.sumIdx, ⟨ho.idle.held, ho.idle.remaining, ho.idle.va, ho.idle.vb, ho.idle.vc⟩⟩

theorem Hidden.DigestOk.offer {h : Hidden} (ho : h.DigestOk) : Hidden.DigestOk { h with offered := true } :=
  ⟨ho.word, ho.sumwIdx, ⟨ho.idle.held, ho.idle.remaining, ho.idle.va, ho.idle.vb, ho.idle.vc⟩⟩

theorem offerBeat_ok {s : State}
    (h : s.hid.phase = .response ∧ s.hid.ResponseOk ∨ s.hid.phase = .digest ∧ s.hid.DigestOk) :
    (offerBeat s).hid.Ok := by
  rcases h with ⟨hp, ho⟩ | ⟨hp, ho⟩
  · exact .of_response hp ho.offer
  · exact .of_digest hp ho.offer

theorem advanceResponse_ok {s : State} (hp : s.hid.phase = .response) (ho : s.hid.ResponseOk) :
    (advanceResponse s).hid.Ok := by
  unfold advanceResponse
  split
  · exact Hidden.idle_ok
  · exact offerBeat_ok (.inl ⟨hp, ho⟩)

theorem advanceDigest_ok {s : State} (hp : s.hid.phase = .digest) (ho : s.hid.DigestOk) : (advanceDigest s).hid.Ok := by
  unfold advanceDigest
  split
  · exact Hidden.idle_ok
  · exact offerBeat_ok (.inr ⟨hp, ho⟩)

theorem payloadNow_le (s : State) : s.payloadNow ≤ s.hid.remaining.toNat ∧ s.payloadNow ≤ s.din.length :=
  ⟨Nat.min_le_left _ _, Nat.min_le_right _ _⟩

theorem consumePayload_ok {s : State} (ho : s.hid.PayloadOk) : (consumePayload s).hid.PayloadOk := by
  refine ho.taken s.payloadNow (payloadNow_le s).1 _ ?_ _ _ _
  rw [feedBytes_held _ _ ho.held, List.length_take_of_le (payloadNow_le s).2]

theorem settleAdders_ok {s : State} (ho : s.hid.PayloadOk) : (settleAdders s).hid.PayloadOk :=
  ⟨ho.word, ho.held, ho.whole, ho.sumIdx, ho.sumwIdx, ho.offered⟩

theorem advancePayload_ok {s : State} (hp : s.hid.phase = .payload) (ho : s.hid.PayloadOk) :
    (advancePayload s).hid.Ok := by
  have hconsumed := consumePayload_ok (settleAdders_ok ho)
  simp only [advancePayload]
  split
  next hr =>
    exact advanceResponse_ok rfl (hconsumed.done hr ((settled_iff (drain s.adders)).mp (drain_settled _)))
  next => exact .of_payload hp hconsumed

theorem advance_inv {s : State} (hs : s.Inv) : (advance s).Inv := by
  by_cases hp : s.hid.phase = .idle
  · rwa [advance_of_idle s hp]
  · refine hs.of_sameControl (hs.fault_of_busy hp) (advance_control s) ?_
    cases h : s.hid.phase with
    | idle => exact absurd h hp
    | decode => rw [advance_of_decode s h]; exact hs.ok
    | payload => rw [advance_of_payload s h]; exact advancePayload_ok h (hs.payload h)
    | response => rw [advance_of_response s h]; exact advanceResponse_ok h (hs.response h)
    | digest => rw [advance_of_digest s h]; exact advanceDigest_ok h (hs.digest h)

theorem resume_inv {s : State} (hs : s.Inv) : (resume s).Inv := advance_inv (decodeHeld_inv hs)

/-- Settles O47: the parts of a step keep the invariant. -/
theorem stepKeepsInvariant : Obligations.StepKeepsInvariant := by
  intro s t hs ht
  rcases step_cases s with ⟨hr, h⟩ | ⟨_, _, h⟩ | ⟨_, _, _, _, h⟩ | ⟨c, rest, _, hf, _, _, h⟩ | ⟨_, _, _, h⟩
  · cases h.symm.trans ht
    exact hwReset_inv hr
  · cases h.symm.trans ht
    exact hs
  · cases h.symm.trans ht
    exact hs
  · cases (h.trans (executeWord_eq c _)).symm.trans ht
    exact advance_inv (decodeWord_inv (acceptCommand_inv hs rest) hf c)
  · cases h.symm.trans ht
    exact resume_inv hs

/-- An edge of the word assembler takes one byte at most, and leaves the payload phase in order. -/
theorem takeByte_ok (k : Pace) {s : State} (ho : s.hid.PayloadOk) : (takeByte k s).2.hid.PayloadOk := by
  have taken (b : Byte) (held rest : List Byte) (hready : dinReady k s = true)
      (hfeed : feedByte (s.acc, s.hid.held) b = (s.acc, held) ∨
        ∃ w, feedByte (s.acc, s.hid.held) b = (fold s.acc w, held)) :
      (holdBytes held rest s).hid.PayloadOk := by
    have hne := ((dinReady_iff k s).mp hready).2.2.2.1
    have hmod : held.length = (s.hid.held.length + 1) % 4 := by
      rw [← feedByte_held_mod (s.acc, s.hid.held) b ho.held]
      rcases hfeed with h | ⟨w, h⟩ <;> rw [h]
    have hone : BitVec.ofNat 28 (s.hid.remaining.toNat - 1) = s.hid.remaining - 1#28 := by
      apply BitVec.eq_of_toNat_eq
      rw [sub_one_toNat _ hne, BitVec.toNat_ofNat, Nat.mod_eq_of_lt (by omega)]
    have hpos : 1 ≤ s.hid.remaining.toNat :=
      Nat.one_le_iff_ne_zero.mpr fun h => hne (BitVec.eq_of_toNat_eq h)
    have h := ho.taken 1 hpos held hmod s.hid.va s.hid.vb s.hid.vc
    rwa [hone] at h
  rcases takeByte_cases k s with ⟨h, _⟩ | ⟨b, rest, _, hready, ⟨w, h, _, hfeed⟩ | ⟨h, hfeed⟩⟩ <;> rw [h]
  · exact ho
  · exact taken b [] rest hready (.inr ⟨w, hfeed s.acc⟩)
  · exact taken b _ rest hready (.inl (hfeed s.acc))

/-- A payload edge before it looks whether the phase is over: the byte it takes, and an edge of the adder stage. -/
def takeAndAdd (p : Bool) (k : Pace) (s : State) : State :=
  (takeByte k s).2.setAdders (addersEdge p k (takeByte k s).1 (takeByte k s).2.adders)

theorem payloadEdge_eq (p : Bool) (k : Pace) (s : State) :
    payloadEdge p k s =
      if (takeAndAdd p k s).hid.remaining = 0#28 ∧ (takeAndAdd p k s).adders.settled = true then
        payloadDone (takeAndAdd p k s)
      else takeAndAdd p k s := rfl

theorem takeAndAdd_control (p : Bool) (k : Pace) (s : State) : SameControl s (takeAndAdd p k s) := by
  obtain ⟨h, -⟩ := takeByte_control k s
  exact ⟨h.fault, h.cause, h.finfo, h.ci, h.faultSeen, h.rst, h.resetTaken, h.doutReady, h.rspReady, h.cmd⟩

theorem takeAndAdd_adders (p : Bool) (k : Pace) (s : State) :
    (takeAndAdd p k s).adders = addersEdge p k (takeByte k s).1 s.adders := by
  obtain ⟨-, h, -⟩ := takeByte_control k s
  rw [takeAndAdd, h]
  rfl

theorem takeAndAdd_phase (p : Bool) (k : Pace) (s : State) : (takeAndAdd p k s).hid.phase = s.hid.phase := by
  obtain ⟨-, -, h, -⟩ := takeByte_control k s
  exact h

theorem takeAndAdd_ok (p : Bool) (k : Pace) {s : State} (ho : s.hid.PayloadOk) : (takeAndAdd p k s).hid.PayloadOk := by
  have h := takeByte_ok k ho
  exact ⟨h.word, h.held, h.whole, h.sumIdx, h.sumwIdx, h.offered⟩

/-- What an edge in the payload phase does: the phase goes on, or it is over and nothing is missing or owed. -/
theorem payloadEdge_cases (p : Bool) (k : Pace) (s : State) :
    payloadEdge p k s = takeAndAdd p k s ∨
    ((takeAndAdd p k s).hid.remaining = 0#28 ∧ (takeAndAdd p k s).adders.settled = true ∧
      payloadEdge p k s = payloadDone (takeAndAdd p k s)) := by
  rw [payloadEdge_eq]
  split
  next h => exact .inr ⟨h.1, h.2, rfl⟩
  next => exact .inl rfl

theorem payloadEdge_control (p : Bool) (k : Pace) (s : State) : SameControl s (payloadEdge p k s) := by
  have h := takeAndAdd_control p k s
  rcases payloadEdge_cases p k s with e | ⟨_, _, e⟩ <;> rw [e]
  · exact h
  · exact ⟨h.fault, h.cause, h.finfo, h.ci, h.faultSeen, h.rst, h.resetTaken, h.doutReady, h.rspReady, h.cmd⟩

theorem payloadEdge_ok (p : Bool) (k : Pace) {s : State} (hp : s.hid.phase = .payload) (ho : s.hid.PayloadOk) :
    (payloadEdge p k s).hid.Ok := by
  have hok := takeAndAdd_ok p k ho
  rcases payloadEdge_cases p k s with e | ⟨hr, hv, e⟩ <;> rw [e]
  · exact .of_payload ((takeAndAdd_phase p k s).trans hp) hok
  · exact .of_response rfl (hok.done hr ((settled_iff _).mp hv))

theorem sendRsp_control (s : State) : SameControl s (sendRsp s) := by
  rcases sendRsp_cases s with ⟨_, e⟩ | ⟨v, _, e⟩ | ⟨v, w, l, _, e⟩ <;> rw [e] <;> constructor <;> rfl

theorem sendDout_control (s : State) : SameControl s (sendDout s) := by
  rcases sendDout_cases s with ⟨_, e⟩ | ⟨b, _, e⟩ | ⟨b, c, l, _, e⟩ <;> rw [e] <;> constructor <;> rfl

theorem responseEdge_control (k : Pace) (s : State) : SameControl s (responseEdge k s) := by
  rcases responseEdge_cases k s with ⟨_, e⟩ | ⟨_, _, e⟩ | ⟨_, _, e⟩ <;> rw [e]
  · constructor <;> rfl
  · constructor <;> rfl
  · exact sendRsp_control s

theorem digestEdge_control (k : Pace) (s : State) : SameControl s (digestEdge k s) := by
  rcases digestEdge_cases k s with ⟨_, e⟩ | ⟨_, _, e⟩ | ⟨_, _, e⟩ <;> rw [e]
  · constructor <;> rfl
  · constructor <;> rfl
  · exact sendDout_control s

theorem State.answer_of_word {s : State} {c : Word32} (h : s.hid.cmdWord = some c) :
    s.answer = responseBeats s.acc c := by
  simp [State.answer, h]

theorem responseBeats_of_aligned (x : Acc) (c : Word32) (h : alignedWriteWord c = true) :
    responseBeats x c = [lenBeat (lenField c)] := by
  obtain ⟨hop, _⟩ : opField c = 0x2#4 ∧ misaligned (lenField c) = false := by simpa [alignedWriteWord] using h
  simp [responseBeats, decode_of_write c hop]

/-- A command that answers on RSP answers with one beat, and `SUMW` with four (R62). -/
theorem Hidden.ResponseOk.answer_length {s : State} (ho : s.hid.ResponseOk) :
    (s.hid.cmdWord = some (encode .sumw) ∧ s.answer.length = 4) ∨
    (s.hid.cmdWord ≠ some (encode .sumw) ∧ s.hid.sumwIdx = 0#2 ∧ s.answer.length = 1) := by
  by_cases hsumw : s.hid.cmdWord = some (encode .sumw)
  · exact .inl ⟨hsumw, by rw [State.answer_of_word hsumw, responseBeats_sumw]; rfl⟩
  · refine .inr ⟨hsumw, ho.idx hsumw, ?_⟩
    rcases ho.word with ⟨c, hc, haligned⟩ | hc | hc | hc
    · rw [State.answer_of_word hc, responseBeats_of_aligned _ c haligned, List.length_singleton]
    · exact absurd hc hsumw
    · rw [State.answer_of_word hc, responseBeats_size, List.length_singleton]
    · rw [State.answer_of_word hc, responseBeats_blksz, List.length_singleton]

theorem owedRsp_length (s : State) : s.owedRsp.length = s.answer.length - s.hid.sumwIdx.toNat := List.length_drop

theorem owedDout_length (s : State) : s.owedDout.length = 32 - s.hid.sumIdx.toNat := by
  rw [State.owedDout, List.length_drop, digest_length]

/-- In the response phase a beat is always owed (R53). -/
theorem Hidden.ResponseOk.owedRsp_ne_nil {s : State} (ho : s.hid.ResponseOk) : s.owedRsp ≠ [] := by
  have hlt := s.hid.sumwIdx.isLt
  rw [← List.length_pos_iff, owedRsp_length]
  rcases ho.answer_length with ⟨_, hlen⟩ | ⟨_, hidx, hlen⟩
  · omega
  · simp [hidx, hlen]

/-- In the digest phase a byte is always owed (R53). -/
theorem owedDout_ne_nil (s : State) : s.owedDout ≠ [] := by
  have hlt := s.hid.sumIdx.isLt
  rw [← List.length_pos_iff, owedDout_length]
  omega

/-- Where more than one beat is owed the command is `SUMW`. -/
theorem Hidden.ResponseOk.word_of_owed {s : State} (ho : s.hid.ResponseOk) {v w : Word64} {l : List Word64}
    (h : s.owedRsp = v :: w :: l) : s.hid.cmdWord = some (encode .sumw) := by
  rcases ho.answer_length with ⟨hc, _⟩ | ⟨_, _, hlen⟩
  · exact hc
  · have := owedRsp_length s
    rw [h, hlen, List.length_cons, List.length_cons] at this
    omega

theorem sendRsp_ok {s : State} (hp : s.hid.phase = .response) (ho : s.hid.ResponseOk) : (sendRsp s).hid.Ok := by
  rcases sendRsp_cases s with ⟨_, e⟩ | ⟨v, _, e⟩ | ⟨v, w, l, howed, e⟩ <;> rw [e]
  · exact Hidden.idle_ok
  · exact Hidden.idle_ok
  · have hi := ho.idle
    exact .of_response hp
      ⟨ho.word, fun h => absurd (ho.word_of_owed howed) h, ho.sumIdx, ⟨hi.held, hi.remaining, hi.va, hi.vb, hi.vc⟩⟩

theorem sendDout_ok {s : State} (hp : s.hid.phase = .digest) (ho : s.hid.DigestOk) : (sendDout s).hid.Ok := by
  rcases sendDout_cases s with ⟨_, e⟩ | ⟨b, _, e⟩ | ⟨b, c, l, _, e⟩ <;> rw [e]
  · exact Hidden.idle_ok
  · exact Hidden.idle_ok
  · have hi := ho.idle
    exact .of_digest hp ⟨ho.word, ho.sumwIdx, ⟨hi.held, hi.remaining, hi.va, hi.vb, hi.vc⟩⟩

theorem responseEdge_ok (k : Pace) {s : State} (hp : s.hid.phase = .response) (ho : s.hid.ResponseOk) :
    (responseEdge k s).hid.Ok := by
  rcases responseEdge_cases k s with ⟨_, e⟩ | ⟨_, _, e⟩ | ⟨_, _, e⟩ <;> rw [e]
  · exact .of_response hp ho
  · exact offerBeat_ok (.inl ⟨hp, ho⟩)
  · exact sendRsp_ok hp ho

theorem digestEdge_ok (k : Pace) {s : State} (hp : s.hid.phase = .digest) (ho : s.hid.DigestOk) :
    (digestEdge k s).hid.Ok := by
  rcases digestEdge_cases k s with ⟨_, e⟩ | ⟨_, _, e⟩ | ⟨_, _, e⟩ <;> rw [e]
  · exact .of_digest hp ho
  · exact offerBeat_ok (.inr ⟨hp, ho⟩)
  · exact sendDout_ok hp ho

theorem acceptEdge_inv {s : State} (hs : s.Inv) (hf : s.fault = false) (k : Pace) (c : Word32) (rest : List Word32) :
    (acceptEdge k c rest s).Inv := by
  rw [acceptEdge_eq]
  split
  · exact decodeWord_inv (acceptCommand_inv hs rest) hf c
  · exact startCommand_inv (acceptCommand_inv hs rest) hf _ c (.of_decode rfl ⟨c, rfl⟩)

theorem decodeEdge_inv {s : State} (hs : s.Inv) (k : Pace) : (decodeEdge k s).Inv := by
  unfold decodeEdge
  split
  · exact decodeHeld_inv hs
  · exact hs

theorem edge_inv {s : State} (hs : s.Inv) (p : Bool) (k : Pace) : (edge p k s).Inv := by
  rcases edge_cases p k s with ⟨hr, e⟩ | ⟨_, _, e⟩ | ⟨_, _, _, _, e⟩ | ⟨c, rest, _, hf, _, _, _, e⟩ | ⟨_, _, _, e⟩ |
    ⟨_, hf, hp, e⟩ | ⟨_, hf, hp, e⟩ | ⟨_, hf, hp, e⟩ <;> rw [e]
  · exact hwReset_inv hr
  · exact hs
  · exact hs
  · exact acceptEdge_inv hs hf k c rest
  · exact decodeEdge_inv hs k
  · exact hs.of_sameControl hf (payloadEdge_control p k s) (payloadEdge_ok p k hp (hs.payload hp))
  · exact hs.of_sameControl hf (responseEdge_control k s) (responseEdge_ok k hp (hs.response hp))
  · exact hs.of_sameControl hf (digestEdge_control k s) (digestEdge_ok k hp (hs.digest hp))

/-- Outside the payload phase no addition is owed (R39, R132). -/
theorem State.Inv.settled {s : State} (hs : s.Inv) (hp : s.hid.phase ≠ .payload) : s.adders.settled = true := by
  have of_idle (h : s.hid.WriteIdle) : s.adders.settled = true := (settled_iff _).mpr ⟨h.va, h.vb, h.vc⟩
  cases h : s.hid.phase with
  | idle => simp [State.adders, AdderStage.settled, hs.idle h, Hidden.idle]
  | decode =>
    obtain ⟨c, hc⟩ := hs.decode h
    simp [State.adders, AdderStage.settled, hc, Hidden.idle]
  | payload => exact absurd h hp
  | response => exact of_idle (hs.response h).idle
  | digest => exact of_idle (hs.digest h).idle

/-- The parallel stage makes its additions at once (R131). -/
theorem addersEdge_parallel_settled (k : Pace) (w : Option Word32) (q : AdderStage) (h : q.settled = true) :
    (addersEdge false k w q).settled = true := by
  cases w with
  | none => exact h
  | some w => exact h

theorem payloadEdge_fits (p : Bool) (k : Pace) (s : State) (h : s.Fits p) : (payloadEdge p k s).Fits p := by
  rintro rfl
  have hsettled : (takeAndAdd false k s).adders.settled = true := by
    rw [takeAndAdd_adders]
    exact addersEdge_parallel_settled k _ _ (h rfl)
  rcases payloadEdge_cases false k s with e | ⟨_, _, e⟩ <;> rw [e] <;> exact hsettled

/-- What a decode can do (R86): raise a fault, clear the accumulators, or enter a phase with no addition owed; the
channels and the pins are left as they are. -/
theorem decodeWord_cases (c : Word32) (s : State) :
    (∃ cause w, decodeWord c s = raiseFault cause w s) ∨ decodeWord c s = beginReset s ∨
    (∃ h : Hidden, (h.va = false ∧ h.vb = false ∧ h.vc = false) ∧ decodeWord c s = { s with hid := h }) := by
  have start (p : Phase) (w : Word32) : ∃ h : Hidden, (h.va = false ∧ h.vb = false ∧ h.vc = false) ∧
      startCommand p w s = { s with hid := h } := ⟨_, ⟨rfl, rfl, rfl⟩, rfl⟩
  unfold decodeWord
  split
  · exact .inl ⟨_, _, rfl⟩
  next i _ =>
    cases i with
    | reset => exact .inr (.inl rfl)
    | write len =>
      simp only [beginInstr, beginWrite]
      split
      · exact .inl ⟨_, _, rfl⟩
      · split
        · exact .inr (.inr (start _ _))
        · exact .inr (.inr ⟨_, ⟨rfl, rfl, rfl⟩, rfl⟩)
    | sum => exact .inr (.inr (start _ _))
    | sumw => exact .inr (.inr (start _ _))
    | size => exact .inr (.inr (start _ _))
    | blksz => exact .inr (.inr (start _ _))

/-- A command begins with no addition owed (R39). -/
theorem decodeWord_settled (c : Word32) (s : State) : (decodeWord c s).adders.settled = true := by
  rcases decodeWord_cases c s with ⟨_, _, e⟩ | e | ⟨h, hv, e⟩ <;> rw [e]
  · rfl
  · rfl
  · exact (settled_iff _).mpr hv

theorem decodeHeld_settled {s : State} (h : s.adders.settled = true) : (decodeHeld s).adders.settled = true := by
  unfold decodeHeld
  split
  · exact decodeWord_settled _ s
  · exact h

theorem acceptEdge_settled (k : Pace) (c : Word32) (rest : List Word32) (s : State) :
    (acceptEdge k c rest s).adders.settled = true := by
  rw [acceptEdge_eq]
  split
  · exact decodeWord_settled c _
  · rfl

theorem decodeEdge_settled (k : Pace) {s : State} (h : s.adders.settled = true) :
    (decodeEdge k s).adders.settled = true := by
  unfold decodeEdge
  split
  · exact decodeHeld_settled h
  · exact h

/-- A response phase only ends, or goes on with the adder stage as it was; a digest phase likewise. -/
theorem responseEdge_settled (k : Pace) {s : State} (h : s.adders.settled = true) :
    (responseEdge k s).adders.settled = true := by
  rcases responseEdge_cases k s with ⟨_, e⟩ | ⟨_, _, e⟩ | ⟨_, _, e⟩ <;> rw [e]
  · exact h
  · exact h
  · rcases sendRsp_cases s with ⟨_, e⟩ | ⟨v, _, e⟩ | ⟨v, w, l, _, e⟩ <;> rw [e]
    · rfl
    · rfl
    · exact h

theorem digestEdge_settled (k : Pace) {s : State} (h : s.adders.settled = true) :
    (digestEdge k s).adders.settled = true := by
  rcases digestEdge_cases k s with ⟨_, e⟩ | ⟨_, _, e⟩ | ⟨_, _, e⟩ <;> rw [e]
  · exact h
  · exact h
  · rcases sendDout_cases s with ⟨_, e⟩ | ⟨b, _, e⟩ | ⟨b, c, l, _, e⟩ <;> rw [e]
    · rfl
    · rfl
    · exact h

/-- The parallel stage owes nothing after an edge either: only the payload phase gives the adder stage a word. -/
theorem edge_fits {s : State} (p : Bool) (k : Pace) (h : s.Fits p) : (edge p k s).Fits p := by
  intro hp
  have hs := h hp
  rcases edge_cases p k s with ⟨_, e⟩ | ⟨_, _, e⟩ | ⟨_, _, _, _, e⟩ | ⟨c, rest, _, _, _, _, _, e⟩ | ⟨_, _, _, e⟩ |
    ⟨_, _, _, e⟩ | ⟨_, _, _, e⟩ | ⟨_, _, _, e⟩ <;> rw [e]
  · rfl
  · exact hs
  · exact hs
  · exact acceptEdge_settled k c rest s
  · exact decodeEdge_settled k hs
  · exact payloadEdge_fits p k s h hp
  · exact responseEdge_settled k hs
  · exact digestEdge_settled k hs

/-- Settles O48: the parts of an edge keep the invariant, and the parallel stage adds at the edge that gives it a
word. -/
theorem edgeKeepsInvariant : Obligations.EdgeKeepsInvariant :=
  fun _ p k hs => ⟨edge_inv hs p k, edge_fits p k⟩

/-- Settles O46: at reset every register is as hardware reset leaves it, and `rst` is 0. -/
theorem invariantHoldsAtReset : Obligations.InvariantHoldsAtReset :=
  ⟨{ clear := fun _ => ⟨rfl, rfl⟩, latched := nofun, seen := nofun, taken := nofun, halted := nofun
     idle := fun _ => rfl, decode := nofun, payload := nofun, response := nofun, digest := nofun }, fun _ _ => rfl⟩

theorem hostMove_inv {s t : State} (hs : s.Inv) (m : HostMove) (h : hostMove m s = some t) : t.Inv := by
  obtain ⟨_, hfault, hcause, hfinfo, _, hhid, hseen⟩ := hostMove_block m s t h
  exact hs.of_sameLatch ⟨hfault, hcause, hfinfo, hseen⟩ (hostMove_taken m s t hs.taken h)
    (by rw [hhid]; exact hs.halted) (by rw [hhid]; exact hs.ok)

theorem hostMove_adders {s t : State} {m : HostMove} (h : hostMove m s = some t) : t.adders = s.adders := by
  obtain ⟨hacc, _, _, _, _, hhid, _⟩ := hostMove_block m s t h
  rw [State.adders, hacc, hhid]
  rfl

/-- What one event is: a move of the host, a step or an edge. -/
theorem event_cases {p : Bool} {e : Event} {s t : State} (h : event p e s = some t) :
    (∃ m, e = .host m ∧ hostMove m s = some t) ∨ (e = .block ∧ step s = .next t) ∨
    (∃ k, e = .clock k ∧ edge p k s = t) := by
  cases e with
  | host m => exact .inl ⟨m, rfl, h⟩
  | block =>
    simp only [event] at h
    split at h
    next u hu => exact .inr (.inl ⟨rfl, by rw [hu, Option.some.inj h]⟩)
    all_goals cases h
  | clock k => exact .inr (.inr ⟨k, rfl, Option.some.inj h⟩)

/-- What every event keeps holds after any list of events. -/
theorem events_induction {P : State → Prop} (p : Bool) (hevent : ∀ e s t, P s → event p e s = some t → P t)
    (es : List Event) (s t : State) (hs : P s) (h : events p es s = some t) : P t := by
  induction es generalizing s with
  | nil =>
    cases h
    exact hs
  | cons e es ih =>
    simp only [events] at h
    split at h
    next u hu => exact ih u (hevent e s u hs hu) h
    next => cases h

theorem advanceResponse_settled {s : State} (h : s.adders.settled = true) :
    (advanceResponse s).adders.settled = true := by
  unfold advanceResponse
  split
  · rfl
  · exact h

theorem advanceDigest_settled {s : State} (h : s.adders.settled = true) : (advanceDigest s).adders.settled = true := by
  unfold advanceDigest
  split
  · rfl
  · exact h

/-- In the payload phase the transaction level makes every addition that is owed. -/
theorem advancePayload_settled (s : State) : (advancePayload s).adders.settled = true := by
  have h : (consumePayload (settleAdders s)).adders.settled = true := drain_settled s.adders
  simp only [advancePayload]
  split
  · exact advanceResponse_settled h
  · exact h

theorem advance_settled {s : State} (h : s.adders.settled = true) : (advance s).adders.settled = true := by
  unfold advance
  split
  · exact h
  · exact h
  · exact advancePayload_settled s
  · exact advanceResponse_settled h
  · exact advanceDigest_settled h

theorem step_settled {s t : State} (h : s.adders.settled = true) (ht : step s = .next t) : t.adders.settled = true := by
  rcases step_cases s with ⟨_, e⟩ | ⟨_, _, e⟩ | ⟨_, _, _, _, e⟩ | ⟨c, rest, _, _, _, _, e⟩ | ⟨_, _, _, e⟩
  · cases e.symm.trans ht
    rfl
  · cases e.symm.trans ht
    exact h
  · cases e.symm.trans ht
    exact h
  · cases (e.trans (executeWord_eq c _)).symm.trans ht
    exact advance_settled (decodeWord_settled c _)
  · cases e.symm.trans ht
    exact advance_settled (decodeHeld_settled h)

theorem event_inv {p : Bool} {e : Event} {s t : State} (hs : s.Inv) (h : event p e s = some t) : t.Inv := by
  rcases event_cases h with ⟨m, _, hm⟩ | ⟨_, hstep⟩ | ⟨k, _, rfl⟩
  · exact hostMove_inv hs m hm
  · exact stepKeepsInvariant s t hs hstep
  · exact edge_inv hs p k

theorem event_fits {p : Bool} {e : Event} {s t : State} (hs : s.Fits p) (h : event p e s = some t) : t.Fits p := by
  rcases event_cases h with ⟨m, _, hm⟩ | ⟨_, hstep⟩ | ⟨k, _, rfl⟩
  · rwa [State.Fits, hostMove_adders hm]
  · exact fun hp => step_settled (hs hp) hstep
  · exact edge_fits p k hs

/-- Settles O49: each of the three kinds of event keeps both. -/
theorem eventsKeepInvariant : Obligations.EventsKeepInvariant := fun p es s t hs h =>
  ⟨events_induction p (fun _ _ _ hs h => event_inv hs h) es s t hs h,
    fun hf => events_induction (P := State.Fits p) p (fun _ _ _ hs h => event_fits hs h) es s t hf h⟩

/-- Nothing of a command but a fault touches the record of faults (R195). -/
theorem decodeWord_faultSeen (c : Word32) (s : State) (h : s.faultSeen = true) : (decodeWord c s).faultSeen = true := by
  rcases decodeWord_cases c s with ⟨_, _, e⟩ | e | ⟨_, _, e⟩ <;> rw [e]
  · rfl
  · exact h
  · exact h

theorem decodeHeld_faultSeen {s : State} (h : s.faultSeen = true) : (decodeHeld s).faultSeen = true := by
  unfold decodeHeld
  split
  · exact decodeWord_faultSeen _ s h
  · exact h

theorem advance_faultSeen {s : State} (h : s.faultSeen = true) : (advance s).faultSeen = true :=
  (advance_control s).faultSeen.trans h

theorem step_faultSeen {s t : State} (h : s.faultSeen = true) (ht : step s = .next t) : t.faultSeen = true := by
  rcases step_cases s with ⟨_, e⟩ | ⟨_, _, e⟩ | ⟨_, _, _, _, e⟩ | ⟨c, rest, _, _, _, _, e⟩ | ⟨_, _, _, e⟩
  · cases e.symm.trans ht
    exact h
  · cases e.symm.trans ht
    exact h
  · cases e.symm.trans ht
    exact h
  · cases (e.trans (executeWord_eq c _)).symm.trans ht
    exact advance_faultSeen (decodeWord_faultSeen c _ h)
  · cases e.symm.trans ht
    exact advance_faultSeen (decodeHeld_faultSeen h)

theorem edge_faultSeen {s : State} (p : Bool) (k : Pace) (h : s.faultSeen = true) : (edge p k s).faultSeen = true := by
  rcases edge_cases p k s with ⟨_, e⟩ | ⟨_, _, e⟩ | ⟨_, _, _, _, e⟩ | ⟨c, rest, _, _, _, _, _, e⟩ | ⟨_, _, _, e⟩ |
    ⟨_, _, _, e⟩ | ⟨_, _, _, e⟩ | ⟨_, _, _, e⟩ <;> rw [e]
  · exact h
  · exact h
  · exact h
  · rw [acceptEdge_eq]
    split
    · exact decodeWord_faultSeen c _ h
    · exact h
  · unfold decodeEdge
    split
    · exact decodeHeld_faultSeen h
    · exact h
  · exact (payloadEdge_control p k s).faultSeen.trans h
  · exact (responseEdge_control k s).faultSeen.trans h
  · exact (digestEdge_control k s).faultSeen.trans h

/-- Settles O50: a fault is on record from the event that raises it, and no event erases the record. -/
theorem faultStaysOnRecord : Obligations.FaultStaysOnRecord := by
  intro p es s t hs hf h
  have hseen : s.faultSeen = true := hf.elim hs.seen id
  have ht : t.faultSeen = true := by
    refine events_induction (P := fun u => u.faultSeen = true) p (fun e u v hu hv => ?_) es s t hseen h
    rcases event_cases hv with ⟨m, _, hm⟩ | ⟨_, hstep⟩ | ⟨k, _, rfl⟩
    · obtain ⟨_, _, _, _, _, _, hkept⟩ := hostMove_block m u v hm
      exact hkept.trans hu
    · exact step_faultSeen hu hstep
    · exact edge_faultSeen p k hu
  exact ⟨ht, fun ⟨_, _, _, hclear⟩ => by simp [ht] at hclear⟩

/-- The cause registers by the latch (R28): 1 and 2 are the only causes, and 0 is no fault. -/
theorem State.Inv.cause_iff {s : State} (hs : s.Inv) : (s.cause ≠ 0#2 ↔ s.fault = true) ∧ s.cause ≠ 3#2 := by
  cases hf : s.fault with
  | false => simp [(hs.clear hf).1]
  | true => rcases hs.latched hf with ⟨hc, _⟩ | ⟨hc, _⟩ <;> simp [hc]

/-- The word latched with each cause, for a state of the invariant (R180, R182). -/
theorem State.Inv.latched_word {s : State} (hs : s.Inv) :
    (s.cause = 1#2 → opField s.finfo = 0x2#4 ∧ lenField s.finfo % 4 ≠ 0) ∧
    (s.cause = 2#2 → ∀ i, encode i = s.finfo → ¬i.WellFormed) := by
  refine ⟨fun hc => ?_, fun hc i hi hwf => ?_⟩
  · rcases hs.latched (hs.cause_iff.1.mp (by simp [hc])) with ⟨_, hword⟩ | ⟨hc', _⟩
    · simpa [misalignedWriteWord, misaligned_iff] using hword
    · simp [hc] at hc'
  · rcases hs.latched (hs.cause_iff.1.mp (by simp [hc])) with ⟨hc', _⟩ | ⟨_, hword⟩
    · simp [hc] at hc'
    · rw [← hi, illegalWord_of_ok _ i (decode_encode i hwf)] at hword
      cases hword

/-- Settles O51: the invariant says all of it, and every run from reset keeps the invariant. -/
theorem latchedWordExplainsCause : Obligations.LatchedWordExplainsCause := by
  refine ⟨fun s hs => ⟨hs.cause_iff.1, hs.cause_iff.2, fun hf => (hs.clear hf).2⟩, fun p es t h => ?_⟩
  have ht : t.Inv := (eventsKeepInvariant p es State.reset t invariantHoldsAtReset.1 h).1
  exact ⟨ht.latched_word.1, ht.latched_word.2, ht.halted⟩

end Sys2Proof.Machine

/-! PROOF. Edges and steps: no edge changes where a command ends (spec/00_scope.md R8; spec/41_write.md R132). -/

namespace Sys2Proof.Machine

/-- A byte that is wanted and presented is one `feedByte` before the rest of what the payload phase consumes (R122). -/
theorem consumePayload_cons {s : State} {b : Byte} {rest held : List Byte} {x : Acc} (hd : s.din = b :: rest)
    (hr : s.hid.remaining ≠ 0#28) (hfeed : feedByte (s.acc, s.hid.held) b = (x, held)) :
    consumePayload s = consumePayload { holdBytes held rest s with acc := x } := by
  have hpos : s.hid.remaining.toNat ≠ 0 := fun h => hr (BitVec.eq_of_toNat_eq h)
  have hrem : (s.hid.remaining - 1#28).toNat = s.hid.remaining.toNat - 1 := sub_one_toNat _ hr
  have hnow : s.payloadNow = State.payloadNow { holdBytes held rest s with acc := x } + 1 := by
    simp only [State.payloadNow, holdBytes, hrem, hd, List.length_cons]
    omega
  have hleft (n : Nat) : s.hid.remaining.toNat - (n + 1) = (s.hid.remaining - 1#28).toNat - n := by omega
  simp only [consumePayload, hnow, hd, List.take_succ_cons, List.drop_succ_cons, feedBytes_cons, hfeed, hleft]
  rfl

/-- What the assembler takes at an edge, and what the adder stage still owes of it, the transaction level takes and adds
too (R132). -/
theorem consumePayload_takeAndAdd (p : Bool) (k : Pace) {s : State} (hfits : s.Fits p) :
    consumePayload (settleAdders (takeAndAdd p k s)) = consumePayload (settleAdders s) := by
  rcases takeByte_cases k s with ⟨h, _⟩ | ⟨b, rest, hd, hready, ⟨w, h, htakes, hfeed⟩ | ⟨h, hfeed⟩⟩
  · have e : settleAdders (takeAndAdd p k s) = s.setAdders (drain (addersEdge p k none s.adders)) := by
      rw [takeAndAdd, h]
      rfl
    rw [e, drain_addersEdge_none]
    rfl
  · have e : settleAdders (takeAndAdd p k s) =
        (holdBytes [] rest s).setAdders (drain (addersEdge p k (some w) s.adders)) := by
      rw [takeAndAdd, h]
      rfl
    obtain ⟨_, _, _, hr, _⟩ := (dinReady_iff k s).mp hready
    rw [e, drain_addersEdge_some p k w _ hfits htakes]
    exact (consumePayload_cons (s := settleAdders s) hd hr (hfeed _)).symm
  · have e : settleAdders (takeAndAdd p k s) =
        (holdBytes (s.hid.held ++ [b]) rest s).setAdders (drain (addersEdge p k none s.adders)) := by
      rw [takeAndAdd, h]
      rfl
    obtain ⟨_, _, _, hr, _⟩ := (dinReady_iff k s).mp hready
    rw [e, drain_addersEdge_none]
    exact (consumePayload_cons (s := settleAdders s) hd hr (hfeed _)).symm

/-- With no byte missing and no addition owed, the payload phase is over. -/
theorem advancePayload_of_done {s : State} (hr : s.hid.remaining = 0#28) (hv : s.adders.settled = true) :
    advancePayload s = advanceResponse (payloadDone s) := by
  simp only [advancePayload, settleAdders_of_settled s hv, consumePayload_of_remaining_zero s hr, if_pos hr]

theorem payloadEdge_phase (p : Bool) (k : Pace) {s : State} (hp : s.hid.phase = .payload) :
    (payloadEdge p k s).hid.phase = .payload ∨ (payloadEdge p k s).hid.phase = .response := by
  rcases payloadEdge_cases p k s with e | ⟨_, _, e⟩ <;> rw [e]
  · exact .inl ((takeAndAdd_phase p k s).trans hp)
  · exact .inr rfl

theorem advance_payloadEdge (p : Bool) (k : Pace) {s : State} (hfits : s.Fits p) (hp : s.hid.phase = .payload) :
    advance (payloadEdge p k s) = advance s := by
  have htaken : advancePayload (takeAndAdd p k s) = advancePayload s := by
    simp only [advancePayload, consumePayload_takeAndAdd p k hfits]
  rw [advance_of_payload s hp, ← htaken]
  rcases payloadEdge_cases p k s with e | ⟨hr, hv, e⟩ <;> rw [e]
  · exact advance_of_payload _ ((takeAndAdd_phase p k s).trans hp)
  · rw [advance_of_response _ rfl, advancePayload_of_done hr hv]

theorem responseBeats_length_le (x : Acc) (c : Word32) : (responseBeats x c).length ≤ 4 := by
  unfold responseBeats
  split <;> simp

theorem answer_length_le (s : State) : s.answer.length ≤ 4 := by
  unfold State.answer
  split
  · exact responseBeats_length_le _ _
  · exact Nat.zero_le 4

/-- The serializer's index counts a beat without wrapping while another is owed (R35). -/
theorem sumwIdx_of_owed {s : State} {v w : Word64} {l : List Word64} (h : s.owedRsp = v :: w :: l) :
    (s.hid.sumwIdx + 1#2).toNat = s.hid.sumwIdx.toNat + 1 := by
  have hle := answer_length_le s
  have hlen := owedRsp_length s
  rw [h, List.length_cons, List.length_cons] at hlen
  rw [BitVec.toNat_add]
  exact Nat.mod_eq_of_lt (by simp; omega)

theorem sumIdx_of_owed {s : State} {b c : Byte} {l : List Byte} (h : s.owedDout = b :: c :: l) :
    (s.hid.sumIdx + 1#5).toNat = s.hid.sumIdx.toNat + 1 := by
  have hlen := owedDout_length s
  rw [h, List.length_cons, List.length_cons] at hlen
  rw [BitVec.toNat_add]
  exact Nat.mod_eq_of_lt (by simp; omega)

/-- Once a beat is sent the rest is owed. -/
theorem owedRsp_countRsp {s : State} {v w : Word64} {l : List Word64} (h : s.owedRsp = v :: w :: l) :
    (countRsp s).owedRsp = w :: l :=
  calc (countRsp s).owedRsp
    _ = s.answer.drop (s.hid.sumwIdx + 1#2).toNat := rfl
    _ = s.owedRsp.drop 1 := by rw [sumwIdx_of_owed h, State.owedRsp, List.drop_drop]
    _ = w :: l := by rw [h]; rfl

theorem owedDout_countDout {s : State} {b c : Byte} {l : List Byte} (h : s.owedDout = b :: c :: l) :
    (countDout s).owedDout = c :: l :=
  calc (countDout s).owedDout
    _ = (digest s.acc).drop (s.hid.sumIdx + 1#5).toNat := rfl
    _ = s.owedDout.drop 1 := by rw [sumIdx_of_owed h, State.owedDout, List.drop_drop]
    _ = c :: l := by rw [h]; rfl

/-- Beats go to a ready sink one after the other, or all at once: the end is the same. -/
theorem advance_sendRsp {s : State} (hp : s.hid.phase = .response) (hr : s.rspReady = true) :
    advance (sendRsp s) = advance s := by
  rw [advance_of_response s hp, advanceResponse_of_ready s hr]
  rcases sendRsp_cases s with ⟨howed, e⟩ | ⟨v, howed, e⟩ | ⟨v, w, l, howed, e⟩ <;> rw [e, howed]
  · simp [advance_of_idle, Hidden.idle, finishCommand, pushRsp]
  · exact advance_of_idle _ rfl
  · rw [advance_of_response (pushRsp [v] (countRsp s)) hp, advanceResponse_of_ready (pushRsp [v] (countRsp s)) hr]
    have h : (pushRsp [v] (countRsp s)).owedRsp = w :: l := owedRsp_countRsp howed
    rw [h]
    simp [finishCommand, pushRsp, countRsp]

theorem advance_sendDout {s : State} (hp : s.hid.phase = .digest) (hd : s.doutReady = true) :
    advance (sendDout s) = advance s := by
  rw [advance_of_digest s hp, advanceDigest_of_ready s hd]
  rcases sendDout_cases s with ⟨howed, e⟩ | ⟨v, howed, e⟩ | ⟨v, w, l, howed, e⟩ <;> rw [e, howed]
  · simp [advance_of_idle, Hidden.idle, finishCommand, pushDout]
  · exact advance_of_idle _ rfl
  · rw [advance_of_digest (pushDout [v] (countDout s)) hp, advanceDigest_of_ready (pushDout [v] (countDout s)) hd]
    have h : (pushDout [v] (countDout s)).owedDout = w :: l := owedDout_countDout howed
    rw [h]
    simp [finishCommand, pushDout, countDout]

/-- Offering the beat owed early changes no end: it is sent to a ready sink, and to another it is offered anyway. -/
theorem advanceResponse_offerBeat (s : State) : advanceResponse (offerBeat s) = advanceResponse s := by
  cases hr : s.rspReady with
  | true => rw [advanceResponse_of_ready s hr, advanceResponse_of_ready (offerBeat s) hr]; rfl
  | false => rw [advanceResponse_of_not_ready s hr, advanceResponse_of_not_ready (offerBeat s) hr]; rfl

theorem advanceDigest_offerBeat (s : State) : advanceDigest (offerBeat s) = advanceDigest s := by
  cases hd : s.doutReady with
  | true => rw [advanceDigest_of_ready s hd, advanceDigest_of_ready (offerBeat s) hd]; rfl
  | false => rw [advanceDigest_of_not_ready s hd, advanceDigest_of_not_ready (offerBeat s) hd]; rfl

theorem advance_responseEdge (k : Pace) {s : State} (hp : s.hid.phase = .response) :
    advance (responseEdge k s) = advance s := by
  rcases responseEdge_cases k s with ⟨_, e⟩ | ⟨_, _, e⟩ | ⟨_, hr, e⟩ <;> rw [e]
  · rw [advance_of_response s hp, advance_of_response (offerBeat s) hp, advanceResponse_offerBeat]
  · exact advance_sendRsp hp hr

theorem advance_digestEdge (k : Pace) {s : State} (hp : s.hid.phase = .digest) :
    advance (digestEdge k s) = advance s := by
  rcases digestEdge_cases k s with ⟨_, e⟩ | ⟨_, _, e⟩ | ⟨_, hd, e⟩ <;> rw [e]
  · rw [advance_of_digest s hp, advance_of_digest (offerBeat s) hp, advanceDigest_offerBeat]
  · exact advance_sendDout hp hd

theorem responseEdge_phase (k : Pace) {s : State} (hp : s.hid.phase = .response) :
    (responseEdge k s).hid.phase = .response ∨ (responseEdge k s).hid.phase = .idle := by
  rcases responseEdge_cases k s with ⟨_, e⟩ | ⟨_, _, e⟩ | ⟨_, _, e⟩ <;> rw [e]
  · exact .inl hp
  · exact .inl hp
  · rcases sendRsp_cases s with ⟨_, e⟩ | ⟨v, _, e⟩ | ⟨v, w, l, _, e⟩ <;> rw [e]
    · exact .inr rfl
    · exact .inr rfl
    · exact .inl hp

theorem digestEdge_phase (k : Pace) {s : State} (hp : s.hid.phase = .digest) :
    (digestEdge k s).hid.phase = .digest ∨ (digestEdge k s).hid.phase = .idle := by
  rcases digestEdge_cases k s with ⟨_, e⟩ | ⟨_, _, e⟩ | ⟨_, _, e⟩ <;> rw [e]
  · exact .inl hp
  · exact .inl hp
  · rcases sendDout_cases s with ⟨_, e⟩ | ⟨v, _, e⟩ | ⟨v, w, l, _, e⟩ <;> rw [e]
    · exact .inr rfl
    · exact .inr rfl
    · exact .inl hp

theorem edge_of_response (p : Bool) (k : Pace) (s : State) (hr : s.rst = false) (hf : s.fault = false)
    (hp : s.hid.phase = .response) : edge p k s = responseEdge k s := by
  simp [edge, hr, hf, hp]

theorem edge_of_digest (p : Bool) (k : Pace) (s : State) (hr : s.rst = false) (hf : s.fault = false)
    (hp : s.hid.phase = .digest) : edge p k s = digestEdge k s := by
  simp [edge, hr, hf, hp]

theorem edge_of_payload (p : Bool) (k : Pace) (s : State) (hr : s.rst = false) (hf : s.fault = false)
    (hp : s.hid.phase = .payload) : edge p k s = payloadEdge p k s := by
  simp [edge, hr, hf, hp]

/-- No edge inside a command changes where it ends (R8). -/
theorem resume_edge (p : Bool) (k : Pace) {s : State} (hfits : s.Fits p) (hr : s.rst = false) (hf : s.fault = false)
    (hp : s.hid.phase ≠ .idle) : resume (edge p k s) = resume s := by
  cases h : s.hid.phase with
  | idle => exact absurd h hp
  | decode => rw [edge_of_decode p k s hr hf h, resume_decodeEdge]
  | payload =>
    rw [edge_of_payload p k s hr hf h, resume_of_not_decode s (by simp [h]), ← advance_payloadEdge p k hfits h]
    exact resume_of_not_decode _ (by rcases payloadEdge_phase p k h with e | e <;> simp [e])
  | response =>
    rw [edge_of_response p k s hr hf h, resume_of_not_decode s (by simp [h]), ← advance_responseEdge k h]
    exact resume_of_not_decode _ (by rcases responseEdge_phase k h with e | e <;> simp [e])
  | digest =>
    rw [edge_of_digest p k s hr hf h, resume_of_not_decode s (by simp [h]), ← advance_digestEdge k h]
    exact resume_of_not_decode _ (by rcases digestEdge_phase k h with e | e <;> simp [e])

@[simp] theorem supplied_hid (s : State) (cs : List Word32) (bs : List Byte) : (s.supplied cs bs).hid = s.hid := rfl

/-- A decode reads neither the channels nor the ready pins. -/
theorem decodeWord_supplied (c : Word32) (s : State) (cs : List Word32) (bs : List Byte) :
    (decodeWord c s).supplied cs bs = decodeWord c (s.supplied cs bs) := by
  unfold decodeWord
  split
  · rfl
  next i _ =>
    cases i with
    | write len =>
      simp only [beginInstr, beginWrite]
      split
      · rfl
      · split <;> rfl
    | reset => rfl
    | sum => rfl
    | sumw => rfl
    | size => rfl
    | blksz => rfl

theorem decodeEdge_supplied {s : State} {c : Word32} (hp : s.hid.phase = .decode) (hc : s.hid.cmdWord = some c)
    (k : Pace) (cs : List Word32) (bs : List Byte) :
    (decodeEdge k s).supplied cs bs = decodeEdge k (s.supplied cs bs) := by
  rw [decodeEdge, decodeEdge, decodeHeld_of_word s c hp hc, decodeHeld_of_word (s.supplied cs bs) c hp hc,
    ← decodeWord_supplied]
  split <;> rfl

theorem acceptEdge_supplied (k : Pace) (c : Word32) (rest : List Word32) (s : State) (cs : List Word32)
    (bs : List Byte) :
    (acceptEdge k c rest s).supplied cs bs = acceptEdge k c (rest ++ cs) (s.supplied cs bs) := by
  rw [acceptEdge_eq, acceptEdge_eq]
  split
  · exact decodeWord_supplied c _ cs bs
  · rfl

/-- The pace of a block that, for want of a byte, does not raise `din_ready`. -/
def Pace.onlyWith (k : Pace) (din : List Byte) : Pace := if din = [] then { k with take := false } else k

theorem addersEdge_onlyWith (p : Bool) (k : Pace) (din : List Byte) :
    addersEdge p (k.onlyWith din) = addersEdge p k := by
  unfold Pace.onlyWith
  split <;> rfl

/-- A byte that is presented later is one the block does not take now. -/
theorem takeByte_supplied (k : Pace) (s : State) (cs : List Word32) (bs : List Byte) :
    takeByte (k.onlyWith s.din) (s.supplied cs bs) = ((takeByte k s).1, (takeByte k s).2.supplied cs bs) := by
  cases hd : s.din with
  | nil => simp [takeByte, dinReady, Pace.onlyWith, hd]
  | cons b rest =>
    have hready : dinReady k (s.supplied cs bs) = dinReady k s := rfl
    have hdin : (s.supplied cs bs).din = b :: (rest ++ bs) := by simp [State.supplied, hd]
    simp only [Pace.onlyWith, List.cons_ne_nil, if_false, takeByte, hready, hdin, hd, supplied_hid]
    cases dinReady k s with
    | false => rfl
    | true =>
      simp only [if_true]
      split <;> rfl

theorem takeAndAdd_supplied (p : Bool) (k : Pace) (s : State) (cs : List Word32) (bs : List Byte) :
    (takeAndAdd p k s).supplied cs bs = takeAndAdd p (k.onlyWith s.din) (s.supplied cs bs) := by
  rw [takeAndAdd, takeAndAdd, takeByte_supplied, addersEdge_onlyWith]
  rfl

theorem payloadEdge_supplied (p : Bool) (k : Pace) (s : State) (cs : List Word32) (bs : List Byte) :
    (payloadEdge p k s).supplied cs bs = payloadEdge p (k.onlyWith s.din) (s.supplied cs bs) := by
  rw [payloadEdge_eq, payloadEdge_eq, ← takeAndAdd_supplied]
  exact apply_ite (fun u : State => u.supplied cs bs) _ _ _

theorem sendRsp_supplied (s : State) (cs : List Word32) (bs : List Byte) :
    (sendRsp s).supplied cs bs = sendRsp (s.supplied cs bs) := by
  have h : (s.supplied cs bs).owedRsp = s.owedRsp := rfl
  unfold sendRsp
  rw [h]
  split <;> rfl

theorem sendDout_supplied (s : State) (cs : List Word32) (bs : List Byte) :
    (sendDout s).supplied cs bs = sendDout (s.supplied cs bs) := by
  have h : (s.supplied cs bs).owedDout = s.owedDout := rfl
  unfold sendDout
  rw [h]
  split <;> rfl

/-- To the block with ready sinks a beat offered to a sink that was not ready is a beat not sent yet. -/
theorem advance_responseEdge_supplied (k : Pace) {s : State} (hp : s.hid.phase = .response) (cs : List Word32)
    (bs : List Byte) : advance ((responseEdge k s).supplied cs bs) = advance (s.supplied cs bs) := by
  rcases responseEdge_cases k s with ⟨_, e⟩ | ⟨_, _, e⟩ | ⟨_, _, e⟩ <;> rw [e]
  · rw [advance_of_response (s.supplied cs bs) hp, advance_of_response ((offerBeat s).supplied cs bs) hp]
    exact advanceResponse_offerBeat (s.supplied cs bs)
  · rw [sendRsp_supplied]
    exact advance_sendRsp (s := s.supplied cs bs) hp rfl

theorem advance_digestEdge_supplied (k : Pace) {s : State} (hp : s.hid.phase = .digest) (cs : List Word32)
    (bs : List Byte) : advance ((digestEdge k s).supplied cs bs) = advance (s.supplied cs bs) := by
  rcases digestEdge_cases k s with ⟨_, e⟩ | ⟨_, _, e⟩ | ⟨_, _, e⟩ <;> rw [e]
  · rw [advance_of_digest (s.supplied cs bs) hp, advance_of_digest ((offerBeat s).supplied cs bs) hp]
    exact advanceDigest_offerBeat (s.supplied cs bs)
  · rw [sendDout_supplied]
    exact advance_sendDout (s := s.supplied cs bs) hp rfl

/-- No edge inside a command changes where it ends once all the words and bytes to come are presented and the sinks are
ready. -/
theorem resume_edge_supplied (p : Bool) (k : Pace) {s : State} (hs : s.Inv) (hfits : s.Fits p) (hr : s.rst = false)
    (hp : s.hid.phase ≠ .idle) (cs : List Word32) (bs : List Byte) :
    resume ((edge p k s).supplied cs bs) = resume (s.supplied cs bs) := by
  have hf := hs.fault_of_busy hp
  cases h : s.hid.phase with
  | idle => exact absurd h hp
  | decode =>
    obtain ⟨c, hc⟩ := hs.word_of_decode h
    rw [edge_of_decode p k s hr hf h, decodeEdge_supplied h hc, resume_decodeEdge]
  | payload =>
    rw [edge_of_payload p k s hr hf h, resume_of_not_decode (s.supplied cs bs) (by simp [h]), resume_of_not_decode,
      payloadEdge_supplied, advance_payloadEdge p _ (s := s.supplied cs bs) hfits h]
    rcases payloadEdge_phase p k h with e | e <;> simp [e]
  | response =>
    rw [edge_of_response p k s hr hf h, resume_of_not_decode (s.supplied cs bs) (by simp [h]), resume_of_not_decode,
      advance_responseEdge_supplied k h]
    rcases responseEdge_phase k h with e | e <;> simp [e]
  | digest =>
    rw [edge_of_digest p k s hr hf h, resume_of_not_decode (s.supplied cs bs) (by simp [h]), resume_of_not_decode,
      advance_digestEdge_supplied k h]
    rcases digestEdge_phase k h with e | e <;> simp [e]

theorem State.Inv.boundary_of_idle {s : State} (hs : s.Inv) (hr : s.rst = false) (hf : s.fault = false)
    (hp : s.hid.phase = .idle) : s.AtBoundary := ⟨hr, hf, hs.idle hp⟩

theorem resume_of_idle (s : State) (hp : s.hid.phase = .idle) : resume s = s := by
  rw [resume_of_not_decode s (by simp [hp]), advance_of_idle s hp]

/-- The two states have the same command index, channels and pins of the host. -/
structure SamePorts (s t : State) : Prop where
  ci : t.ci = s.ci
  rst : t.rst = s.rst
  doutReady : t.doutReady = s.doutReady
  rspReady : t.rspReady = s.rspReady
  cmd : t.cmd = s.cmd
  din : t.din = s.din
  dout : t.dout = s.dout
  rsp : t.rsp = s.rsp

theorem decodeWord_ports (c : Word32) (s : State) : SamePorts s (decodeWord c s) := by
  rcases decodeWord_cases c s with ⟨_, _, e⟩ | e | ⟨_, _, e⟩ <;> rw [e] <;> constructor <;> rfl

theorem decodeHeld_ports (s : State) : SamePorts s (decodeHeld s) := by
  unfold decodeHeld
  split
  · exact decodeWord_ports _ s
  · constructor <;> rfl

theorem decodeEdge_ports (k : Pace) (s : State) : SamePorts s (decodeEdge k s) := by
  unfold decodeEdge
  split
  · exact decodeHeld_ports s
  · constructor <;> rfl

/-- Accepting a word counts it and takes it off CMD, whether or not the edge decodes it too. -/
theorem acceptEdge_ports (k : Pace) (c : Word32) (rest : List Word32) (s : State) :
    SamePorts (acceptCommand rest s) (acceptEdge k c rest s) := by
  rw [acceptEdge_eq]
  split
  · exact decodeWord_ports c _
  · constructor <;> rfl

/-- Inside a command no edge counts a word (R25). -/
theorem edge_ci_of_busy (p : Bool) (k : Pace) {s : State} (hr : s.rst = false) (hp : s.hid.phase ≠ .idle) :
    (edge p k s).ci = s.ci := by
  rcases edge_cases p k s with ⟨h, _⟩ | ⟨_, _, e⟩ | ⟨_, _, _, _, e⟩ | ⟨_, _, _, _, h, _, _, _⟩ | ⟨_, _, _, e⟩ |
    ⟨_, _, _, e⟩ | ⟨_, _, _, e⟩ | ⟨_, _, _, e⟩
  · simp [hr] at h
  · rw [e]
  · rw [e]
  · exact absurd h hp
  · rw [e, (decodeEdge_ports k s).ci]
  · rw [e, (payloadEdge_control p k s).ci]
  · rw [e, (responseEdge_control k s).ci]
  · rw [e, (digestEdge_control k s).ci]

/-- A clock edge out of hardware reset against the transaction level: it is within the step in progress, or it accepts
the word of the next step. -/
theorem edge_simulates (p : Bool) (k : Pace) {s : State} (hs : s.Inv) (hfits : s.Fits p) (hr : s.rst = false)
    (cs : List Word32) (bs : List Byte) :
    ((edge p k s).ci = s.ci ∧ resume (s.supplied cs bs) = resume ((edge p k s).supplied cs bs)) ∨
    ((edge p k s).ci = s.ci + 1 ∧
      step (resume (s.supplied cs bs)) = .next (resume ((edge p k s).supplied cs bs))) := by
  by_cases hp : s.hid.phase = .idle
  · rcases edge_cases p k s with ⟨h, _⟩ | ⟨_, _, e⟩ | ⟨_, _, _, _, e⟩ | ⟨c, rest, _, hf, _, hc, _, e⟩ | ⟨_, _, h, _⟩ |
      ⟨_, _, h, _⟩ | ⟨_, _, h, _⟩ | ⟨_, _, h, _⟩
    · simp [hr] at h
    · exact .inl ⟨by rw [e], by rw [e]⟩
    · exact .inl ⟨by rw [e], by rw [e]⟩
    · have hb := hs.boundary_of_idle hr hf hp
      refine .inr ⟨by rw [e]; exact (acceptEdge_ports k c rest s).ci, ?_⟩
      rw [resume_of_idle (s.supplied cs bs) hp, e, acceptEdge_supplied, resume_acceptEdge, ← executeWord_eq]
      exact step_of_boundary _ c _ ⟨hb.rst, hb.fault, hb.hid⟩ (by simp [State.supplied, hc])
    all_goals simp [hp] at h
  · exact .inl ⟨edge_ci_of_busy p k hr hp, (resume_edge_supplied p k hs hfits hr hp cs bs).symm⟩

theorem commandsIn_cons (e : Event) (es : List Event) : commandsIn (e :: es) = commandsIn [e] ++ commandsIn es := by
  cases e with
  | host m => cases m <;> rfl
  | block => rfl
  | clock k => rfl

theorem bytesIn_cons (e : Event) (es : List Event) : bytesIn (e :: es) = bytesIn [e] ++ bytesIn es := by
  cases e with
  | host m => cases m <;> rfl
  | block => rfl
  | clock k => rfl

/-- A move of the host at the ports changes when a beat or a ready pin is there, and so nothing of what the transaction
level is given in all; the block and `rst` it leaves alone. -/
theorem hostMove_supplied {m : HostMove} {s t : State} (hm : (Event.host m).atPorts = true)
    (h : hostMove m s = some t) (cs : List Word32) (bs : List Byte) :
    t.supplied cs bs = s.supplied (commandsIn [.host m] ++ cs) (bytesIn [.host m] ++ bs) ∧ t.rst = s.rst := by
  cases m <;> simp only [hostMove, Option.some.injEq, Event.atPorts, Bool.false_eq_true] at h hm <;> subst h <;>
    simp [State.supplied, commandsIn, bytesIn]

theorem edge_rst (p : Bool) (k : Pace) (s : State) : (edge p k s).rst = s.rst := by
  rcases edge_cases p k s with ⟨_, e⟩ | ⟨_, _, e⟩ | ⟨_, _, _, _, e⟩ | ⟨c, rest, _, _, _, _, _, e⟩ | ⟨_, _, _, e⟩ |
    ⟨_, _, _, e⟩ | ⟨_, _, _, e⟩ | ⟨_, _, _, e⟩ <;> rw [e]
  · rfl
  · exact (acceptEdge_ports k c rest s).rst
  · exact (decodeEdge_ports k s).rst
  · exact (payloadEdge_control p k s).rst
  · exact (responseEdge_control k s).rst
  · exact (digestEdge_control k s).rst

/-- An event at the ports against the transaction level given all that is presented from it on. -/
theorem portEvent_simulates {p : Bool} {e : Event} {s t : State} (hs : s.Inv) (hfits : s.Fits p) (hr : s.rst = false)
    (he : e.atPorts = true) (h : event p e s = some t) (cs : List Word32) (bs : List Byte) :
    (t.ci = s.ci ∧ resume (s.supplied (commandsIn [e] ++ cs) (bytesIn [e] ++ bs)) = resume (t.supplied cs bs)) ∨
    (t.ci = s.ci + 1 ∧
      step (resume (s.supplied (commandsIn [e] ++ cs) (bytesIn [e] ++ bs))) = .next (resume (t.supplied cs bs))) := by
  rcases event_cases h with ⟨m, rfl, hm⟩ | ⟨rfl, _⟩ | ⟨k, rfl, rfl⟩
  · obtain ⟨_, _, _, _, hci, _⟩ := hostMove_block m s t hm
    exact .inl ⟨hci, by rw [(hostMove_supplied he hm cs bs).1]⟩
  · cases he
  · exact edge_simulates p k hs hfits hr cs bs

theorem portEvent_rst {p : Bool} {e : Event} {s t : State} (he : e.atPorts = true) (h : event p e s = some t) :
    t.rst = s.rst := by
  rcases event_cases h with ⟨m, rfl, hm⟩ | ⟨rfl, _⟩ | ⟨k, rfl, rfl⟩
  · exact (hostMove_supplied he hm [] []).2
  · cases he
  · exact edge_rst p k s

/-- The whole run at the ports against the transaction level, which takes as many steps as words were accepted. -/
theorem portEvents_simulate (p : Bool) (es : List Event) (s t : State) (hs : s.Inv) (hfits : s.Fits p)
    (hr : s.rst = false) (he : ∀ e ∈ es, e.atPorts = true) (h : events p es s = some t) :
    s.ci ≤ t.ci ∧
    steps (t.ci - s.ci) (resume (s.supplied (commandsIn es) (bytesIn es))) = some (resume (t.supplied [] [])) := by
  induction es generalizing s with
  | nil =>
    cases h
    exact ⟨Nat.le_refl _, by rw [Nat.sub_self]; rfl⟩
  | cons e es ih =>
    simp only [events] at h
    split at h
    next u hu =>
      have hport := he e List.mem_cons_self
      obtain ⟨hle, hsteps⟩ := ih u (event_inv hs hu) (event_fits hfits hu) ((portEvent_rst hport hu).trans hr)
        (fun e' h' => he e' (List.mem_cons_of_mem e h')) h
      rw [commandsIn_cons, bytesIn_cons]
      rcases portEvent_simulates hs hfits hr hport hu (commandsIn es) (bytesIn es) with ⟨hci, hsame⟩ | ⟨hci, hstep⟩
      · rw [hsame, ← hci]
        exact ⟨hle, hsteps⟩
      · rw [show t.ci - s.ci = (t.ci - u.ci) + 1 by omega, steps_succ _ _ _ hstep]
        exact ⟨by omega, hsteps⟩
    next => cases h

/-- Settles O54: `resume` takes every state inside a command to its end, an edge does not change that end, and a run at
the ports follows the steps word by word. -/
theorem edgeKeepsTheOutcome : Obligations.EdgeKeepsTheOutcome :=
  ⟨fun _ p k _ hfits hr hf hp => resume_edge p k hfits hr hf hp, portEvents_simulate⟩

end Sys2Proof.Machine

/-! PROOF. What is still to do inside a command: every edge leaves it as it is or takes from it, and so a block that
never holds back ends the command in progress (spec/70_reset_and_hazards.md section 4). -/

namespace Sys2Proof.Machine

/-- The additions the adder stage still makes for the words in it: an addition of `b` is followed by one of `c` and one
of `d`. -/
def additionsDue (va vb vc : Bool) : Nat := 3 * va.toNat + 2 * vb.toNat + vc.toNat

def AdderStage.work (q : AdderStage) : Nat := additionsDue q.va q.vb q.vc

/-- A bound on what is still to do inside a command: beats not sent, bytes not taken, additions owed. A byte weighs more
than the additions of the word it may complete, and a beat weighs more than its offer. -/
def Hidden.work (h : Hidden) : Nat :=
  match h.phase with
  | .idle => 0
  | .decode => 2 ^ 31
  | .payload => 100 + 4 * h.remaining.toNat + additionsDue h.va h.vb h.vc
  | .response => 1 + 2 * (4 - h.sumwIdx.toNat) + (!h.offered).toNat
  | .digest => 1 + 2 * (32 - h.sumIdx.toNat) + (!h.offered).toNat

theorem Hidden.work_of_payload {h : Hidden} (hp : h.phase = .payload) :
    h.work = 100 + 4 * h.remaining.toNat + additionsDue h.va h.vb h.vc := by simp [Hidden.work, hp]

theorem Hidden.work_of_response {h : Hidden} (hp : h.phase = .response) :
    h.work = 1 + 2 * (4 - h.sumwIdx.toNat) + (!h.offered).toNat := by simp [Hidden.work, hp]

theorem Hidden.work_of_digest {h : Hidden} (hp : h.phase = .digest) :
    h.work = 1 + 2 * (32 - h.sumIdx.toNat) + (!h.offered).toNat := by simp [Hidden.work, hp]

/-- A word held is more work than any command it may begin. -/
theorem Hidden.work_lt_of_decoded {h : Hidden} (hp : h.phase ≠ .decode) : h.work < 2 ^ 31 := by
  have hr := h.remaining.isLt
  have ha := Bool.toNat_le h.va
  have hb := Bool.toNat_le h.vb
  have hc := Bool.toNat_le h.vc
  have ho := Bool.toNat_le (!h.offered)
  unfold Hidden.work
  split
  · decide
  · exact absurd ‹_› hp
  · simp only [additionsDue]
    omega
  · omega
  · omega

/-- An edge of the adder stage with no word makes an addition or changes nothing. -/
theorem addersEdge_none_work (p : Bool) (k : Pace) (q : AdderStage) :
    addersEdge p k none q = q ∨ (addersEdge p k none q).work < q.work := by
  cases p with
  | false => exact .inl rfl
  | true =>
    obtain ⟨⟨a, b, c, d⟩, va, vb, vc⟩ := q
    obtain ⟨_, _, _, _, kb, kc, kd⟩ := k
    cases va <;> cases vb <;> cases vc <;> cases kb <;> cases kc <;> cases kd <;>
      simp [addersEdge, stagesEdge, AdderStage.work, additionsDue, AdderStage.addsB, AdderStage.addsC, AdderStage.addsD]

/-- A word brings the adder stage three additions. -/
theorem addersEdge_some_work (p : Bool) (k : Pace) (w : Word32) (q : AdderStage) (h : q.takesWord k = true) :
    (addersEdge p k (some w) q).work ≤ q.work + 3 := by
  cases p with
  | false => exact Nat.le_add_right _ 3
  | true =>
    obtain ⟨⟨a, b, c, d⟩, va, vb, vc⟩ := q
    obtain ⟨_, _, _, _, kb, kc, kd⟩ := k
    cases va <;> cases vb <;> cases vc <;> cases kb <;> cases kc <;> cases kd <;>
      simp [AdderStage.takesWord, AdderStage.addsB, AdderStage.addsC, AdderStage.addsD] at h <;>
      simp [addersEdge, stagesEdge, AdderStage.work, additionsDue, AdderStage.addsB, AdderStage.addsC, AdderStage.addsD]

/-- An edge that takes no byte is one of the adder stage alone. -/
theorem takeAndAdd_of_none {p : Bool} {k : Pace} {s : State} (h : takeByte k s = (none, s)) :
    takeAndAdd p k s = s.setAdders (addersEdge p k none s.adders) := by
  rw [takeAndAdd, h]

theorem takeAndAdd_work {p : Bool} {k : Pace} {s : State} (hp : s.hid.phase = .payload) :
    (takeAndAdd p k s).hid.work =
      100 + 4 * (takeAndAdd p k s).hid.remaining.toNat + (addersEdge p k (takeByte k s).1 s.adders).work := by
  rw [Hidden.work_of_payload ((takeAndAdd_phase p k s).trans hp), ← takeAndAdd_adders]
  rfl

/-- A byte taken is work done, whatever the adder stage then owes. -/
theorem takeAndAdd_descends_of_byte {p : Bool} {k : Pace} {s : State} (hp : s.hid.phase = .payload)
    (hready : dinReady k s = true) (hd : s.din ≠ []) : (takeAndAdd p k s).hid.work < s.hid.work := by
  obtain ⟨_, _, _, hr, _⟩ := (dinReady_iff k s).mp hready
  have hrem : (s.hid.remaining - 1#28).toNat = s.hid.remaining.toNat - 1 := sub_one_toNat _ hr
  have hpos : s.hid.remaining.toNat ≠ 0 := fun h => hr (BitVec.eq_of_toNat_eq h)
  have hwork : s.hid.work = 100 + 4 * s.hid.remaining.toNat + s.adders.work := Hidden.work_of_payload hp
  rw [takeAndAdd_work hp, hwork]
  rcases takeByte_cases k s with ⟨_, h⟩ | ⟨b, rest, _, _, ⟨w, h, htakes, _⟩ | ⟨h, _⟩⟩
  · rcases h with h | h
    · simp [hready] at h
    · exact absurd h hd
  · have hadd := addersEdge_some_work p k w s.adders htakes
    have hleft : (takeAndAdd p k s).hid.remaining = s.hid.remaining - 1#28 := by rw [takeAndAdd, h]; rfl
    rw [h, hleft, hrem]
    dsimp only
    omega
  · have hadd : (addersEdge p k none s.adders).work ≤ s.adders.work := by
      rcases addersEdge_none_work p k s.adders with e | e
      · rw [e]
      · exact Nat.le_of_lt e
    have hleft : (takeAndAdd p k s).hid.remaining = s.hid.remaining - 1#28 := by rw [takeAndAdd, h]; rfl
    rw [h, hleft, hrem]
    dsimp only
    omega

theorem takeAndAdd_descends (p : Bool) (k : Pace) {s : State} (hp : s.hid.phase = .payload) :
    takeAndAdd p k s = s ∨ (takeAndAdd p k s).hid.work < s.hid.work := by
  rcases takeByte_cases k s with ⟨h, _⟩ | ⟨b, rest, hd, hready, _⟩
  · rcases addersEdge_none_work p k s.adders with e | e
    · exact .inl (by rw [takeAndAdd_of_none h, e]; rfl)
    · right
      have hwork : s.hid.work = 100 + 4 * s.hid.remaining.toNat + s.adders.work := Hidden.work_of_payload hp
      have hleft : (takeAndAdd p k s).hid.remaining = s.hid.remaining := by rw [takeAndAdd_of_none h]; rfl
      rw [takeAndAdd_work hp, hwork, hleft, h]
      exact Nat.add_lt_add_left e _
  · exact .inr (takeAndAdd_descends_of_byte hp hready (by simp [hd]))

/-- The end of the payload phase is work done. -/
theorem payloadDone_descends {s : State} (hp : s.hid.phase = .payload) : (payloadDone s).hid.work < s.hid.work := by
  have ho := Bool.toNat_le (!s.hid.offered)
  rw [Hidden.work_of_payload hp, Hidden.work_of_response (h := (payloadDone s).hid) rfl]
  simp only [payloadDone_hid]
  omega

theorem payloadEdge_descends (p : Bool) (k : Pace) {s : State} (hp : s.hid.phase = .payload) :
    payloadEdge p k s = s ∨ (payloadEdge p k s).hid.work < s.hid.work := by
  have htaken := takeAndAdd_descends p k hp
  rcases payloadEdge_cases p k s with e | ⟨_, _, e⟩ <;> rw [e]
  · exact htaken
  · have hdone := payloadDone_descends ((takeAndAdd_phase p k s).trans hp)
    rcases htaken with h | h
    · rw [h] at hdone ⊢
      exact .inr hdone
    · exact .inr (hdone.trans h)

/-- A beat sent is work done. -/
theorem sendRsp_descends {s : State} (hp : s.hid.phase = .response) : (sendRsp s).hid.work < s.hid.work := by
  rw [Hidden.work_of_response hp]
  rcases sendRsp_cases s with ⟨_, e⟩ | ⟨v, _, e⟩ | ⟨v, w, l, howed, e⟩ <;> rw [e]
  · exact Nat.lt_of_lt_of_le Nat.one_pos (by omega)
  · exact Nat.lt_of_lt_of_le Nat.one_pos (by omega)
  · have hidx := sumwIdx_of_owed howed
    have hlt := (s.hid.sumwIdx + 1#2).isLt
    rw [Hidden.work_of_response (h := (pushRsp [v] (countRsp s)).hid) hp]
    simp only [pushRsp_hid, countRsp_hid, hidx, Bool.not_false, Bool.toNat_true]
    omega

theorem sendDout_descends {s : State} (hp : s.hid.phase = .digest) : (sendDout s).hid.work < s.hid.work := by
  rw [Hidden.work_of_digest hp]
  rcases sendDout_cases s with ⟨_, e⟩ | ⟨v, _, e⟩ | ⟨v, w, l, howed, e⟩ <;> rw [e]
  · exact Nat.lt_of_lt_of_le Nat.one_pos (by omega)
  · exact Nat.lt_of_lt_of_le Nat.one_pos (by omega)
  · have hidx := sumIdx_of_owed howed
    have hlt := (s.hid.sumIdx + 1#5).isLt
    rw [Hidden.work_of_digest (h := (pushDout [v] (countDout s)).hid) hp]
    simp only [pushDout_hid, countDout_hid, hidx, Bool.not_false, Bool.toNat_true]
    omega

theorem offerBeat_of_offered {s : State} (h : s.hid.offered = true) : offerBeat s = s := by
  cases s with
  | mk acc fault cause finfo ci hid =>
    cases hid
    simp_all [offerBeat]

/-- So is an offer, where the beat was not offered before. -/
theorem offerBeat_descends {s : State} (hp : s.hid.phase = .response ∨ s.hid.phase = .digest)
    (ho : s.hid.offered = false) : (offerBeat s).hid.work < s.hid.work := by
  rcases hp with hp | hp <;> simp [Hidden.work, hp, ho]

theorem responseEdge_descends (k : Pace) {s : State} (hp : s.hid.phase = .response) :
    responseEdge k s = s ∨ (responseEdge k s).hid.work < s.hid.work := by
  rcases responseEdge_cases k s with ⟨_, e⟩ | ⟨_, _, e⟩ | ⟨_, _, e⟩ <;> rw [e]
  · exact .inl rfl
  · cases ho : s.hid.offered with
    | true => exact .inl (offerBeat_of_offered ho)
    | false => exact .inr (offerBeat_descends (.inl hp) ho)
  · exact .inr (sendRsp_descends hp)

theorem digestEdge_descends (k : Pace) {s : State} (hp : s.hid.phase = .digest) :
    digestEdge k s = s ∨ (digestEdge k s).hid.work < s.hid.work := by
  rcases digestEdge_cases k s with ⟨_, e⟩ | ⟨_, _, e⟩ | ⟨_, _, e⟩ <;> rw [e]
  · exact .inl rfl
  · cases ho : s.hid.offered with
    | true => exact .inl (offerBeat_of_offered ho)
    | false => exact .inr (offerBeat_descends (.inr hp) ho)
  · exact .inr (sendDout_descends hp)

/-- The edge that decodes the word held does work. -/
theorem decodeHeld_descends {s : State} (hs : s.Inv) (hp : s.hid.phase = .decode) :
    (decodeHeld s).hid.work < s.hid.work := by
  obtain ⟨c, hc⟩ := hs.word_of_decode hp
  have hwork : s.hid.work = 2 ^ 31 := by simp [Hidden.work, hp]
  rw [decodeHeld_of_word s c hp hc, hwork]
  exact Hidden.work_lt_of_decoded (decodeWord_phase c s)

theorem decodeEdge_descends (k : Pace) {s : State} (hs : s.Inv) (hp : s.hid.phase = .decode) :
    decodeEdge k s = s ∨ (decodeEdge k s).hid.work < s.hid.work := by
  unfold decodeEdge
  split
  · exact .inr (decodeHeld_descends hs hp)
  · exact .inl rfl

/-- Inside a command an edge changes nothing, or does work. -/
theorem edge_descends (p : Bool) (k : Pace) {s : State} (hs : s.Inv) (hr : s.rst = false) (hp : s.hid.phase ≠ .idle) :
    edge p k s = s ∨ (edge p k s).hid.work < s.hid.work := by
  have hf := hs.fault_of_busy hp
  cases h : s.hid.phase with
  | idle => exact absurd h hp
  | decode => rw [edge_of_decode p k s hr hf h]; exact decodeEdge_descends k hs h
  | payload => rw [edge_of_payload p k s hr hf h]; exact payloadEdge_descends p k h
  | response => rw [edge_of_response p k s hr hf h]; exact responseEdge_descends k h
  | digest => rw [edge_of_digest p k s hr hf h]; exact digestEdge_descends k h

/-! What an edge that changes nothing says of the block's pace and of the host, phase by phase. -/

theorem decode_of_fixed {p : Bool} {k : Pace} {s : State} (hs : s.Inv) (hr : s.rst = false) (hp : s.hid.phase = .decode)
    (h : edge p k s = s) : k.decode = false := by
  rw [edge_of_decode p k s hr (hs.fault_of_busy (by simp [hp])) hp, decodeEdge] at h
  cases hk : k.decode with
  | false => rfl
  | true =>
    have hlt := decodeHeld_descends hs hp
    rw [hk, if_pos rfl] at h
    rw [h] at hlt
    exact absurd hlt (Nat.lt_irrefl _)

theorem response_of_fixed {p : Bool} {k : Pace} {s : State} (hs : s.Inv) (hr : s.rst = false)
    (hp : s.hid.phase = .response) (h : edge p k s = s) :
    offers k s = false ∨ (s.hid.offered = true ∧ s.rspReady = false) := by
  rw [edge_of_response p k s hr (hs.fault_of_busy (by simp [hp])) hp] at h
  rcases responseEdge_cases k s with ⟨ho, _⟩ | ⟨_, hrsp, e⟩ | ⟨_, _, e⟩
  · exact .inl ho
  · exact .inr ⟨by rw [← h, e]; rfl, hrsp⟩
  · have hlt := sendRsp_descends hp
    rw [← e, h] at hlt
    exact absurd hlt (Nat.lt_irrefl _)

theorem digest_of_fixed {p : Bool} {k : Pace} {s : State} (hs : s.Inv) (hr : s.rst = false)
    (hp : s.hid.phase = .digest) (h : edge p k s = s) :
    offers k s = false ∨ (s.hid.offered = true ∧ s.doutReady = false) := by
  rw [edge_of_digest p k s hr (hs.fault_of_busy (by simp [hp])) hp] at h
  rcases digestEdge_cases k s with ⟨ho, _⟩ | ⟨_, hdout, e⟩ | ⟨_, _, e⟩
  · exact .inl ho
  · exact .inr ⟨by rw [← h, e]; rfl, hdout⟩
  · have hlt := sendDout_descends hp
    rw [← e, h] at hlt
    exact absurd hlt (Nat.lt_irrefl _)

/-- An edge of the payload phase that changes nothing takes no byte, and the phase is not over. -/
theorem payload_of_fixed {p : Bool} {k : Pace} {s : State} (hs : s.Inv) (hr : s.rst = false)
    (hp : s.hid.phase = .payload) (h : edge p k s = s) :
    addersEdge p k none s.adders = s.adders ∧ (dinReady k s = false ∨ s.din = []) ∧
    ¬(s.hid.remaining = 0#28 ∧ s.adders.settled = true) := by
  rw [edge_of_payload p k s hr (hs.fault_of_busy (by simp [hp])) hp] at h
  have htaken : takeAndAdd p k s = s := by
    rcases payloadEdge_cases p k s with e | ⟨_, _, e⟩
    · exact e.symm.trans h
    · have hphase := congrArg (fun u : State => u.hid.phase) (e.symm.trans h)
      simp [hp] at hphase
  have hnoByte : takeByte k s = (none, s) ∧ (dinReady k s = false ∨ s.din = []) := by
    rcases takeByte_cases k s with hno | ⟨b, rest, hd, hready, _⟩
    · exact hno
    · have hlt := takeAndAdd_descends_of_byte (p := p) hp hready (by simp [hd])
      rw [htaken] at hlt
      exact absurd hlt (Nat.lt_irrefl _)
  refine ⟨?_, hnoByte.2, fun hdone => ?_⟩
  · have hadders := takeAndAdd_adders p k s
    rw [htaken, hnoByte.1] at hadders
    exact hadders.symm
  · have hphase := congrArg (fun u : State => u.hid.phase) h
    rw [payloadEdge_eq, htaken, if_pos hdone] at hphase
    simp [hp] at hphase

/-- An edge of the adder stage that changes nothing holds back the addition that is due: the rightmost of those owed. -/
theorem additions_of_fixed {p : Bool} {k : Pace} {q : AdderStage} (hfits : p = false → q.settled = true)
    (h : addersEdge p k none q = q) :
    (q.vc = true → k.addD = false) ∧ (q.vb = true → q.vc = false → k.addC = false) ∧
    (q.va = true → q.vb = false → k.addB = false) := by
  cases p with
  | false =>
    obtain ⟨ha, hb, hc⟩ := (settled_iff q).mp (hfits rfl)
    simp [ha, hb, hc]
  | true =>
    have hva := congrArg AdderStage.va h
    have hvb := congrArg AdderStage.vb h
    have hvc := congrArg AdderStage.vc h
    obtain ⟨x, va, vb, vc⟩ := q
    obtain ⟨_, _, _, _, kb, kc, kd⟩ := k
    cases va <;> cases vb <;> cases vc <;> cases kb <;> cases kc <;> cases kd <;>
      simp [addersEdge, stagesEdge, AdderStage.addsB, AdderStage.addsC, AdderStage.addsD] at hva hvb hvc ⊢

/-- With no addition owed a word may always enter. -/
theorem wordMayEnter_of_settled (k : Pace) {s : State} (h : s.adders.settled = true) : wordMayEnter k s = true := by
  simp [wordMayEnter, AdderStage.takesWord, ((settled_iff _).mp h).1]

/-- A payload phase with no addition owed that an edge does not change: bytes are missing, and none is there or the
block does not take it. -/
theorem payload_of_fixed_settled {p : Bool} {k : Pace} {s : State} (hs : s.Inv) (hr : s.rst = false)
    (hp : s.hid.phase = .payload) (hv : s.adders.settled = true) (h : edge p k s = s) :
    s.hid.remaining ≠ 0#28 ∧ (k.take = false ∨ s.din = []) := by
  obtain ⟨_, hnoByte, hnotDone⟩ := payload_of_fixed hs hr hp h
  have hrem : s.hid.remaining ≠ 0#28 := fun h0 => hnotDone ⟨h0, hv⟩
  refine ⟨hrem, hnoByte.imp_left fun hready => ?_⟩
  by_contra htake
  have hyes := (dinReady_iff k s).mpr
    ⟨by simpa using htake, hs.fault_of_busy (by simp [hp]), hp, hrem, wordMayEnter_of_settled k hv⟩
  simp [hready] at hyes

/-- With no byte there, none is consumed. -/
theorem consumePayload_of_din_nil {s : State} (hd : s.din = []) : consumePayload s = s := by
  cases s with
  | mk acc fault cause finfo ci hid =>
    cases hid
    simp_all [consumePayload, State.payloadNow]

/-- A stuck block is where its command can be carried to (R194). -/
theorem resume_of_stuck {s : State} (h : s.Stuck) : resume s = s := by
  obtain ⟨_, _, hwait, hv⟩ := h
  rcases hwait with ⟨hp, hd, hr⟩ | ⟨ho, ⟨hp, hrsp⟩ | ⟨hp, hdout⟩⟩
  · have hnone := consumePayload_of_din_nil hd
    rw [resume_of_not_decode s (by simp [hp]), advance_of_payload s hp]
    simp only [advancePayload, settleAdders_of_settled s hv, hnone, if_neg hr]
  · rw [resume_of_not_decode s (by simp [hp]), advance_of_response s hp, advanceResponse_of_not_ready s hrsp,
      offerBeat_of_offered ho]
  · rw [resume_of_not_decode s (by simp [hp]), advance_of_digest s hp, advanceDigest_of_not_ready s hdout,
      offerBeat_of_offered ho]

/-- A block that never holds back goes on at every edge until it is stuck. -/
theorem stuck_of_fixed {p : Bool} {s : State} (hs : s.Inv) (hfits : s.Fits p) (hr : s.rst = false)
    (hp : s.hid.phase ≠ .idle) (h : edge p Pace.full s = s) : s.Stuck := by
  have hf := hs.fault_of_busy hp
  cases hph : s.hid.phase with
  | idle => exact absurd hph hp
  | decode => exact absurd (decode_of_fixed hs hr hph h) (by decide)
  | payload =>
    obtain ⟨hadders, -⟩ := payload_of_fixed hs hr hph h
    obtain ⟨hd, hc, hb⟩ := additions_of_fixed hfits hadders
    have hvc : s.adders.vc = false := Bool.eq_false_iff.mpr fun h => absurd (hd h) (by decide)
    have hvb : s.adders.vb = false := Bool.eq_false_iff.mpr fun h => absurd (hc h hvc) (by decide)
    have hva : s.adders.va = false := Bool.eq_false_iff.mpr fun h => absurd (hb h hvb) (by decide)
    have hv : s.adders.settled = true := (settled_iff _).mpr ⟨hva, hvb, hvc⟩
    obtain ⟨hrem, htake⟩ := payload_of_fixed_settled hs hr hph hv h
    exact ⟨hr, hf, .inl ⟨hph, htake.resolve_left (by decide), hrem⟩, hv⟩
  | response =>
    rcases response_of_fixed hs hr hph h with ho | ⟨ho, hrsp⟩
    · simp [offers, Pace.full] at ho
    · exact ⟨hr, hf, .inr ⟨ho, .inl ⟨hph, hrsp⟩⟩, hs.settled (by simp [hph])⟩
  | digest =>
    rcases digest_of_fixed hs hr hph h with ho | ⟨ho, hdout⟩
    · simp [offers, Pace.full] at ho
    · exact ⟨hr, hf, .inr ⟨ho, .inr ⟨hph, hdout⟩⟩, hs.settled (by simp [hph])⟩

/-- The edges of a block that never holds back carry its command to where a step carries it: each does work and keeps
where the command ends, until the block is stuck or the command over. -/
theorem edges_reach_resume (p : Bool) (s : State) (hs : s.Inv) (hfits : s.Fits p) (hr : s.rst = false) :
    ∃ n, edges p (List.replicate n Pace.full) s = resume s := by
  by_cases hp : s.hid.phase = .idle
  · exact ⟨0, (resume_of_idle s hp).symm⟩
  · rcases edge_descends p Pace.full hs hr hp with hfixed | hlt
    · exact ⟨0, (resume_of_stuck (stuck_of_fixed hs hfits hr hp hfixed)).symm⟩
    · obtain ⟨n, hn⟩ := edges_reach_resume p (edge p Pace.full s) (edge_inv hs p _) (edge_fits p _ hfits)
        ((edge_rst p _ s).trans hr)
      exact ⟨n + 1, hn.trans (resume_edge p _ hfits hr (hs.fault_of_busy hp) hp)⟩
termination_by s.hid.work

/-- Settles O55: at a boundary one edge accepts and decodes the word; within a command the edges reach its end. -/
theorem edgesReachTheStep : Obligations.EdgesReachTheStep := by
  intro s p hs hfits
  rcases step_cases s with ⟨hr, e⟩ | ⟨_, _, e⟩ | ⟨_, _, _, _, e⟩ | ⟨c, rest, hr, hf, hp, hc, e⟩ | ⟨hr, _, _, e⟩
  · exact ⟨1, _, e, edge_of_rst p _ s hr⟩
  · exact ⟨0, _, e, rfl⟩
  · exact ⟨0, _, e, rfl⟩
  · have hb := hs.boundary_of_idle hr hf hp
    have haccept : edge p Pace.full s = decodeWord c (acceptCommand rest s) := by
      rw [edge_of_boundary p _ s c rest hb hc, acceptEdge_eq]
      rfl
    obtain ⟨n, hn⟩ := edges_reach_resume p (edge p Pace.full s) (edge_inv hs p _) (edge_fits p _ hfits)
      ((edge_rst p _ s).trans hr)
    refine ⟨n + 1, _, e.trans (executeWord_eq c _), hn.trans ?_⟩
    rw [haccept, resume_of_not_decode _ (decodeWord_phase c _)]
  · obtain ⟨n, hn⟩ := edges_reach_resume p s hs hfits hr
    exact ⟨n, _, e, hn⟩

end Sys2Proof.Machine

/-! PROOF. Liveness (spec/70_reset_and_hazards.md R241): with its payload and ready sinks a command ends, and in a fair
run with a dutiful host every command does. -/

namespace Sys2Proof.Machine

/-- All that is wanted and presented is taken (R137). -/
theorem consumePayload_remaining_of_le {s : State} (h : s.hid.remaining.toNat ≤ s.din.length) :
    (consumePayload s).hid.remaining = 0#28 := by
  simp only [consumePayload_hid, State.payloadNow, Nat.min_eq_left h, Nat.sub_self]

/-- With its payload presented and ready sinks a command, once decoded, is carried to a command boundary. -/
theorem advance_boundary {s : State} (hs : s.Inv) (hr : s.rst = false) (hf : s.fault = false) (hrsp : s.rspReady = true)
    (hdout : s.doutReady = true) (hlen : s.hid.remaining.toNat ≤ s.din.length) (hp : s.hid.phase ≠ .decode) :
    (advance s).AtBoundary := by
  have hc := advance_control s
  refine ⟨hc.rst.trans hr, hc.fault.trans hf, ?_⟩
  cases h : s.hid.phase with
  | idle => rw [advance_of_idle s h]; exact hs.idle h
  | decode => exact absurd h hp
  | payload =>
    have hdone := consumePayload_remaining_of_le (s := settleAdders s) hlen
    rw [advance_of_payload s h]
    simp only [advancePayload, if_pos hdone]
    rw [advanceResponse_of_ready (payloadDone (consumePayload (settleAdders s))) hrsp]
    rfl
  | response => rw [advance_of_response s h, advanceResponse_of_ready s hrsp]; rfl
  | digest => rw [advance_of_digest s h, advanceDigest_of_ready s hdout]; rfl

/-- So is a command whose word is still held, unless the word faults when it is decoded. -/
theorem resume_boundary {s : State} (hs : s.Inv) (hr : s.rst = false) (hrsp : s.rspReady = true)
    (hdout : s.doutReady = true) (hlen : (decodeHeld s).hid.remaining.toNat ≤ s.din.length) :
    if (decodeHeld s).fault then (resume s).Halted else (resume s).AtBoundary := by
  have hports := decodeHeld_ports s
  have hinv := decodeHeld_inv hs
  split
  next hf => exact (advance_control _).fault.trans hf
  next hf =>
    have hphase : (decodeHeld s).hid.phase ≠ .decode := by
      by_cases h : s.hid.phase = .decode
      · obtain ⟨c, hc⟩ := hs.word_of_decode h
        rw [decodeHeld_of_word s c h hc]
        exact decodeWord_phase c s
      · rwa [decodeHeld_of_not_decode s h]
    exact advance_boundary hinv (hports.rst.trans hr) (by simpa using hf) (hports.rspReady.trans hrsp)
      (hports.doutReady.trans hdout) (by rwa [hports.din]) hphase

/-- A run without end at the port level, out of hardware reset, fair, and with a host that keeps HD7 and HD8. -/
structure DutifulRun (p : Bool) (es : Nat → Event) (ss : Nat → State) : Prop where
  inv : ∀ n, (ss n).Inv
  fits : ∀ n, (ss n).Fits p
  rst : ∀ n, (ss n).rst = false
  run : PortRun p es ss
  fair : WeaklyFair es ss
  payload : SuppliesPayload ss
  beats : AcceptsBeats es ss

/-- From `n` on, the command in progress there is never carried further. -/
structure Frozen (ss : Nat → State) (n : Nat) : Prop where
  busy : (ss n).hid.phase ≠ .idle
  least : ∀ m, n ≤ m → (ss n).hid.work ≤ (ss m).hid.work

/-- An event of such a run is a move of the host, which leaves the block alone, or an edge. -/
theorem DutifulRun.event_cases {p : Bool} {es : Nat → Event} {ss : Nat → State} (r : DutifulRun p es ss) (n : Nat) :
    (∃ m, es n = .host m ∧ hostMove m (ss n) = some (ss (n + 1))) ∨
    (∃ k, es n = .clock k ∧ edge p k (ss n) = ss (n + 1)) := by
  rcases Machine.event_cases (r.run.next n) with h | ⟨h, _⟩ | h
  · exact .inl h
  · exact absurd h (r.run.port n)
  · exact .inr h

/-- In a frozen run the hidden state stays as it is: what changes it does work. -/
theorem Frozen.hid_eq {p : Bool} {es : Nat → Event} {ss : Nat → State} {n : Nat} (f : Frozen ss n)
    (r : DutifulRun p es ss) {m : Nat} (hm : n ≤ m) : (ss m).hid = (ss n).hid := by
  induction m, hm using Nat.le_induction with
  | base => rfl
  | succ m hm ih =>
    rcases r.event_cases m with ⟨mv, _, h⟩ | ⟨k, _, h⟩
    · obtain ⟨_, _, _, _, _, hhid, _⟩ := hostMove_block mv _ _ h
      exact hhid.trans ih
    · rcases edge_descends p k (r.inv m) (r.rst m) (by rw [ih]; exact f.busy) with e | hlt
      · rw [← h, e, ih]
      · rw [h, ih] at hlt
        exact absurd (f.least (m + 1) (by omega)) (Nat.not_le.mpr hlt)

/-- And no edge of it changes anything. -/
theorem Frozen.edge_eq {p : Bool} {es : Nat → Event} {ss : Nat → State} {n : Nat} (f : Frozen ss n)
    (r : DutifulRun p es ss) {m : Nat} (hm : n ≤ m) {k : Pace} (hk : es m = .clock k) : edge p k (ss m) = ss m := by
  have hhid := f.hid_eq r hm
  rcases edge_descends p k (r.inv m) (r.rst m) (by rw [hhid]; exact f.busy) with e | hlt
  · exact e
  · have hnext : ss (m + 1) = edge p k (ss m) := by
      have h := r.run.next m
      rw [hk] at h
      exact (Option.some.inj h).symm
    rw [← hnext, f.hid_eq r (show n ≤ m + 1 by omega), hhid] at hlt
    exact absurd hlt (Nat.lt_irrefl _)

theorem Frozen.later {p : Bool} {es : Nat → Event} {ss : Nat → State} {n : Nat} (f : Frozen ss n)
    (r : DutifulRun p es ss) {m : Nat} (hm : n ≤ m) : Frozen ss m := by
  have hhid := f.hid_eq r hm
  exact ⟨by rw [hhid]; exact f.busy, fun j hj => by rw [hhid]; exact f.least j (hm.trans hj)⟩

/-- Whether the block may do something of its own accord depends on its registers alone. -/
theorem enabled_congr (a : OwnAction) {s t : State} (hr : t.rst = s.rst) (hf : t.fault = s.fault) (hh : t.hid = s.hid) :
    a.enabled t = a.enabled s := by
  cases a <;> simp [OwnAction.enabled, hr, hf, hh]

/-- In a frozen run what the block may do it does at some edge (weak fairness), which changes nothing. -/
theorem Frozen.granted {p : Bool} {es : Nat → Event} {ss : Nat → State} {n : Nat} (f : Frozen ss n)
    (r : DutifulRun p es ss) (a : OwnAction) (ha : a.enabled (ss n) = true) :
    ∃ m k, n ≤ m ∧ k.grants a = true ∧ edge p k (ss m) = ss m := by
  obtain ⟨m, hm, h⟩ := r.fair a n
  have hhid := f.hid_eq r hm
  have hfault (j : Nat) (hj : n ≤ j) : (ss j).fault = false :=
    (r.inv j).fault_of_busy (by rw [f.hid_eq r hj]; exact f.busy)
  have hsame : a.enabled (ss m) = a.enabled (ss n) :=
    enabled_congr a ((r.rst m).trans (r.rst n).symm) ((hfault m hm).trans (hfault n (Nat.le_refl n)).symm) hhid
  rcases h with h | ⟨k, hk, hgrant⟩
  · rw [hsame, ha] at h
    cases h
  · exact ⟨m, k, hm, hgrant, f.edge_eq r hm hk⟩

/-- No word stays held for ever: decoding it is the block's own step. -/
theorem Frozen.not_decode {p : Bool} {es : Nat → Event} {ss : Nat → State} {n : Nat} (f : Frozen ss n)
    (r : DutifulRun p es ss) : (ss n).hid.phase ≠ .decode := by
  intro hp
  obtain ⟨m, k, hm, hgrant, hfixed⟩ := f.granted r .decode
    (by simp [OwnAction.enabled, r.rst n, (r.inv n).fault_of_busy f.busy, hp])
  have hno := decode_of_fixed (r.inv m) (r.rst m) (by rw [f.hid_eq r hm, hp]) hfixed
  simp [Pace.grants, hno] at hgrant

/-- A beat owed is offered in the end, by fairness, and then taken, by HD8. -/
theorem Frozen.not_owing {p : Bool} {es : Nat → Event} {ss : Nat → State} {n : Nat} (f : Frozen ss n)
    (r : DutifulRun p es ss) (hp : (ss n).hid.phase = .response ∨ (ss n).hid.phase = .digest) : False := by
  have fixed {m : Nat} {k : Pace} (hm : n ≤ m) (h : edge p k (ss m) = ss m) :
      offers k (ss m) = false ∨ ((ss m).hid.offered = true ∧ (ss m).sinkReady = false) := by
    have hhid := f.hid_eq r hm
    rcases hp with hp | hp <;> rw [← hhid] at hp
    · simpa [State.sinkReady, hp] using response_of_fixed (r.inv m) (r.rst m) hp h
    · simpa [State.sinkReady, hp] using digest_of_fixed (r.inv m) (r.rst m) hp h
  cases ho : (ss n).hid.offered with
  | false =>
    obtain ⟨m, k, hm, hgrant, hfixed⟩ := f.granted r .offer
      (by simpa [OwnAction.enabled, r.rst n, (r.inv n).fault_of_busy f.busy] using hp)
    have hnot : (ss m).hid.offered = false := by rw [f.hid_eq r hm, ho]
    rcases fixed hm hfixed with h | ⟨h, _⟩
    · simp [offers, show k.offer = true from hgrant] at h
    · simp [hnot] at h
  | true =>
    obtain ⟨m, hm, h⟩ := r.beats n
    have hoff : (ss m).hid.offered = true := by rw [f.hid_eq r hm, ho]
    rcases h with h | ⟨hedge, hready⟩
    · simp [hoff] at h
    · cases he : es m with
      | host mv => simp [he, Event.isEdge] at hedge
      | block => simp [he, Event.isEdge] at hedge
      | clock k =>
        rcases fixed hm (f.edge_eq r hm he) with h | ⟨_, h⟩
        · simp [offers, hoff] at h
        · simp [hready] at h

/-- The additions owed are made in the end: the rightmost may always be made. -/
theorem Frozen.settled {p : Bool} {es : Nat → Event} {ss : Nat → State} {n : Nat} (f : Frozen ss n)
    (r : DutifulRun p es ss) (hp : (ss n).hid.phase = .payload) : (ss n).adders.settled = true := by
  have hrun : (!(ss n).rst && !(ss n).fault) = true := by simp [r.rst n, (r.inv n).fault_of_busy f.busy]
  have fixed {m : Nat} {k : Pace} (hm : n ≤ m) (h : edge p k (ss m) = ss m) :
      ((ss n).hid.vc = true → k.addD = false) ∧ ((ss n).hid.vb = true → (ss n).hid.vc = false → k.addC = false) ∧
      ((ss n).hid.va = true → (ss n).hid.vb = false → k.addB = false) := by
    have hhid := f.hid_eq r hm
    obtain ⟨hadders, -⟩ := payload_of_fixed (r.inv m) (r.rst m) (by rw [hhid, hp]) h
    rw [← hhid]
    exact additions_of_fixed (r.fits m) hadders
  have hvc : (ss n).hid.vc = false := by
    by_contra h
    have h' : (ss n).hid.vc = true := by simpa using h
    obtain ⟨m, k, hm, hgrant, hfixed⟩ := f.granted r .addD (by simp [OwnAction.enabled, hrun, h'])
    exact absurd ((fixed hm hfixed).1 h') (by simpa [Pace.grants] using hgrant)
  have hvb : (ss n).hid.vb = false := by
    by_contra h
    have h' : (ss n).hid.vb = true := by simpa using h
    obtain ⟨m, k, hm, hgrant, hfixed⟩ := f.granted r .addC (by simp [OwnAction.enabled, hrun, h', hvc])
    exact absurd ((fixed hm hfixed).2.1 h' hvc) (by simpa [Pace.grants] using hgrant)
  have hva : (ss n).hid.va = false := by
    by_contra h
    have h' : (ss n).hid.va = true := by simpa using h
    obtain ⟨m, k, hm, hgrant, hfixed⟩ := f.granted r .addB (by simp [OwnAction.enabled, hrun, h', hvb])
    exact absurd ((fixed hm hfixed).2.2 h' hvb) (by simpa [Pace.grants] using hgrant)
  exact (settled_iff _).mpr ⟨hva, hvb, hvc⟩

/-- A byte presented stays presented while the block takes none (R51). -/
theorem Frozen.din_ne_nil {p : Bool} {es : Nat → Event} {ss : Nat → State} {n : Nat} (f : Frozen ss n)
    (r : DutifulRun p es ss) (hd : (ss n).din ≠ []) {m : Nat} (hm : n ≤ m) : (ss m).din ≠ [] := by
  induction m, hm using Nat.le_induction with
  | base => exact hd
  | succ m hm ih =>
    rcases r.event_cases m with ⟨mv, _, h⟩ | ⟨k, hk, h⟩
    · have htaken : (ss m).resetTaken = false :=
        Bool.eq_false_iff.mpr fun ht => absurd ((r.inv m).taken ht) (by simp [r.rst m])
      have hle := (hostMove_presented mv _ _ htaken h).2.length_le
      rw [← List.length_pos_iff] at ih ⊢
      omega
    · rw [← h, f.edge_eq r hm hk]
      exact ih

/-- The payload arrives in the end, by HD7, and is taken, by fairness. -/
theorem Frozen.not_payload {p : Bool} {es : Nat → Event} {ss : Nat → State} {n : Nat} (f : Frozen ss n)
    (r : DutifulRun p es ss) : (ss n).hid.phase ≠ .payload := by
  intro hp
  have hv := f.settled r hp
  have fixed {m : Nat} {k : Pace} (hm : n ≤ m) (h : edge p k (ss m) = ss m) :
      (ss n).hid.remaining ≠ 0#28 ∧ (k.take = false ∨ (ss m).din = []) := by
    have hhid := f.hid_eq r hm
    have hvm : (ss m).adders.settled = true := by
      rw [settled_iff] at hv ⊢
      simpa only [State.adders, hhid] using hv
    have h' := payload_of_fixed_settled (r.inv m) (r.rst m) (by rw [hhid, hp]) hvm h
    rwa [hhid] at h'
  have hrem : (ss n).hid.remaining ≠ 0#28 := by
    obtain ⟨m, hm, hedge⟩ := r.run.clock n
    cases he : es m with
    | host mv => simp [he, Event.isEdge] at hedge
    | block => simp [he, Event.isEdge] at hedge
    | clock k => exact (fixed hm (f.edge_eq r hm he)).1
  obtain ⟨j, hj, hsupply⟩ := r.payload n
  have hd : (ss j).din ≠ [] := by
    rw [f.hid_eq r hj] at hsupply
    exact (hsupply.resolve_right (by simp [hp, hrem]))
  have fj := f.later r hj
  have hva := ((settled_iff _).mp hv).1
  obtain ⟨m, k, hm, hgrant, hfixed⟩ := fj.granted r .take (by
    have hva' : (ss n).hid.va = false := hva
    simp [OwnAction.enabled, r.rst j, (r.inv j).fault_of_busy fj.busy, f.hid_eq r hj, hp, hrem, hva'])
  rcases (fixed (hj.trans hm) hfixed).2 with h | h
  · simp [Pace.grants, h] at hgrant
  · exact fj.din_ne_nil r hd hm h

/-- No command is frozen in a dutiful run. -/
theorem DutifulRun.not_frozen {p : Bool} {es : Nat → Event} {ss : Nat → State} (r : DutifulRun p es ss) (n : Nat) :
    ¬Frozen ss n := by
  intro f
  cases hp : (ss n).hid.phase with
  | idle => exact f.busy hp
  | decode => exact f.not_decode r hp
  | payload => exact f.not_payload r hp
  | response => exact f.not_owing r (.inl hp)
  | digest => exact f.not_owing r (.inr hp)

/-- Every command in progress completes: work that goes on being done comes to an end. -/
theorem DutifulRun.completes {p : Bool} {es : Nat → Event} {ss : Nat → State} (r : DutifulRun p es ss) (n : Nat) :
    ∃ m, n ≤ m ∧ (ss m).hid.phase = .idle := by
  by_cases hp : (ss n).hid.phase = .idle
  · exact ⟨n, Nat.le_refl n, hp⟩
  · have hdone : ∃ j, n ≤ j ∧ (ss j).hid.work < (ss n).hid.work := by
      by_contra hno
      push Not at hno
      exact r.not_frozen n ⟨hp, hno⟩
    obtain ⟨j, hj, hlt⟩ := hdone
    obtain ⟨m, hm, hidle⟩ := r.completes j
    exact ⟨m, hj.trans hm, hidle⟩
termination_by (ss n).hid.work

/-- An event at a command boundary leaves the block there, or is an edge at which `cmd_ready` is 1. -/
theorem DutifulRun.boundary_next {p : Bool} {es : Nat → Event} {ss : Nat → State} (r : DutifulRun p es ss) {n : Nat}
    (h : (ss n).AtBoundary) :
    (∃ k, es n = .clock k ∧ cmdReady k (ss n) = true) ∨
    ((ss (n + 1)).AtBoundary ∧ (ss (n + 1)).ci = (ss n).ci) := by
  rcases r.event_cases n with ⟨mv, _, hm⟩ | ⟨k, hk, he⟩
  · obtain ⟨_, hfault, _, _, hci, hhid, _⟩ := hostMove_block mv _ _ hm
    exact .inr ⟨⟨r.rst (n + 1), hfault.trans h.fault, hhid.trans h.hid⟩, hci⟩
  · cases hready : cmdReady k (ss n) with
    | true => exact .inl ⟨k, hk, hready⟩
    | false =>
      have hfixed : edge p k (ss n) = ss n := by
        unfold edge idleEdge
        rw [h.rst, h.fault, h.hid]
        cases (ss n).cmd <;> simp [Hidden.idle, hready]
      rw [← he, hfixed]
      exact .inr ⟨h, rfl⟩

/-- From a command boundary on, the block stays there with the words it has counted until `cmd_ready` is 1. -/
theorem DutifulRun.boundary_until {p : Bool} {es : Nat → Event} {ss : Nat → State} (r : DutifulRun p es ss) {n m : Nat}
    (h : (ss n).AtBoundary) (hm : n ≤ m) :
    (∃ j k, n ≤ j ∧ es j = .clock k ∧ cmdReady k (ss j) = true ∧ (ss j).ci = (ss n).ci) ∨
    ((ss m).AtBoundary ∧ (ss m).ci = (ss n).ci) := by
  induction m, hm using Nat.le_induction with
  | base => exact .inr ⟨h, rfl⟩
  | succ m hm ih =>
    rcases ih with hdone | ⟨hb, hci⟩
    · exact .inl hdone
    · rcases r.boundary_next hb with ⟨k, hk, hready⟩ | ⟨hb', hci'⟩
      · exact .inl ⟨m, k, hm, hk, hready, hci⟩
      · exact .inr ⟨hb', hci'.trans hci⟩

/-- An idle block that is not halted raises `cmd_ready`, by fairness. -/
theorem DutifulRun.raises_ready {p : Bool} {es : Nat → Event} {ss : Nat → State} (r : DutifulRun p es ss) {n : Nat}
    (h : (ss n).AtBoundary) :
    ∃ m k, n ≤ m ∧ es m = .clock k ∧ cmdReady k (ss m) = true ∧ (ss m).ci = (ss n).ci := by
  obtain ⟨m, hm, hfair⟩ := r.fair .accept n
  rcases r.boundary_until h hm with hdone | ⟨hb, hci⟩
  · exact hdone
  · rcases hfair with hoff | ⟨k, hk, hgrant⟩
    · simp [OwnAction.enabled, hb.rst, hb.fault, hb.hid, Hidden.idle] at hoff
    · exact ⟨m, k, hm, hk, (cmdReady_iff k _).mpr ⟨hgrant, hb.rst, hb.fault, by rw [hb.hid]; rfl⟩, hci⟩

/-- Settles O56: the bounded clause by what a step reaches, the clause on runs by fairness and the host's duties. -/
theorem dutifulHostCompletesCommands : Obligations.DutifulHostCompletesCommands := by
  refine ⟨fun s p hs hfits hr hf hrsp hdout hlen hp => ?_, fun p es ss hs hfits hrun hfair hpay hbeats hr => ?_⟩
  · obtain ⟨n, hn⟩ := edges_reach_resume p s hs hfits hr
    exact ⟨n, _, step_of_busy s hr hf hp, hn, resume_boundary hs hr hrsp hdout hlen⟩
  · have hkept (n : Nat) : (ss n).Inv ∧ (ss n).Fits p := by
      induction n with
      | zero => exact ⟨hs, hfits⟩
      | succ n ih => exact ⟨event_inv ih.1 (hrun.next n), event_fits ih.2 (hrun.next n)⟩
    have r : DutifulRun p es ss := ⟨fun n => (hkept n).1, fun n => (hkept n).2, hr, hrun, hfair, hpay, hbeats⟩
    exact ⟨r.completes, fun n h => r.raises_ready h⟩

end Sys2Proof.Machine

/-! PROOF. Lists of commands, over a payload that is all there and ready sinks (spec/10_state.md R22;
spec/42_readout.md R153, R157; spec/43_constants.md R173). -/

namespace Sys2Proof.Machine

theorem le_of_wellFormed {len : Nat} (h : (Instr.write len).WellFormed) : len ≤ 268435455 := of_decide_eq_true h

/-- Settles O20: by the closed form of a `WRITE` whose payload is all there. -/
theorem writeFoldsItsPayload : Obligations.WriteFoldsItsPayload := exec_write_of_boundary

/-- What a command leaves of a block at a command boundary, with its payload presented and ready sinks. -/
def State.ran (i : Instr) (s : State) : State :=
  match i with
  | .reset => { s with acc := Acc.zero }
  | .write len =>
    if misaligned len then raiseFault 1#2 (encode (.write len)) s
    else { s.foldPayload len with rsp := s.rsp ++ [BitVec.ofNat 64 len] }
  | .sum => { s with dout := s.dout ++ digest s.acc }
  | .sumw => { s with rsp := s.rsp ++ [s.acc.a, s.acc.b, s.acc.c, s.acc.d] }
  | .size => { s with rsp := s.rsp ++ [32#64] }
  | .blksz => { s with rsp := s.rsp ++ [4#64] }

theorem State.ran_write_of_misaligned {len : Nat} (h : misaligned len = true) (s : State) :
    s.ran (.write len) = raiseFault 1#2 (encode (.write len)) s := by
  simp [State.ran, h]

theorem State.ran_write_of_aligned {len : Nat} (h : misaligned len = false) (s : State) :
    s.ran (.write len) = { s.foldPayload len with rsp := s.rsp ++ [BitVec.ofNat 64 len] } := by
  simp [State.ran, h]

/-- A command boundary with both sinks ready: where each command of a list starts. -/
structure State.Ready (s : State) : Prop where
  boundary : s.AtBoundary
  rsp : s.rspReady = true
  dout : s.doutReady = true

theorem State.Ready.accept {s : State} (hs : s.Ready) (rest : List Word32) : (acceptCommand rest s).Ready :=
  ⟨acceptCommand_boundary rest s hs.boundary, hs.rsp, hs.dout⟩

/-- The fault of a `WRITE` whose length is no multiple of 4, from any state (R121). -/
theorem exec_write_faults {len : Nat} (hmax : len ≤ 268435455) (h : len % 4 ≠ 0) (s : State) :
    exec (.write len) s = .next (raiseFault 1#2 (encode (.write len)) s) := by
  rw [exec_write_eq len s hmax, beginWrite_of_misaligned len s h, advance_of_idle _ rfl]

theorem exec_of_ready (i : Instr) (s : State) (hs : s.Ready) (hwf : i.WellFormed)
    (hlen : payloadOf [i] ≤ s.din.length) :
    exec i s = .next (s.ran i) := by
  obtain ⟨hb, hr, hd⟩ := hs
  cases i with
  | reset => exact exec_reset_of_boundary s hb
  | write len =>
    have hmax := le_of_wellFormed hwf
    cases h : misaligned len with
    | true =>
      rw [State.ran_write_of_misaligned h]
      exact exec_write_faults hmax ((misaligned_iff len).mp h) s
    | false =>
      rw [State.ran_write_of_aligned h]
      exact exec_write_of_boundary s len hb hr (by simpa [misaligned, Config.wordBytes] using h) hmax
        (by simpa [payloadOf, h] using hlen)
  | sum => exact exec_sum_of_boundary s hb hd
  | sumw => exact exec_sumw_of_boundary s hb hr
  | size => exact exec_size_of_boundary s hb hr
  | blksz => exact exec_blksz_of_boundary s hb hr

/-- The step that takes the word of such a command. -/
theorem step_of_ready (i : Instr) (s : State) (rest : List Word32) (hs : s.Ready) (hwf : i.WellFormed)
    (hlen : payloadOf [i] ≤ s.din.length) (hc : s.cmd = encode i :: rest) :
    step s = .next ((acceptCommand rest s).ran i) := by
  rw [step_of_boundary s _ rest hs.boundary hc, executeWord_of_decode _ i _ (decode_encode i hwf)]
  exact exec_of_ready i (acceptCommand rest s) (hs.accept rest) hwf hlen

/-- The command that ends a list, for good: a `WRITE` that faults (R121). -/
def faultsAtDecode : Instr → Bool
  | .write len => misaligned len
  | .reset => false
  | .sum => false
  | .sumw => false
  | .size => false
  | .blksz => false

/-- Any other command leaves the block ready for the next. -/
theorem State.Ready.ran {s : State} (hs : s.Ready) {i : Instr} (hi : faultsAtDecode i = false) : (s.ran i).Ready := by
  obtain ⟨⟨hrst, hf, hhid⟩, hr, hd⟩ := hs
  cases i with
  | write len =>
    rw [State.ran_write_of_aligned hi]
    exact ⟨⟨hrst, hf, hhid⟩, hr, hd⟩
  | reset => exact ⟨⟨hrst, hf, hhid⟩, hr, hd⟩
  | sum => exact ⟨⟨hrst, hf, hhid⟩, hr, hd⟩
  | sumw => exact ⟨⟨hrst, hf, hhid⟩, hr, hd⟩
  | size => exact ⟨⟨hrst, hf, hhid⟩, hr, hd⟩
  | blksz => exact ⟨⟨hrst, hf, hhid⟩, hr, hd⟩

theorem State.ran_of_faults {i : Instr} (hi : faultsAtDecode i = true) (s : State) :
    s.ran i = raiseFault 1#2 (encode i) s := by
  cases i with
  | write len => exact State.ran_write_of_misaligned hi s
  | _ => cases hi

theorem State.ran_cmd (i : Instr) (s : State) : (s.ran i).cmd = s.cmd := by
  cases i with
  | write len => simp only [State.ran]; split <;> rfl
  | _ => rfl

theorem payloadOf_of_faults {i : Instr} (hi : faultsAtDecode i = true) (is : List Instr) : payloadOf (i :: is) = 0 := by
  cases i with
  | write len => exact if_pos hi
  | _ => cases hi

/-- The payload of a list is that of its first command and that of the rest. -/
theorem payloadOf_cons {i : Instr} (hi : faultsAtDecode i = false) (is : List Instr) :
    payloadOf (i :: is) = payloadOf [i] + payloadOf is := by
  cases i with
  | write len => simp [payloadOf, show misaligned len = false from hi]
  | _ => simp [payloadOf]

/-- A command takes its payload from DIN, and nothing else. -/
theorem State.ran_din {i : Instr} (hi : faultsAtDecode i = false) (s : State) :
    (s.ran i).din = s.din.drop (payloadOf [i]) := by
  cases i with
  | write len =>
    have h : misaligned len = false := hi
    simp [State.ran_write_of_aligned h, State.foldPayload, payloadOf, h]
  | _ => rfl

theorem payloadOf_head_le {i : Instr} {is : List Instr} {n : Nat} (h : payloadOf (i :: is) ≤ n) :
    payloadOf [i] ≤ n := by
  cases hi : faultsAtDecode i with
  | true => rw [payloadOf_of_faults hi]; exact Nat.zero_le n
  | false => rw [payloadOf_cons hi] at h; omega

/-- What is left on DIN after a command is enough for the rest of the list. -/
theorem payloadOf_tail_le {i : Instr} (hi : faultsAtDecode i = false) {is : List Instr} {s : State}
    (h : payloadOf (i :: is) ≤ s.din.length) : payloadOf is ≤ (s.ran i).din.length := by
  rw [payloadOf_cons hi] at h
  rw [State.ran_din hi, List.length_drop]
  omega

/-- A halted block stays as it is, however many steps it is given (R187). -/
theorem steps_of_fault (n : Nat) (s : State) (hr : s.rst = false) (hf : s.fault = true) : steps n s = some s := by
  induction n with
  | zero => rfl
  | succ n ih => rw [steps_succ n s s (step_of_fault s hr hf), ih]

/-- The words since the last reset, by one command (R22). -/
def wordsAfter (ws : List Word32) (i : Instr) (din : List Byte) : List Word32 :=
  match i with
  | .reset => []
  | .write len => ws ++ wordsOf (din.take len)
  | .sum => ws
  | .sumw => ws
  | .size => ws
  | .blksz => ws

theorem wordsSince_cons {i : Instr} (hi : faultsAtDecode i = false) (ws : List Word32) (is : List Instr)
    (din : List Byte) :
    wordsSince ws (i :: is) din = wordsSince (wordsAfter ws i din) is (din.drop (payloadOf [i])) := by
  cases i with
  | write len => simp [wordsSince, wordsAfter, payloadOf, show misaligned len = false from hi]
  | _ => rfl

theorem wordsSince_of_faults {i : Instr} (hi : faultsAtDecode i = true) (ws : List Word32) (is : List Instr)
    (din : List Byte) : wordsSince ws (i :: is) din = ws := by
  cases i with
  | write len => exact if_pos hi
  | _ => cases hi

theorem State.ran_acc {i : Instr} (hi : faultsAtDecode i = false) {s : State} {ws : List Word32}
    (h : s.acc = foldAll Acc.zero ws) : (s.ran i).acc = foldAll Acc.zero (wordsAfter ws i s.din) := by
  cases i with
  | reset => rfl
  | write len =>
    rw [State.ran_write_of_aligned hi, wordsAfter, foldAll_append, ← h]
    rfl
  | _ => exact h

/-- Settles O35: by induction on the commands; each leaves the block ready for the next with its words folded, or halts
it. -/
theorem accumulatorsFoldWordsSinceReset : Obligations.AccumulatorsFoldWordsSinceReset := by
  intro s cs ws hb hr hd hwf hlen hacc hcmd
  induction cs generalizing s ws with
  | nil => exact ⟨s, rfl, hacc⟩
  | cons i is ih =>
    have hs : s.Ready := ⟨hb, hr, hd⟩
    have hstep := step_of_ready i s (is.map encode) hs (hwf i List.mem_cons_self) (payloadOf_head_le hlen) hcmd
    rw [List.length_cons, steps_succ _ _ _ hstep]
    cases hi : faultsAtDecode i with
    | true =>
      rw [State.ran_of_faults hi, wordsSince_of_faults hi]
      exact ⟨_, steps_of_fault _ (raiseFault _ _ (acceptCommand _ s)) hb.rst rfl, hacc⟩
    | false =>
      obtain ⟨hb', hr', hd'⟩ := (hs.accept (is.map encode)).ran hi
      have hnext := ih _ (wordsAfter ws i s.din) hb' hr' hd' (fun j hj => hwf j (List.mem_cons_of_mem i hj))
        (payloadOf_tail_le (s := acceptCommand (is.map encode) s) hi hlen)
        (State.ran_acc (s := acceptCommand (is.map encode) s) hi hacc) (State.ran_cmd i _)
      rwa [State.ran_din hi, acceptCommand_din, ← wordsSince_cons hi] at hnext

/-- A command that answers and changes no register: deleting it deletes its answer. -/
abbrev ReadsOut (k : Instr) : Prop := k = .sum ∨ k = .sumw ∨ k = .size ∨ k = .blksz

/-- The block `t` of a list of commands against the block `u` of the same list without the commands `k`: only answers of
`k` are missing from the channel it answers on. -/
structure SameButAnswers (k : Instr) (t u : State) : Prop where
  acc : u.acc = t.acc
  din : u.din = t.din
  fault : u.fault = t.fault
  cause : u.cause = t.cause
  finfo : u.finfo = t.finfo
  rsp : u.rsp.Sublist t.rsp
  dout : u.dout.Sublist t.dout
  rspEq : k = .sum → u.rsp = t.rsp
  doutEq : k ≠ .sum → u.dout = t.dout

/-- A command that both run, it runs alike. -/
theorem SameButAnswers.ran {k : Instr} {t u : State} (h : SameButAnswers k t u) (i : Instr) :
    SameButAnswers k (t.ran i) (u.ran i) := by
  obtain ⟨hacc, hdin, hfault, hcause, hfinfo, hrsp, hdout, hrspEq, hdoutEq⟩ := h
  have answers (vs : List Word64) : (u.rsp ++ vs).Sublist (t.rsp ++ vs) ∧ (k = .sum → u.rsp ++ vs = t.rsp ++ vs) :=
    ⟨hrsp.append (List.Sublist.refl vs), fun hk => by rw [hrspEq hk]⟩
  cases i with
  | reset => exact ⟨rfl, hdin, hfault, hcause, hfinfo, hrsp, hdout, hrspEq, hdoutEq⟩
  | write len =>
    simp only [State.ran]
    split
    · exact ⟨hacc, hdin, rfl, rfl, rfl, hrsp, hdout, hrspEq, hdoutEq⟩
    · refine ⟨?_, ?_, hfault, hcause, hfinfo, (answers _).1, hdout, (answers _).2, hdoutEq⟩
      · simp only [State.foldPayload, hacc, hdin]
      · simp only [State.foldPayload, hdin]
  | sum =>
    refine ⟨hacc, hdin, hfault, hcause, hfinfo, hrsp, ?_, hrspEq, fun hk => ?_⟩
    · simp only [State.ran, hacc]
      exact hdout.append (List.Sublist.refl _)
    · simp only [State.ran, hacc, hdoutEq hk]
  | sumw =>
    simp only [State.ran, hacc]
    exact ⟨rfl, hdin, hfault, hcause, hfinfo, (answers _).1, hdout, (answers _).2, hdoutEq⟩
  | size => exact ⟨hacc, hdin, hfault, hcause, hfinfo, (answers _).1, hdout, (answers _).2, hdoutEq⟩
  | blksz => exact ⟨hacc, hdin, hfault, hcause, hfinfo, (answers _).1, hdout, (answers _).2, hdoutEq⟩

/-- A command that only the first runs leaves an answer more in it. -/
theorem SameButAnswers.ran_left {k : Instr} {t u : State} (h : SameButAnswers k t u) (hk : ReadsOut k) :
    SameButAnswers k (t.ran k) u := by
  obtain ⟨hacc, hdin, hfault, hcause, hfinfo, hrsp, hdout, hrspEq, hdoutEq⟩ := h
  have longer {α : Type} {xs ys : List α} (zs : List α) (h : xs.Sublist ys) : xs.Sublist (ys ++ zs) :=
    h.trans (List.sublist_append_left ys zs)
  rcases hk with rfl | rfl | rfl | rfl
  · exact ⟨hacc, hdin, hfault, hcause, hfinfo, hrsp, longer _ hdout, hrspEq, fun h => absurd rfl h⟩
  · exact ⟨hacc, hdin, hfault, hcause, hfinfo, longer _ hrsp, hdout, nofun, hdoutEq⟩
  · exact ⟨hacc, hdin, hfault, hcause, hfinfo, longer _ hrsp, hdout, nofun, hdoutEq⟩
  · exact ⟨hacc, hdin, hfault, hcause, hfinfo, longer _ hrsp, hdout, nofun, hdoutEq⟩

/-- Accepting a word shows in none of what the two blocks are compared by. -/
theorem SameButAnswers.accept_left {k : Instr} {t u : State} (h : SameButAnswers k t u) (rest : List Word32) :
    SameButAnswers k (acceptCommand rest t) u :=
  ⟨h.acc, h.din, h.fault, h.cause, h.finfo, h.rsp, h.dout, h.rspEq, h.doutEq⟩

theorem SameButAnswers.accept_right {k : Instr} {t u : State} (h : SameButAnswers k t u) (rest : List Word32) :
    SameButAnswers k t (acceptCommand rest u) :=
  ⟨h.acc, h.din, h.fault, h.cause, h.finfo, h.rsp, h.dout, h.rspEq, h.doutEq⟩

/-- A list of commands and the list without the commands `k`, each over a ready block. -/
theorem steps_without (k : Instr) (hk : ReadsOut k) (cs : List Instr) (t u : State) (ht : t.Ready) (hu : u.Ready)
    (hwf : ∀ i ∈ cs, i.WellFormed) (hlen : payloadOf cs ≤ t.din.length) (h : SameButAnswers k t u)
    (htc : t.cmd = cs.map encode) (huc : u.cmd = (cs.filter (· ≠ k)).map encode) :
    ∃ t' u', steps cs.length t = some t' ∧ steps (cs.filter (· ≠ k)).length u = some u' ∧ SameButAnswers k t' u' := by
  induction cs generalizing t u with
  | nil => exact ⟨t, u, rfl, rfl, h⟩
  | cons i is ih =>
    have hwfTail : ∀ j ∈ is, j.WellFormed := fun j hj => hwf j (List.mem_cons_of_mem i hj)
    have hstep := step_of_ready i t (is.map encode) ht (hwf i List.mem_cons_self) (payloadOf_head_le hlen) htc
    rw [List.length_cons, steps_succ _ _ _ hstep]
    by_cases hik : i = k
    · subst hik
      have hi : faultsAtDecode i = false := by rcases hk with rfl | rfl | rfl | rfl <;> rfl
      simp only [ne_eq, decide_not, List.filter_cons, decide_true, Bool.not_true, Bool.false_eq_true, if_false] at huc ⊢
      simp only [ne_eq, decide_not] at ih
      exact ih _ u ((ht.accept _).ran hi) hu hwfTail
        (payloadOf_tail_le (s := acceptCommand (is.map encode) t) hi hlen)
        ((h.accept_left _).ran_left hk) (State.ran_cmd i _) huc
    · have hfilter : (i :: is).filter (· ≠ k) = i :: is.filter (· ≠ k) := List.filter_cons_of_pos (by simpa using hik)
      rw [hfilter] at huc ⊢
      have hustep := step_of_ready i u _ hu (hwf i List.mem_cons_self) (by rw [h.din]; exact payloadOf_head_le hlen) huc
      rw [List.length_cons, steps_succ _ _ _ hustep]
      have hnext := ((h.accept_left (is.map encode)).accept_right ((is.filter (· ≠ k)).map encode)).ran i
      cases hi : faultsAtDecode i with
      | true =>
        rw [State.ran_of_faults hi, State.ran_of_faults hi]
        refine ⟨_, _, steps_of_fault _ (raiseFault _ _ (acceptCommand _ t)) ht.boundary.rst rfl,
          steps_of_fault _ (raiseFault _ _ (acceptCommand _ u)) hu.boundary.rst rfl, ?_⟩
        rwa [State.ran_of_faults hi, State.ran_of_faults hi] at hnext
      | false =>
        exact ih _ _ ((ht.accept _).ran hi) ((hu.accept _).ran hi) hwfTail
          (payloadOf_tail_le (s := acceptCommand (is.map encode) t) hi hlen) hnext (State.ran_cmd i _)
          (State.ran_cmd i _)

theorem steps_without_of_boundary (s : State) (cs : List Instr) (k : Instr) (hk : ReadsOut k) (hb : s.AtBoundary)
    (hr : s.rspReady = true) (hd : s.doutReady = true) (hwf : ∀ i ∈ cs, i.WellFormed)
    (hlen : payloadOf cs ≤ s.din.length) :
    ∃ t u, steps cs.length { s with cmd := cs.map encode } = some t ∧
      steps (cs.filter (· ≠ k)).length { s with cmd := (cs.filter (· ≠ k)).map encode } = some u ∧
      SameButAnswers k t u :=
  have ready (c : List Word32) : State.Ready { s with cmd := c } := ⟨⟨hb.rst, hb.fault, hb.hid⟩, hr, hd⟩
  steps_without k hk cs _ _ (ready _) (ready _) hwf hlen
    ⟨rfl, rfl, rfl, rfl, rfl, List.Sublist.refl _, List.Sublist.refl _, fun _ => rfl, fun _ => rfl⟩ rfl rfl

/-- Settles O36: the three commands answer on RSP, so DOUT is the same. -/
theorem deletingResponsesChangesOnlyBeats : Obligations.DeletingResponsesChangesOnlyBeats := by
  intro s cs k hk hb hr hd hwf hlen
  obtain ⟨t, u, ht, hu, h⟩ := steps_without_of_boundary s cs k (.inr hk) hb hr hd hwf hlen
  have hne : k ≠ .sum := by rcases hk with rfl | rfl | rfl <;> simp
  exact ⟨t, u, ht, hu, h.acc, h.doutEq hne, h.din, h.fault, h.cause, h.finfo, h.rsp⟩

/-- Settles O37: `SUM` answers on DOUT, so RSP is the same. -/
theorem deletingSumsChangesOnlyDigests : Obligations.DeletingSumsChangesOnlyDigests := by
  intro s cs hb hr hd hwf hlen
  obtain ⟨t, u, ht, hu, h⟩ := steps_without_of_boundary s cs .sum (.inl rfl) hb hr hd hwf hlen
  exact ⟨t, u, ht, hu, h.acc, h.rspEq rfl, h.din, h.fault, h.cause, h.finfo, h.dout⟩

end Sys2Proof.Machine

/-! PROOF. A `WRITE` whose payload or sink is not there yet, and answers that wait (spec/41_write.md R137;
spec/60_exceptions.md R194; spec/20_memory.md R52). -/

namespace Sys2Proof.Machine

/-- The state with other bytes presented on DIN. -/
def State.withDin (s : State) (bs : List Byte) : State := { s with din := bs }

theorem consumePayload_of_payloadNow {s : State} {n : Nat} (h : s.payloadNow = n) :
    consumePayload s =
      { s with
        acc := (feedBytes (s.acc, s.hid.held) (s.din.take n)).1
        din := s.din.drop n
        hid :=
          { s.hid with
            held := (feedBytes (s.acc, s.hid.held) (s.din.take n)).2
            remaining := BitVec.ofNat 28 (s.hid.remaining.toNat - n) } } := by
  subst h
  rfl

/-- What is presented of a payload is consumed at once, or, while it is not all there, in two parts. -/
theorem consumePayload_append (s : State) (q : List Byte) (h : s.din.length ≤ s.hid.remaining.toNat) :
    consumePayload ((consumePayload s).withDin q) = consumePayload (s.withDin (s.din ++ q)) := by
  have hlt := s.hid.remaining.isLt
  have hnow : s.payloadNow = s.din.length := Nat.min_eq_right h
  have hrem : (BitVec.ofNat 28 (s.hid.remaining.toNat - s.din.length)).toNat =
      s.hid.remaining.toNat - s.din.length := by rw [BitVec.toNat_ofNat, Nat.mod_eq_of_lt (by omega)]
  have hlater : ((consumePayload s).withDin q).payloadNow =
      min (s.hid.remaining.toNat - s.din.length) q.length := by
    rw [← hrem, ← hnow]
    rfl
  have hwhole : (s.withDin (s.din ++ q)).payloadNow =
      s.din.length + min (s.hid.remaining.toNat - s.din.length) q.length := by
    simp only [State.payloadNow, State.withDin, List.length_append]
    omega
  rw [consumePayload_of_payloadNow hlater, consumePayload_of_payloadNow hwhole]
  simp only [State.withDin, consumePayload_acc, consumePayload_hid, hnow, hrem, List.take_length,
    List.take_length_add_append, List.drop_length_add_append, feedBytes_append, Nat.sub_add_eq]
  rfl

/-- The payload phase with no addition owed. -/
theorem advancePayload_of_settled {s : State} (h : s.adders.settled = true) :
    advancePayload s =
      if (consumePayload s).hid.remaining = 0#28 then advanceResponse (payloadDone (consumePayload s))
      else consumePayload s := by
  simp only [advancePayload, settleAdders_of_settled s h]

/-- A `WRITE` that wants more bytes than are there takes those and waits (R137). -/
theorem advance_beginWrite_of_short (s : State) (len : Nat) (h4 : len % 4 = 0) (hmax : len ≤ 268435455)
    (hshort : s.din.length < len) :
    advance (beginWrite len s) = consumePayload (beginWrite len s) := by
  have hbegin := beginWrite_of_aligned len s h4 (by omega)
  have hrem : (beginWrite len s).hid.remaining.toNat = len := by
    rw [hbegin, BitVec.toNat_ofNat, Nat.mod_eq_of_lt (by omega)]
  have hdin : (beginWrite len s).din = s.din := by rw [hbegin]
  have hnow : (beginWrite len s).payloadNow = s.din.length := by
    rw [State.payloadNow, hrem, hdin, Nat.min_eq_right (Nat.le_of_lt hshort)]
  have hmissing : (consumePayload (beginWrite len s)).hid.remaining ≠ 0#28 := by
    simp only [consumePayload_hid, hrem, hnow]
    intro h0
    have h := congrArg BitVec.toNat h0
    rw [BitVec.toNat_ofNat, Nat.mod_eq_of_lt (by omega), BitVec.toNat_zero] at h
    omega
  rw [advance_of_payload _ (by rw [hbegin]), advancePayload_of_settled (by rw [hbegin]; rfl), if_neg hmissing]

/-- Settles O25: the bytes that are there pass the assembler. -/
theorem shortPayloadWaits : Obligations.ShortPayloadWaits := by
  intro s len _ h4 hmax hshort
  have hrem : (BitVec.ofNat 28 len).toNat = len := by rw [BitVec.toNat_ofNat, Nat.mod_eq_of_lt (by omega)]
  have hnow : (beginWrite len s).payloadNow = s.din.length := by
    rw [beginWrite_of_aligned len s h4 (by omega), State.payloadNow, hrem, Nat.min_eq_right (Nat.le_of_lt hshort)]
  rw [exec_write_eq len s hmax, advance_beginWrite_of_short s len h4 hmax hshort, consumePayload_of_payloadNow hnow,
    beginWrite_of_aligned len s h4 (by omega)]
  simp only [Hidden.idle, List.take_length, List.drop_length, feedBytes_eq, hrem]
  rfl

/-- Inside the payload phase with no addition owed a step consumes what has come since. -/
theorem step_of_payload {s : State} (hr : s.rst = false) (hf : s.fault = false) (hp : s.hid.phase = .payload) :
    step s = .next (advancePayload s) := by
  rw [step_of_busy s hr hf (by simp [hp]), resume_of_not_decode s (by simp [hp]), advance_of_payload s hp]

/-- Settles O26: consuming in two parts is consuming at once, and the phase ends alike. -/
theorem latePayloadCompletesTheWrite : Obligations.LatePayloadCompletesTheWrite := by
  intro s len q hb hr h4 hmax hshort hlen
  have hbegin := beginWrite_of_aligned len s h4 (by omega)
  have hwhole : beginWrite len (s.withDin (s.din ++ q)) = (beginWrite len s).withDin ((beginWrite len s).din ++ q) := by
    rw [hbegin, beginWrite_of_aligned len _ h4 (by omega)]
    rfl
  have happend : consumePayload ((consumePayload (beginWrite len s)).withDin q) =
      consumePayload (beginWrite len (s.withDin (s.din ++ q))) := by
    rw [hwhole]
    refine consumePayload_append _ q ?_
    rw [hbegin, BitVec.toNat_ofNat, Nat.mod_eq_of_lt (by omega)]
    exact Nat.le_of_lt hshort
  refine ⟨_, (exec_write_eq len s hmax).trans
    (congrArg Host.Outcome.next (advance_beginWrite_of_short s len h4 hmax hshort)), ?_⟩
  calc step ((consumePayload (beginWrite len s)).withDin q)
    _ = .next (advancePayload ((consumePayload (beginWrite len s)).withDin q)) :=
      step_of_payload (by rw [hbegin]; exact hb.rst) (by rw [hbegin]; exact hb.fault) (by rw [hbegin]; rfl)
    _ = .next (advancePayload (beginWrite len (s.withDin (s.din ++ q)))) := by
      rw [advancePayload_of_settled (by rw [hbegin]; rfl), happend,
        advancePayload_of_settled (by rw [hwhole, hbegin]; rfl)]
    _ = exec (.write len) (s.withDin (s.din ++ q)) := by
      rw [exec_write_eq len _ hmax, advance_of_payload _ (by rw [hwhole, hbegin]; rfl)]

/-- A command that answers on RSP, begun at a command boundary with the sink not ready: its first beat is offered. -/
theorem advance_startCommand_response_waits (c : Word32) (s : State) (hr : s.rspReady = false) :
    advance (startCommand .response c s) =
      { s with hid := { Hidden.idle with phase := .response, cmdWord := some c, offered := true } } := by
  rw [advance_of_response _ rfl, advanceResponse_of_not_ready (startCommand .response c s) hr]
  rfl

theorem advance_startCommand_digest_waits (c : Word32) (s : State) (hd : s.doutReady = false) :
    advance (startCommand .digest c s) =
      { s with hid := { Hidden.idle with phase := .digest, cmdWord := some c, offered := true } } := by
  rw [advance_of_digest _ rfl, advanceDigest_of_not_ready (startCommand .digest c s) hd]
  rfl

/-- When the sink is ready at last, the answer is that to a ready sink (R52). -/
theorem step_of_response_waiting (c : Word32) (s : State) (h : s.AtBoundary) (hr : s.rspReady = false) :
    step { advance (startCommand .response c s) with rspReady := true } =
      .next (advance (startCommand .response c { s with rspReady := true })) := by
  rw [advance_startCommand_response_waits c s hr]
  have hbusy := step_of_busy
    { s with hid := { Hidden.idle with phase := .response, cmdWord := some c, offered := true }, rspReady := true }
    h.rst h.fault (by simp)
  rw [hbusy, resume_of_not_decode _ (by simp)]
  exact congrArg Host.Outcome.next (advanceResponse_offerBeat (startCommand .response c { s with rspReady := true }))

theorem step_of_digest_waiting (c : Word32) (s : State) (h : s.AtBoundary) (hd : s.doutReady = false) :
    step { advance (startCommand .digest c s) with doutReady := true } =
      .next (advance (startCommand .digest c { s with doutReady := true })) := by
  rw [advance_startCommand_digest_waits c s hd]
  have hbusy := step_of_busy
    { s with hid := { Hidden.idle with phase := .digest, cmdWord := some c, offered := true }, doutReady := true }
    h.rst h.fault (by simp)
  rw [hbusy, resume_of_not_decode _ (by simp)]
  exact congrArg Host.Outcome.next (advanceDigest_offerBeat (startCommand .digest c { s with doutReady := true }))

/-- Settles O27: with its payload folded, a `WRITE` is a command that answers its length. -/
theorem writeResponseWaitsForSink : Obligations.WriteResponseWaitsForSink := by
  intro s len hb hr h4 hmax hlen
  have hfolded : (s.foldPayload len).AtBoundary := ⟨hb.rst, hb.fault, hb.hid⟩
  refine ⟨_, (exec_write_eq len s hmax).trans
    (congrArg Host.Outcome.next (advance_beginWrite_of_whole s len h4 hmax hlen)),
    advance_startCommand_response_waits _ (s.foldPayload len) hr, ?_⟩
  rw [step_of_response_waiting _ _ hfolded hr, exec_write_eq len _ hmax,
    advance_beginWrite_of_whole { s with rspReady := true } len h4 hmax hlen]
  rfl

/-- The commands that answer on RSP and take no payload are, once decoded, in their response phase. -/
theorem exec_answers (i : Instr) (h : i = .sumw ∨ i = .size ∨ i = .blksz) (s : State) :
    exec i s = .next (advance (startCommand .response (encode i) s)) := by
  rcases h with rfl | rfl | rfl <;> rfl

/-- Settles O34: each of the four commands is a phase that answers, and waits. -/
theorem answersWaitForTheirSink : Obligations.AnswersWaitForTheirSink := by
  refine ⟨fun s i hi hb hr => ?_, fun s hb hd => ?_⟩
  · exact ⟨_, exec_answers i hi s, advance_startCommand_response_waits _ s hr,
      (step_of_response_waiting _ s hb hr).trans (exec_answers i hi _).symm⟩
  · exact ⟨_, rfl, advance_startCommand_digest_waits _ s hd, step_of_digest_waiting _ s hb hd⟩

end Sys2Proof.Machine

/-! PROOF. What a step and a command are, and what they depend on (spec/30_encoding.md R86; spec/10_state.md R25, R39;
spec/40_reset_cmd.md R112). -/

namespace Sys2Proof.Machine

/-- The state after a command that set the accumulators to `x`, took `n` payload bytes, sent `vs` and `bs`, and left the
hidden state `h`. -/
def State.moved (s : State) (x : Acc) (n : Nat) (h : Hidden) (vs : List Word64) (bs : List Byte) : State :=
  { s with acc := x, din := s.din.drop n, hid := h, rsp := s.rsp ++ vs, dout := s.dout ++ bs }

/-- A command that answers on RSP answers the same, or waits in the same state, from equal accumulators. -/
theorem advance_response_moved (c : Word32) {s r : State} (hs : s.AtBoundary) (hr : r.AtBoundary) (hacc : r.acc = s.acc)
    (hready : r.rspReady = s.rspReady) :
    ∃ h vs, advance (startCommand .response c s) = s.moved s.acc 0 h vs [] ∧
      advance (startCommand .response c r) = r.moved s.acc 0 h vs [] := by
  cases hrsp : s.rspReady with
  | true =>
    refine ⟨Hidden.idle, responseBeats s.acc c, ?_, ?_⟩
    · rw [advance_startCommand_response c s hs hrsp, ← hs.hid]
      simp [State.moved]
    · rw [advance_startCommand_response c r hr (hready.trans hrsp), ← hr.hid, ← hacc]
      simp [State.moved]
  | false =>
    refine ⟨{ Hidden.idle with phase := .response, cmdWord := some c, offered := true }, [], ?_, ?_⟩
    · rw [advance_startCommand_response_waits c s hrsp]
      simp [State.moved]
    · rw [advance_startCommand_response_waits c r (hready.trans hrsp), ← hacc]
      simp [State.moved]

theorem advance_digest_moved (c : Word32) {s r : State} (hs : s.AtBoundary) (hr : r.AtBoundary) (hacc : r.acc = s.acc)
    (hready : r.doutReady = s.doutReady) :
    ∃ h bs, advance (startCommand .digest c s) = s.moved s.acc 0 h [] bs ∧
      advance (startCommand .digest c r) = r.moved s.acc 0 h [] bs := by
  cases hdout : s.doutReady with
  | true =>
    refine ⟨Hidden.idle, digest s.acc, ?_, ?_⟩
    · rw [advance_startCommand_digest c s hs hdout, ← hs.hid]
      simp [State.moved]
    · rw [advance_startCommand_digest c r hr (hready.trans hdout), ← hr.hid, ← hacc]
      simp [State.moved]
  | false =>
    refine ⟨{ Hidden.idle with phase := .digest, cmdWord := some c, offered := true }, [], ?_, ?_⟩
    · rw [advance_startCommand_digest_waits c s hdout]
      simp [State.moved]
    · rw [advance_startCommand_digest_waits c r (hready.trans hdout), ← hacc]
      simp [State.moved]

/-- A `WRITE` takes the same, folds the same and answers or waits alike over the same payload, all there or not. -/
theorem exec_write_moved (len : Nat) {s r : State} (hmax : len ≤ 268435455) (h4 : len % 4 = 0) (hs : s.AtBoundary)
    (hr : r.AtBoundary) (hacc : r.acc = s.acc) (hdin : r.din.take len = s.din.take len)
    (hready : r.rspReady = s.rspReady) :
    ∃ x n h vs, n ≤ s.din.length ∧ n ≤ r.din.length ∧ exec (.write len) s = .next (s.moved x n h vs []) ∧
      exec (.write len) r = .next (r.moved x n h vs []) := by
  have hlen : min len r.din.length = min len s.din.length := by simpa using congrArg List.length hdin
  by_cases hshort : s.din.length < len
  · have hsame : r.din = s.din := by
      rwa [List.take_of_length_le (by omega), List.take_of_length_le (by omega)] at hdin
    refine ⟨foldAll s.acc (wordsOf s.din), s.din.length,
      { Hidden.idle with
        phase := .payload
        cmdWord := some (BitVec.ofNat 32 (0x20000000 + len))
        held := s.din.drop (4 * (s.din.length / 4))
        remaining := BitVec.ofNat 28 (len - s.din.length) }, [], Nat.le_refl _, by rw [hsame], ?_, ?_⟩
    · rw [shortPayloadWaits s len hs h4 hmax hshort]
      simp only [State.moved, List.append_nil, List.drop_length]
    · rw [shortPayloadWaits r len hr h4 hmax (by rwa [hsame]), hacc, hsame]
      simp only [State.moved, List.append_nil, hsame, List.drop_length]
  · have hwhole : len ≤ s.din.length := by omega
    have hwhole' : len ≤ r.din.length := by omega
    have hfolded : (r.foldPayload len).acc = (s.foldPayload len).acc := by simp only [State.foldPayload, hacc, hdin]
    obtain ⟨h, vs, e, e'⟩ := advance_response_moved (encode (.write len)) (s := s.foldPayload len)
      (r := r.foldPayload len) ⟨hs.rst, hs.fault, hs.hid⟩ ⟨hr.rst, hr.fault, hr.hid⟩ hfolded hready
    refine ⟨(s.foldPayload len).acc, len, h, vs, hwhole, hwhole', ?_, ?_⟩
    · rw [exec_write_eq len s hmax, advance_beginWrite_of_whole s len h4 hmax hwhole, e]
      rfl
    · rw [exec_write_eq len r hmax, advance_beginWrite_of_whole r len h4 hmax hwhole', e']
      rfl

/-- A command does the same from two command boundaries with the same accumulators, payload and ready pins: it faults
with the same word, or moves the same beats. -/
theorem exec_moved (i : Instr) {s r : State} (hwf : i.WellFormed) (hs : s.AtBoundary) (hr : r.AtBoundary)
    (hacc : r.acc = s.acc) (hdin : r.din.take (payloadOf [i]) = s.din.take (payloadOf [i]))
    (hrsp : r.rspReady = s.rspReady) (hdout : r.doutReady = s.doutReady) :
    (∃ cause w, exec i s = .next (raiseFault cause w s) ∧ exec i r = .next (raiseFault cause w r)) ∨
    (∃ x n h vs bs, n ≤ s.din.length ∧ n ≤ r.din.length ∧ exec i s = .next (s.moved x n h vs bs) ∧
      exec i r = .next (r.moved x n h vs bs)) := by
  have answers (hi : i = .sumw ∨ i = .size ∨ i = .blksz) : ∃ x n h vs bs, n ≤ s.din.length ∧ n ≤ r.din.length ∧
      exec i s = .next (s.moved x n h vs bs) ∧ exec i r = .next (r.moved x n h vs bs) := by
    obtain ⟨h, vs, e, e'⟩ := advance_response_moved (encode i) hs hr hacc hrsp
    exact ⟨_, 0, h, vs, [], Nat.zero_le _, Nat.zero_le _, by rw [exec_answers i hi, e], by rw [exec_answers i hi, e']⟩
  cases i with
  | reset =>
    refine .inr ⟨Acc.zero, 0, Hidden.idle, [], [], Nat.zero_le _, Nat.zero_le _, ?_, ?_⟩
    · rw [exec_reset_of_boundary s hs, ← hs.hid]
      simp [State.moved]
    · rw [exec_reset_of_boundary r hr, ← hr.hid]
      simp [State.moved]
  | write len =>
    have hmax := le_of_wellFormed hwf
    by_cases h4 : len % 4 = 0
    · have hpayload : payloadOf [.write len] = len := by simp [payloadOf, misaligned, Config.wordBytes, h4]
      rw [hpayload] at hdin
      obtain ⟨x, n, h, vs, hn, hn', e, e'⟩ := exec_write_moved len hmax h4 hs hr hacc hdin hrsp
      exact .inr ⟨x, n, h, vs, [], hn, hn', e, e'⟩
    · exact .inl ⟨_, _, exec_write_faults hmax h4 s, exec_write_faults hmax h4 r⟩
  | sum =>
    obtain ⟨h, bs, e, e'⟩ := advance_digest_moved (encode .sum) hs hr hacc hdout
    exact .inr ⟨_, 0, h, [], bs, Nat.zero_le _, Nat.zero_le _, congrArg Host.Outcome.next e,
      congrArg Host.Outcome.next e'⟩
  | sumw => exact .inr (answers (.inl rfl))
  | size => exact .inr (answers (.inr (.inl rfl)))
  | blksz => exact .inr (answers (.inr (.inr rfl)))

/-- Settles O38: both runs are the same fault, or the same move. -/
theorem commandsIgnoreHistory : Obligations.CommandsIgnoreHistory := by
  intro s r i hwf hs hr hacc hdin hrsp hdout
  rcases exec_moved i hwf hs hr hacc hdin hrsp hdout with ⟨cause, w, e, e'⟩ | ⟨x, n, h, vs, bs, hn, hn', e, e'⟩
  · exact ⟨_, _, [], [], 0, e, e', hacc, rfl, rfl, fun _ => ⟨rfl, rfl⟩, Nat.zero_le _, Nat.zero_le _, rfl, rfl,
      (List.append_nil _).symm, (List.append_nil _).symm, (List.append_nil _).symm, (List.append_nil _).symm⟩
  · have hfault : (s.moved x n h vs bs).fault = false := hs.fault
    exact ⟨_, _, vs, bs, n, e, e', rfl, rfl, hr.fault.trans hs.fault.symm, by simp [hfault], hn, hn', rfl, rfl, rfl,
      rfl, rfl, rfl⟩

/-- Settles O12: each word by the decoder. -/
theorem specWordsDecode : Obligations.SpecWordsDecode := by
  unfold Obligations.SpecWordsDecode
  decide

theorem decodeWord_of_decode (c : Word32) (i : Instr) (s : State) (h : decode c = .ok i) :
    decodeWord c s = beginInstr i s := by
  simp [decodeWord, h]

/-- Settles O13: accepted now or held since an earlier edge, a word is decoded as at a command boundary. -/
theorem stepRunsDecodedCommand : Obligations.StepRunsDecodedCommand := by
  refine ⟨fun s c rest i hb hc hd => ⟨wellFormed_of_decode c i hd, ?_, fun p k hk => ?_⟩,
    fun s c i hr hf hp hc hd => ⟨?_, fun p k => ?_⟩⟩
  · exact (step_of_boundary s c rest hb hc).trans (executeWord_of_decode c i _ hd)
  · rw [edge_of_boundary p k s c rest hb hc, hk, if_pos rfl, acceptEdge_eq, decodeWord_of_decode c i _ hd]
    rfl
  · rw [step_of_busy s hr hf (by simp [hp]), exec_eq i _ (wellFormed_of_decode c i hd), resume,
      decodeHeld_of_word s c hp hc, ← decodeWord_of_decode c i _ hd, decodeWord_hid c s Hidden.idle]
  · rw [edge_of_decode p k s hr hf hp, decodeEdge, decodeHeld_of_word s c hp hc, ← decodeWord_of_decode c i _ hd,
      decodeWord_hid c s Hidden.idle]

theorem step_next (s : State) : ∃ t, step s = .next t := by
  rcases step_cases s with ⟨_, e⟩ | ⟨_, _, e⟩ | ⟨_, _, _, _, e⟩ | ⟨c, rest, _, _, _, _, e⟩ | ⟨_, _, _, e⟩
  · exact ⟨_, e⟩
  · exact ⟨_, e⟩
  · exact ⟨_, e⟩
  · exact ⟨_, e.trans (executeWord_eq c _)⟩
  · exact ⟨_, e⟩

/-- Settles O17: every case of a step has its next state, and the length refused is above that of any word. -/
theorem everyStepHasNextState : Obligations.EveryStepHasNextState := by
  refine ⟨step_next, fun s c i hd => ⟨_, exec_eq i s (wellFormed_of_decode c i hd)⟩,
    fun s len hlen => ⟨if_pos hlen, ?_⟩⟩
  intro c hd
  exact absurd (le_of_wellFormed (wellFormed_of_decode c _ hd)) (Nat.not_le.mpr hlen)

/-- At a command boundary hardware reset changes only the accumulators, the command index and what the host may
withdraw. -/
theorem hwReset_of_boundary {s : State} (hs : s.Inv) (hb : s.AtBoundary) :
    { hwReset s with ci := s.ci, resetTaken := false } = { s with acc := Acc.zero } := by
  obtain ⟨hcause, hfinfo⟩ := hs.clear hb.fault
  have htaken : s.resetTaken = false := Bool.eq_false_iff.mpr fun h => absurd (hs.taken h) (by simp [hb.rst])
  simp only [hwReset, hb.fault, hcause, hfinfo, hb.hid, htaken]

/-- Settles O19: at a command boundary `RESET` clears the accumulators, and the rest is as hardware reset leaves it. -/
theorem resetCommandMatchesHardwareReset : Obligations.ResetCommandMatchesHardwareReset := fun s hs hb =>
  ⟨by rw [hwReset_of_boundary hs hb]; exact exec_reset_of_boundary s hb, exec_reset_of_boundary s hb⟩

end Sys2Proof.Machine

/-! PROOF. The handshake at the clock edges (spec/20_memory.md R51 to R53, R65; spec/70_reset_and_hazards.md R242), and
the stuck block (spec/60_exceptions.md R194). -/

namespace Sys2Proof.Machine

/-- No channel transfers a beat. -/
abbrev Transfers.none : Transfers := { cmd := .none, din := .none, dout := .none, rsp := .none }

theorem transfers_of_fault (k : Pace) {s : State} (hf : s.fault = true) : transfers k s = Transfers.none := by
  obtain ⟨hcmd, hdin, hdout, hrsp⟩ := pins_of_fault k s hf
  simp [transfers, hcmd, hdin, hdout, hrsp]

/-- In each phase at most one channel can transfer: CMD when idle. -/
theorem transfers_of_idle (k : Pace) {s : State} (hr : s.rst = false) (hf : s.fault = false)
    (hp : s.hid.phase = .idle) :
    transfers k s = { Transfers.none with cmd := if k.accept then s.cmd.head? else .none } := by
  simp [transfers, cmdReady, dinReady, doutPin, rspPin, hr, hf, hp]

theorem transfers_of_decode (k : Pace) {s : State} (hp : s.hid.phase = .decode) : transfers k s = Transfers.none := by
  simp [transfers, cmdReady, dinReady, doutPin, rspPin, hp]

/-- DIN in the payload phase. -/
theorem transfers_of_payload (k : Pace) {s : State} (hr : s.rst = false) (hp : s.hid.phase = .payload) :
    transfers k s = { Transfers.none with din := if dinReady k s then s.din.head? else .none } := by
  simp [transfers, cmdReady, doutPin, rspPin, hr, hp]

/-- RSP in the response phase. -/
theorem transfers_of_response (k : Pace) {s : State} (hr : s.rst = false) (hf : s.fault = false)
    (hp : s.hid.phase = .response) :
    transfers k s =
      { Transfers.none with rsp := if s.rspReady && offers k s then s.owedRsp.head? else .none } := by
  cases hready : s.rspReady <;> simp [transfers, cmdReady, dinReady, doutPin, rspPin, hr, hf, hp, hready]

/-- DOUT in the digest phase. -/
theorem transfers_of_digest (k : Pace) {s : State} (hr : s.rst = false) (hf : s.fault = false)
    (hp : s.hid.phase = .digest) :
    transfers k s =
      { Transfers.none with dout := if s.doutReady && offers k s then s.owedDout.head? else .none } := by
  cases hready : s.doutReady <;> simp [transfers, cmdReady, dinReady, doutPin, rspPin, hr, hf, hp, hready]

/-- From `s` to `t` each channel moves by the beats `x`, at most one in all (R51, R65). -/
structure MovesBy (s t : State) (x : Transfers) : Prop where
  cmd : s.cmd = x.cmd.toList ++ t.cmd
  din : s.din = x.din.toList ++ t.din
  dout : t.dout = s.dout ++ x.dout.toList
  rsp : t.rsp = s.rsp ++ x.rsp.toList
  atMostOne : x.cmd.toList.length + x.din.toList.length + x.dout.toList.length + x.rsp.toList.length ≤ 1

theorem MovesBy.of_none {s t : State} (hcmd : t.cmd = s.cmd) (hdin : t.din = s.din) (hdout : t.dout = s.dout)
    (hrsp : t.rsp = s.rsp) : MovesBy s t Transfers.none :=
  ⟨hcmd.symm, hdin.symm, hdout.trans (List.append_nil _).symm, hrsp.trans (List.append_nil _).symm, Nat.zero_le 1⟩

theorem MovesBy.refl (s : State) : MovesBy s s Transfers.none := .of_none rfl rfl rfl rfl

theorem acceptEdge_moves (k : Pace) {s : State} {c : Word32} {rest : List Word32} (hc : s.cmd = c :: rest) :
    MovesBy s (acceptEdge k c rest s) { Transfers.none with cmd := some c } := by
  have h := acceptEdge_ports k c rest s
  exact ⟨by rw [hc, h.cmd]; rfl, h.din.symm, h.dout.trans (List.append_nil _).symm,
    h.rsp.trans (List.append_nil _).symm, Nat.le_refl 1⟩

theorem payloadEdge_moves (p : Bool) (k : Pace) (s : State) :
    MovesBy s (payloadEdge p k s)
      { Transfers.none with din := if dinReady k s then s.din.head? else .none } := by
  have hc := payloadEdge_control p k s
  obtain ⟨_, _, _, hdout, hrsp⟩ := takeByte_control k s
  have hsame : (payloadEdge p k s).din = (takeByte k s).2.din ∧ (payloadEdge p k s).dout = (takeByte k s).2.dout ∧
      (payloadEdge p k s).rsp = (takeByte k s).2.rsp := by
    rcases payloadEdge_cases p k s with e | ⟨_, _, e⟩ <;> rw [e] <;> exact ⟨rfl, rfl, rfl⟩
  obtain ⟨hdin', hdout', hrsp'⟩ := hsame
  have hdin : s.din = (if dinReady k s then s.din.head? else Option.none).toList ++ (takeByte k s).2.din := by
    rcases takeByte_cases k s with ⟨h, hno⟩ | ⟨b, rest, hd, hready, ⟨w, h, _⟩ | ⟨h, _⟩⟩ <;> rw [h]
    · rcases hno with hno | hno <;> simp [hno]
    · simp [hd, hready]
    · simp [hd, hready]
  refine ⟨hc.cmd.symm, by rw [hdin']; exact hdin, ?_, ?_, ?_⟩
  · rw [hdout', hdout]
    exact (List.append_nil _).symm
  · rw [hrsp', hrsp]
    exact (List.append_nil _).symm
  · simp

theorem sendRsp_moves (s : State) : MovesBy s (sendRsp s) { Transfers.none with rsp := s.owedRsp.head? } := by
  rcases sendRsp_cases s with ⟨howed, e⟩ | ⟨v, howed, e⟩ | ⟨v, w, l, howed, e⟩ <;> rw [e, howed]
  · exact .of_none rfl rfl rfl rfl
  · exact ⟨rfl, rfl, (List.append_nil _).symm, rfl, Nat.le_refl 1⟩
  · exact ⟨rfl, rfl, (List.append_nil _).symm, rfl, Nat.le_refl 1⟩

theorem sendDout_moves (s : State) : MovesBy s (sendDout s) { Transfers.none with dout := s.owedDout.head? } := by
  rcases sendDout_cases s with ⟨howed, e⟩ | ⟨v, howed, e⟩ | ⟨v, w, l, howed, e⟩ <;> rw [e, howed]
  · exact .of_none rfl rfl rfl rfl
  · exact ⟨rfl, rfl, rfl, (List.append_nil _).symm, Nat.le_refl 1⟩
  · exact ⟨rfl, rfl, rfl, (List.append_nil _).symm, Nat.le_refl 1⟩

theorem responseEdge_moves (k : Pace) (s : State) :
    MovesBy s (responseEdge k s)
      { Transfers.none with rsp := if s.rspReady && offers k s then s.owedRsp.head? else .none } := by
  rcases responseEdge_cases k s with ⟨ho, e⟩ | ⟨ho, hr, e⟩ | ⟨ho, hr, e⟩ <;> rw [e, ho]
  · simpa using MovesBy.refl s
  · simpa [hr] using MovesBy.of_none (s := s) (t := offerBeat s) rfl rfl rfl rfl
  · simpa [hr] using sendRsp_moves s

theorem digestEdge_moves (k : Pace) (s : State) :
    MovesBy s (digestEdge k s)
      { Transfers.none with dout := if s.doutReady && offers k s then s.owedDout.head? else .none } := by
  rcases digestEdge_cases k s with ⟨ho, e⟩ | ⟨ho, hr, e⟩ | ⟨ho, hr, e⟩ <;> rw [e, ho]
  · simpa using MovesBy.refl s
  · simpa [hr] using MovesBy.of_none (s := s) (t := offerBeat s) rfl rfl rfl rfl
  · simpa [hr] using sendDout_moves s

/-- An edge moves on each channel what the handshake transfers there, and no more (R51). -/
theorem edge_moves (p : Bool) (k : Pace) (s : State) : MovesBy s (edge p k s) (transfers k s) := by
  rcases edge_cases p k s with ⟨hr, e⟩ | ⟨_, hf, e⟩ | ⟨hr, hf, hp, hno, e⟩ | ⟨c, rest, hr, hf, hp, hc, hk, e⟩ |
    ⟨_, _, hp, e⟩ | ⟨hr, _, hp, e⟩ | ⟨hr, hf, hp, e⟩ | ⟨hr, hf, hp, e⟩ <;> rw [e]
  · rw [transfers_of_rst k s hr]
    exact .of_none rfl rfl rfl rfl
  · rw [transfers_of_fault k hf]
    exact .refl s
  · rw [transfers_of_idle k hr hf hp]
    rcases hno with hno | hno <;> simpa [hno] using MovesBy.refl s
  · rw [transfers_of_idle k hr hf hp, hk, hc]
    exact acceptEdge_moves k hc
  · rw [transfers_of_decode k hp]
    have h := decodeEdge_ports k s
    exact .of_none h.cmd h.din h.dout h.rsp
  · rw [transfers_of_payload k hr hp]
    exact payloadEdge_moves p k s
  · rw [transfers_of_response k hr hf hp]
    exact responseEdge_moves k s
  · rw [transfers_of_digest k hr hf hp]
    exact digestEdge_moves k s

/-- A pin of DOUT that is 1 shows the byte owed in the digest phase. -/
theorem doutPin_eq_some {k : Pace} {s : State} {b : Byte} (h : doutPin k s = some b) :
    s.fault = false ∧ s.hid.phase = .digest ∧ offers k s = true ∧ s.owedDout.head? = some b := by
  simpa [doutPin, and_assoc] using h

theorem rspPin_eq_some {k : Pace} {s : State} {v : Word64} (h : rspPin k s = some v) :
    s.fault = false ∧ s.hid.phase = .response ∧ offers k s = true ∧ s.owedRsp.head? = some v := by
  simpa [rspPin, and_assoc] using h

/-- A byte on the pin that is not transferred is on the pin at the next edge, whatever the paces (R51). -/
theorem doutPin_stays (p : Bool) (k k' : Pace) {s : State} (hr : s.rst = false) {b : Byte} (hb : doutPin k s = some b)
    (hno : (transfers k s).dout = none) : doutPin k' (edge p k s) = some b := by
  obtain ⟨hf, hp, ho, howed⟩ := doutPin_eq_some hb
  have hready : s.doutReady = false := by
    rw [transfers_of_digest k hr hf hp] at hno
    simpa [ho, howed] using hno
  have hedge : edge p k s = offerBeat s := by
    rw [edge_of_digest p k s hr hf hp, digestEdge, ho, hready]
    rfl
  have howed' : (offerBeat s).owedDout.head? = some b := howed
  rw [hedge, doutPin, howed']
  simp [hf, hp, offers]

theorem rspPin_stays (p : Bool) (k k' : Pace) {s : State} (hr : s.rst = false) {v : Word64} (hv : rspPin k s = some v)
    (hno : (transfers k s).rsp = none) : rspPin k' (edge p k s) = some v := by
  obtain ⟨hf, hp, ho, howed⟩ := rspPin_eq_some hv
  have hready : s.rspReady = false := by
    rw [transfers_of_response k hr hf hp] at hno
    simpa [ho, howed] using hno
  have hedge : edge p k s = offerBeat s := by
    rw [edge_of_response p k s hr hf hp, responseEdge, ho, hready]
    rfl
  have howed' : (offerBeat s).owedRsp.head? = some v := howed
  rw [hedge, rspPin, howed']
  simp [hf, hp, offers]

/-- Settles O52: by the moves of an edge; a valid that waits is kept by the offer, and reads no ready pin. -/
theorem edgeMovesTransferredBeats : Obligations.EdgeMovesTransferredBeats := by
  refine ⟨fun s p k => ?_, fun s p k k' hr => ⟨fun b => doutPin_stays p k k' hr, fun v => rspPin_stays p k k' hr⟩,
    fun s k r => ⟨rfl, rfl⟩, fun s t m hs hr hm => ?_⟩
  · obtain ⟨hcmd, hdin, hdout, hrsp, hone⟩ := edge_moves p k s
    exact ⟨hcmd, hdin, hdout, hrsp, hone⟩
  · exact hostMove_presented m s t (Bool.eq_false_iff.mpr fun ht => absurd (hs.taken ht) (by simp [hr])) hm

/-- Settles O57: at most one beat a channel and edge, added up over the edges. -/
theorem edgesMoveAtMostOneBeatEach : Obligations.EdgesMoveAtMostOneBeatEach := by
  intro s p ks
  induction ks generalizing s with
  | nil => exact ⟨Nat.le_refl _, Nat.le_refl _, Nat.le_refl _, Nat.le_refl _⟩
  | cons k ks ih =>
    obtain ⟨hcmd, hdin, hdout, hrsp, hone⟩ := edge_moves p k s
    obtain ⟨ihdin, ihdout, ihrsp, ihcmd⟩ := ih (edge p k s)
    have lcmd := congrArg List.length hcmd
    have ldin := congrArg List.length hdin
    have ldout := congrArg List.length hdout
    have lrsp := congrArg List.length hrsp
    simp only [List.length_append] at lcmd ldin ldout lrsp
    simp only [edges, List.length_cons]
    omega

/-- An edge counts the words it transfers on CMD (R25). -/
theorem edge_ci (p : Bool) (k : Pace) {s : State} (hr : s.rst = false) :
    (edge p k s).ci = s.ci + (transfers k s).cmd.toList.length := by
  by_cases hp : s.hid.phase = .idle
  · rcases edge_cases p k s with ⟨h, _⟩ | ⟨_, hf, e⟩ | ⟨_, hf, _, hno, e⟩ | ⟨c, rest, _, hf, _, hc, hk, e⟩ |
      ⟨_, _, h, _⟩ | ⟨_, _, h, _⟩ | ⟨_, _, h, _⟩ | ⟨_, _, h, _⟩
    · simp [hr] at h
    · rw [e, transfers_of_fault k hf]
      rfl
    · rw [e, transfers_of_idle k hr hf hp]
      rcases hno with hno | hno <;> simp [hno]
    · rw [e, (acceptEdge_ports k c rest s).ci, transfers_of_idle k hr hf hp, hk, hc]
      rfl
    all_goals simp [hp] at h
  · have hcmd : (transfers k s).cmd = none := by simp [transfers, cmdReady, hp]
    rw [edge_ci_of_busy p k hr hp, hcmd]
    rfl

/-- Settles O16: a word counts when it leaves CMD, at a step or at an edge. -/
theorem commandIndexCountsAcceptedWords : Obligations.CommandIndexCountsAcceptedWords := by
  refine ⟨fun s c rest hb hc => ?_, fun s t h hr hcmd => ?_, fun s t h hr => ?_,
    fun s p k => ⟨edge_ci p k, fun hr => ?_⟩, fun s t m h => ?_⟩
  · have hadv := advance_control (decodeWord c (acceptCommand rest s))
    have hdec := decodeWord_ports c (acceptCommand rest s)
    exact ⟨_, (step_of_boundary s c rest hb hc).trans (executeWord_eq c _), hadv.ci.trans hdec.ci,
      hadv.cmd.trans hdec.cmd⟩
  · rcases step_cases s with ⟨h', _⟩ | ⟨_, _, e⟩ | ⟨_, _, _, _, e⟩ | ⟨c, rest, _, _, _, hc, e⟩ | ⟨_, _, _, e⟩
    · simp [hr] at h'
    · cases e.symm.trans h
      rfl
    · cases e.symm.trans h
      rfl
    · cases (e.trans (executeWord_eq c _)).symm.trans h
      rw [(advance_control _).cmd, (decodeWord_ports c _).cmd, hc] at hcmd
      exact absurd hcmd (List.cons_ne_self c rest)
    · cases e.symm.trans h
      exact (advance_control _).ci.trans (decodeHeld_ports s).ci
  · cases (step_of_rst s hr).symm.trans h
    rfl
  · rw [edge_of_rst p k s hr]
    rfl
  · obtain ⟨_, _, _, _, hci, _⟩ := hostMove_block m s t h
    exact hci

/-- A valid is 1 exactly while its phase lasts and the beat is offered: in its phase a beat is always owed. -/
theorem doutPin_isSome_iff (k : Pace) {s : State} (hs : s.Inv) :
    (doutPin k s).isSome = true ↔ s.hid.phase = .digest ∧ (k.offer = true ∨ s.hid.offered = true) := by
  by_cases hp : s.hid.phase = .digest
  · obtain ⟨b, l, howed⟩ := List.exists_cons_of_ne_nil (owedDout_ne_nil s)
    have hf := hs.fault_of_busy (by simp [hp])
    simp [doutPin, offers, hp, hf, howed]
  · simp [doutPin, hp]

theorem rspPin_isSome_iff (k : Pace) {s : State} (hs : s.Inv) :
    (rspPin k s).isSome = true ↔ s.hid.phase = .response ∧ (k.offer = true ∨ s.hid.offered = true) := by
  by_cases hp : s.hid.phase = .response
  · obtain ⟨v, l, howed⟩ := List.exists_cons_of_ne_nil (hs.response hp).owedRsp_ne_nil
    have hf := hs.fault_of_busy (by simp [hp])
    simp [rspPin, offers, hp, hf, howed]
  · simp [rspPin, hp]

/-- Settles O53: output by output, by the phase the invariant ties to what is owed. -/
theorem readyAndValidFollowThePhase : Obligations.ReadyAndValidFollowThePhase := by
  intro s p k hs
  refine ⟨?_, fun hp => ?_, ?_, doutPin_isSome_iff k hs, rspPin_isSome_iff k hs, fun hp => ?_,
    fun hp => ⟨(hs.digest hp).word, owedDout_ne_nil s⟩, fun hp => (hs.response hp).owedRsp_ne_nil, pins_of_fault k s,
    fun hready => ?_⟩
  · rw [cmdReady_iff]
    constructor
    · exact fun ⟨hk, hr, hf, hp⟩ => ⟨hs.boundary_of_idle hr hf hp, hk⟩
    · exact fun ⟨hb, hk⟩ => ⟨hk, hb.rst, hb.fault, by rw [hb.hid]; rfl⟩
  · obtain ⟨hdin, hrsp, hdout⟩ := pins_of_idle_or_decode k s (.inr hp)
    have hcmd : cmdReady k s = false := by simp [cmdReady, hp]
    rw [pinsOut, hcmd, hdin, hdout, hrsp]
  · rw [dinReady_iff]
    constructor
    · exact fun ⟨hk, _, hp, hrem, hmay⟩ => ⟨hp, hrem, hk, hmay⟩
    · exact fun ⟨hp, hrem, hk, hmay⟩ => ⟨hk, hs.fault_of_busy (by simp [hp]), hp, hrem, hmay⟩
  · obtain ⟨c, hc, haligned, -⟩ := (hs.payload hp).word
    have hop : opField c = 0x2#4 ∧ misaligned (lenField c) = false := by simpa [alignedWriteWord] using haligned
    exact ⟨c, hc, hop.1⟩
  · have hdin := (edge_moves p k s).din
    have hnone : (transfers k s).din = none := by simp [transfers, hready]
    rw [hnone] at hdin
    exact hdin.symm

/-- With no addition owed an edge with no word changes nothing in the adder stage. -/
theorem addersEdge_none_of_settled (p : Bool) (k : Pace) {q : AdderStage} (h : q.settled = true) :
    addersEdge p k none q = q := by
  obtain ⟨ha, hb, hc⟩ := (settled_iff q).mp h
  have hwork : q.work = 0 := by simp [AdderStage.work, additionsDue, ha, hb, hc]
  exact (addersEdge_none_work p k q).resolve_right (by omega)

/-- An edge that finds no byte there and none owed to the adders leaves the payload phase waiting. -/
theorem payloadEdge_of_waiting (p : Bool) (k : Pace) {s : State} (hd : s.din = []) (hrem : s.hid.remaining ≠ 0#28)
    (hv : s.adders.settled = true) : payloadEdge p k s = s := by
  have hnone : takeByte k s = (none, s) := by simp [takeByte, hd]
  have hsame : takeAndAdd p k s = s := by
    rw [takeAndAdd_of_none hnone, addersEdge_none_of_settled p k hv]
    rfl
  rw [payloadEdge_eq, hsame, if_neg fun h => hrem h.1]

/-- Settles O41: in its phase a stuck block finds no byte, or no ready sink, and so neither moves a beat nor changes. -/
theorem stuckBlockKeepsItsProgress : Obligations.StuckBlockKeepsItsProgress := by
  intro s p k hstuck
  have hresume := resume_of_stuck hstuck
  obtain ⟨hr, hf, hwait, hv⟩ := hstuck
  rcases hwait with ⟨hp, hd, hrem⟩ | ⟨ho, ⟨hp, hrsp⟩ | ⟨hp, hdout⟩⟩
  · refine ⟨hf, by simp [cmdReady, hp], by rw [step_of_busy s hr hf (by simp [hp]), hresume], ?_, ?_⟩
    · rw [edge_of_payload p k s hr hf hp, payloadEdge_of_waiting p k hd hrem hv]
    · simp [transfers_of_payload k hr hp, hd]
  · refine ⟨hf, by simp [cmdReady, hp], by rw [step_of_busy s hr hf (by simp [hp]), hresume], ?_, ?_⟩
    · rw [edge_of_response p k s hr hf hp]
      simp [responseEdge, offers, ho, hrsp, offerBeat_of_offered ho]
    · simp [transfers_of_response k hr hf hp, hrsp]
  · refine ⟨hf, by simp [cmdReady, hp], by rw [step_of_busy s hr hf (by simp [hp]), hresume], ?_, ?_⟩
    · rw [edge_of_digest p k s hr hf hp]
      simp [digestEdge, offers, ho, hdout, offerBeat_of_offered ho]
    · simp [transfers_of_digest k hr hf hp, hdout]

end Sys2Proof.Machine

/-! PROOF. The four-stage pipeline over a stream of words (spec/41_write.md R132). -/

namespace Sys2Proof.Machine

/-- Whatever comes at an edge, after the drain it counts as the word that came, if any. -/
theorem drain_pipeEdge (w : Option Word32) (q : AdderStage) :
    (drain (pipeEdge w q)).acc = foldAll (drain q).acc w.toList := by
  cases w with
  | none => rw [drain_pipeEdge_none]; rfl
  | some w => rw [drain_pipeEdge_some]; rfl

theorem drain_stagesEdge (k : Pace) (w : Option Word32) (q : AdderStage) (h : q.takesWord k = true ∨ w = none) :
    (drain (stagesEdge k w q)).acc = foldAll (drain q).acc w.toList := by
  cases w with
  | none => rw [drain_stagesEdge_none]; rfl
  | some w => rw [drain_stagesEdge_some k w q (h.resolve_right (by simp))]; rfl

theorem drain_foldl_pipeEdge (ins : List (Option Word32)) (q : AdderStage) :
    (drain (ins.foldl (fun q w => pipeEdge w q) q)).acc = foldAll (drain q).acc (ins.filterMap id) := by
  induction ins generalizing q with
  | nil => rfl
  | cons w ins ih =>
    rw [List.foldl_cons, ih, drain_pipeEdge, ← foldAll_append]
    cases w <;> rfl

theorem drain_feedStages (ins : List (Pace × Option Word32)) (q : AdderStage) :
    (drain (feedStages ins q).1).acc = foldAll (drain q).acc (feedStages ins q).2 := by
  induction ins generalizing q with
  | nil => rfl
  | cons kw ins ih =>
    obtain ⟨k, w⟩ := kw
    simp only [feedStages]
    rw [ih, foldAll_append, drain_stagesEdge]
    split
    next h => exact .inl h
    next => exact .inr rfl

/-- Settles O6: each edge, at full pace or any other, adds to what the drain gives the word that entered. -/
theorem pipelineDrainsToFoldAll : Obligations.PipelineDrainsToFoldAll := by
  intro p hp
  refine ⟨fun ins => ⟨?_, drain_settled _⟩, fun ins => ⟨?_, drain_settled _⟩,
    fun win q => ⟨stagesEdge_full win q, takesWord_full q⟩⟩
  · rw [drain_foldl_pipeEdge, drain_of_settled p hp]
  · rw [drain_feedStages, drain_of_settled p hp]

end Sys2Proof.Machine

/-! PROOF. The assembler's lines (spec/30_encoding.md R88 to R90). -/

namespace Sys2Proof.Machine

/-- The four bytes of a word make the word again (R56, R90). -/
theorem le32_bytes (w : Word32) :
    le32 (w.extractLsb' 0 8) (w.extractLsb' 8 8) (w.extractLsb' 16 8) (w.extractLsb' 24 8) = w := by
  apply BitVec.eq_of_toNat_eq
  have h := w.isLt
  rw [le32_toNat]
  simp only [BitVec.extractLsb'_toNat, Nat.shiftRight_eq_div_pow]
  omega

theorem flatMap_bytesOfWord_length (ws : List Word32) : (ws.flatMap bytesOfWord).length = 4 * ws.length := by
  induction ws with
  | nil => rfl
  | cons w ws ih =>
    rw [List.flatMap_cons, List.length_append, ih, List.length_cons, bytesOfWord]
    simp only [List.length_cons, List.length_nil]
    omega

/-- The word assembler reads back the words that were laid out in bytes. -/
theorem wordsOf_flatMap_bytesOfWord (ws : List Word32) : wordsOf (ws.flatMap bytesOfWord) = ws := by
  induction ws with
  | nil => rfl
  | cons w ws ih =>
    calc wordsOf ((w :: ws).flatMap bytesOfWord)
      _ = le32 (w.extractLsb' 0 8) (w.extractLsb' 8 8) (w.extractLsb' 16 8) (w.extractLsb' 24 8) ::
            wordsOf (ws.flatMap bytesOfWord) := rfl
      _ = w :: ws := by rw [le32_bytes, ih]

/-- Settles O58: four bytes a word, and a `WRITE` of as many. -/
theorem writewPresentsItsWords : Obligations.WritewPresentsItsWords := by
  intro ws
  have hlen := flatMap_bytesOfWord_length ws
  refine ⟨_, _, rfl, hlen, wordsOf_flatMap_bytesOfWord ws, fun h => ?_⟩
  rw [hlen]
  exact decode_encode (.write (4 * ws.length)) (decide_eq_true (by simp only [Config.lenMax]; omega))

theorem writelOf_of_le (fuel : Nat) {bytes : List Byte} (h : bytes.length ≤ 268435452) :
    writelOf (fuel + 1) bytes = [updateOf bytes] := if_pos h

theorem writelOf_of_gt (fuel : Nat) {bytes : List Byte} (h : 268435452 < bytes.length) :
    writelOf (fuel + 1) bytes = updateOf (bytes.take 268435452) :: writelOf fuel (bytes.drop 268435452) :=
  if_neg (Nat.not_le.mpr h)

/-- A write of a legal length, as `WRITEL` makes them (R88, R136). -/
abbrev LegalWrite (p : Presented) : Prop :=
  decode p.1 = .ok (.write p.2.length) ∧ p.2.length % 4 = 0 ∧ p.2.length ≤ 268435452

theorem updateOf_legal {bytes : List Byte} (h4 : bytes.length % 4 = 0) (h : bytes.length ≤ 268435452) :
    LegalWrite (updateOf bytes) :=
  ⟨decode_encode (.write bytes.length) (decide_eq_true (by simp only [Config.lenMax]; omega)), h4, h⟩

/-- With fuel enough for its length, a payload is split without loss into legal writes, all but the last of the largest
legal length. -/
theorem writelOf_splits (fuel : Nat) (bytes : List Byte) (h4 : bytes.length % 4 = 0)
    (hfuel : bytes.length / 268435452 < fuel) :
    writelOf fuel bytes ≠ [] ∧ (writelOf fuel bytes).flatMap Prod.snd = bytes ∧
    (∀ p ∈ writelOf fuel bytes, LegalWrite p) ∧ (∀ p ∈ (writelOf fuel bytes).dropLast, p.2.length = 268435452) := by
  induction fuel generalizing bytes with
  | zero => exact absurd hfuel (Nat.not_lt_zero _)
  | succ fuel ih =>
    by_cases h : bytes.length ≤ 268435452
    · rw [writelOf_of_le fuel h]
      refine ⟨by simp, by simp [updateOf], fun p hp => ?_, by simp⟩
      rw [List.mem_singleton.mp hp]
      exact updateOf_legal h4 h
    · have hgt : 268435452 < bytes.length := Nat.not_le.mp h
      have hfirst : (bytes.take 268435452).length = 268435452 := List.length_take_of_le (Nat.le_of_lt hgt)
      have hrest : (bytes.drop 268435452).length = bytes.length - 268435452 := List.length_drop
      obtain ⟨hne, hflat, hlegal, hlast⟩ := ih (bytes.drop 268435452) (by omega) (by omega)
      rw [writelOf_of_gt fuel hgt, List.dropLast_cons_of_ne_nil hne]
      refine ⟨List.cons_ne_nil _ _, ?_, fun p hp => ?_, fun p hp => ?_⟩
      · rw [List.flatMap_cons, hflat]
        exact List.take_append_drop _ _
      · rcases List.mem_cons.mp hp with rfl | hp
        · exact updateOf_legal (by omega) (Nat.le_of_eq hfirst)
        · exact hlegal p hp
      · rcases List.mem_cons.mp hp with rfl | hp
        · exact hfirst
        · exact hlast p hp

/-- Settles O59: the fuel of a line is enough for its payload. -/
theorem writelSplitsIntoLegalWrites : Obligations.WritelSplitsIntoLegalWrites := by
  intro bytes h4
  obtain ⟨_, hflat, hlegal, hlast⟩ :=
    writelOf_splits (bytes.length / Config.lenMaxLegal + 1) bytes h4 (Nat.lt_succ_self _)
  exact ⟨hflat, hlegal, hlast⟩

/-- The word of a `WRITE` as R82 adds it up. -/
theorem encode_write_eq_add (len : Nat) : encode (.write len) = 0x20000000#32 + BitVec.ofNat 32 len :=
  BitVec.ofNat_add 0x20000000 len

/-- A line of one command presents that command (R89, R90). -/
theorem presents_of_oneCommand {line : AsmLine} {c : Word32} {bytes : List Byte}
    (h : line.oneCommand = some (c, bytes)) : line.presents = [(c, bytes)] := by
  cases line with
  | hwreset => cases h
  | writel _ => cases h
  | write len bs =>
    cases h
    rw [AsmLine.presents, encode_write_eq_add]
  | update bs =>
    cases h
    rw [AsmLine.presents, updateOf, encode_write_eq_add]
  | writew ws =>
    cases h
    rw [AsmLine.presents, updateOf, flatMap_bytesOfWord_length, encode_write_eq_add]
  | _ =>
    cases h
    rfl

theorem events_of_oneCommand {line : AsmLine} {c : Word32} {bytes : List Byte}
    (h : line.oneCommand = some (c, bytes)) : line.events = presentEvents (c, bytes) := by
  have hpresents := presents_of_oneCommand h
  cases line with
  | hwreset => cases h
  | _ => simp only [AsmLine.events, hpresents, List.flatMap_cons, List.flatMap_nil, List.append_nil]

/-- Bytes presented one after the other stand on DIN in their order. -/
theorem events_presentDin (p : Bool) (bytes : List Byte) (s : State) :
    events p (bytes.map fun b => Event.host (.presentDin b)) s = some (s.withDin (s.din ++ bytes)) := by
  induction bytes generalizing s with
  | nil => simp [events, State.withDin]
  | cons b bytes ih =>
    have hnext := ih (s.withDin (s.din ++ [b]))
    simpa [events, event, hostMove, State.withDin] using hnext

/-- An idle block with nothing presented, once the host has presented a command with its bytes. -/
def State.presented (s : State) (c : Word32) (bytes : List Byte) : State := { s with cmd := [c], din := s.din ++ bytes }

/-- The events of a command line are the host's moves and then the step that runs the command. -/
theorem events_present (p : Bool) {c : Word32} {bytes : List Byte} {s t : State} (hc : s.cmd = [])
    (ht : step (s.presented c bytes) = .next t) : events p (presentEvents (c, bytes)) s = some t := by
  have hmoves : events p (.host (.presentCmd c) :: bytes.map fun b => Event.host (.presentDin b)) s =
      some (s.presented c bytes) := by
    simp only [events, event, hostMove, hc, List.nil_append]
    exact events_presentDin p bytes _
  rw [presentEvents, events_append p _ _ _ _ hmoves]
  simp only [events, event, ht]

/-- Its step accepts the word and leaves nothing on CMD. -/
theorem step_presented {c : Word32} {bytes : List Byte} {s : State} (hb : s.AtBoundary) (hc : s.cmd = []) :
    step (s.presented c bytes) = executeWord c { s with ci := s.ci + 1, din := s.din ++ bytes } := by
  have haccept : acceptCommand [] (s.presented c bytes) = { s with ci := s.ci + 1, din := s.din ++ bytes } := by
    simp only [acceptCommand, State.presented, hc]
  rw [step_of_boundary (s.presented c bytes) c [] ⟨hb.rst, hb.fault, hb.hid⟩ rfl, haccept]

/-- Settles O60: a command line presents its command to the next step, and `HWRESET` is a step with `rst` 1 between two
moves of the host. -/
theorem assemblerLinesRunTheirCommands : Obligations.AssemblerLinesRunTheirCommands := by
  refine ⟨fun line c bytes h => ⟨presents_of_oneCommand h, fun p s hb hc => ⟨fun i hd => ?_, fun hill => ?_⟩⟩,
    fun p s => ?_⟩
  · have hexec := exec_eq i { s with ci := s.ci + 1, din := s.din ++ bytes } (wellFormed_of_decode c i hd)
    refine ⟨_, ?_, hexec⟩
    rw [events_of_oneCommand h]
    exact events_present p hc ((step_presented hb hc).trans ((executeWord_of_decode c i _ hd).trans hexec))
  · cases hd : decode c with
    | ok i => simp [illegalWord_of_ok c i hd] at hill
    | error e =>
      rw [events_of_oneCommand h, events_present p hc
        ((step_presented hb hc).trans (executeWord_of_illegal c e _ hd)), raiseFault_of_boundary]
      exact ⟨hb.rst, hb.fault, hb.hid⟩
  · have hstep := step_of_rst { s with rst := true, resetTaken := s.resetTaken && true } rfl
    simp only [AsmLine.events, events, event, hostMove, hstep, hwReset, Bool.and_false]

end Sys2Proof.Machine
